-- ==== Sys2Proof/Word.lean ====
section
/-! DEFINITION. The widths of the FCD: everything on the wire and every host register is one byte (R9, R10),
a host address has 12 bits (R8, R21), and the three frame byte counts have 9 bits (R41, R47). -/

namespace Sys2Proof

/-- One byte: a wire byte, a host register, a buffer byte (R9). -/
abbrev Byte := BitVec 8

/-- A host bus address, `hb_addr[11:0]` (R21). -/
abbrev HostAddr := BitVec 12

/-- A 9-bit frame byte count: FRAME_LEN, RXF_COUNT, TX_COUNT (R41, R47). -/
abbrev Count := BitVec 9

end Sys2Proof
end

