-- ==== Sys2Proof/Syntax.lean ====
section
/-! DEFINITION. The instructions: one constructor for each row of spec/opcode_table.json, with the operand bits its
encoding gives it and the rules read. Bits that the spec says are ignored (CTRL[6:4], the whole low part of a CTRL byte
with START = 0, the D field of RD and of WAIT) are no operands. Also the form an encoded instruction has, and the names
under which a decoder rejects one. -/

namespace Sys2Proof

/-- The instruction set (R2, R31, R100, R103, R104, R106). -/
inductive Instr where
  /-- CTRL byte, OP 0x1 (R100, R196) -/
  | send
  /-- CTRL byte, OP 0x2 (R100, R210) -/
  | inventory
  /-- CTRL byte, OP 0x3 (R100, R240) -/
  | read
  /-- CTRL byte, OP 0x4 (R100, R245) -/
  | write
  /-- CTRL byte, OP 0x5 (R100, R155) -/
  | encode
  /-- CTRL byte, OP 0x6 (R100, R156) -/
  | decode
  /-- CTRL byte, reserved OP 0x0 (R102, R264) -/
  | illegalOp0
  /-- CTRL byte, reserved OP 0x7 (R102, R264) -/
  | illegalOp7
  /-- CTRL byte, reserved OP 0x8 to 0xF (R102, R264) -/
  | illegalOpHigh (op : BitVec 4)
  /-- CTRL byte with START = 0 (R31) -/
  | ctrlNostart
  /-- host bus read of address `a` (R74, R104) -/
  | rd (a : HostAddr)
  /-- host bus write of `d` to address `a` (R74, R75, R104) -/
  | wr (a : HostAddr) (d : Byte)
  /-- pseudo-instruction `GO op` = `WR CTRL, 0x80 | op` (R106) -/
  | go (op : BitVec 4)
  /-- pseudo-instruction `WAIT`: `RD STATUS` until DONE = 1 (R106) -/
  | wait
  /-- pseudo-instruction `CLR` = `WR STATUS, 0x06` (R106) -/
  | clr
  /-- wire command code 0xEE of a request frame (R114, R210) -/
  | wireInventory
  /-- wire command code 0xEC of a request frame (R114, R240) -/
  | wireRead
  /-- wire command code 0xEB of a request frame (R114, R245) -/
  | wireWrite
  /-- any other wire command code of a request frame (R103) -/
  | wireOther (cmd : Byte)
  deriving DecidableEq, Repr

/-- Where an encoded instruction stands on this hardware, which says how its bytes are read (assumptions/4): the byte
written to CTRL, a host transaction word, a line of a host program that is a pseudo-instruction, or the command code
byte of a request frame. The first, second and fourth are the `format` column of spec/opcode_table.json; R106 keeps
pseudo-instructions apart from plain transactions. -/
inductive Format where
  | ctrl8
  | htw21
  | pseudo
  | wireFrame
  deriving DecidableEq, Repr

/-- An encoded instruction: its format and its bytes, lowest bits first (assumptions/5). -/
structure Slot where
  fmt : Format
  bytes : List Byte
  deriving DecidableEq, Repr

/-- Why a decoder rejects a slot. -/
inductive DecodeError where
  /-- a CTRL byte or a wire command code is one byte, a transaction word three -/
  | wrongLength
  /-- a bit above bit 20 of a transaction word is set (R104: 21 bits) -/
  | notTransactionWord
  /-- the word of a pseudo-instruction is none of the three of R106 that are one word -/
  | notPseudoInstruction
  deriving DecidableEq, Repr

end Sys2Proof
end

