-- ==== Sys2Proof/WellFormed.lean ====
section
/-! DEFINITION. Which instruction terms stand for a row of spec/opcode_table.json. -/

namespace Sys2Proof

/-- The three wire command codes the FCD gives a meaning to (R114). -/
def namedWireCodes : List Byte := [0xEE, 0xEC, 0xEB]

/-- `illegalOpHigh` stands for OP 0x8 to 0xF only, and `wireOther` for a code that no other row names; every other
term is well formed. -/
def Instr.wf : Instr → Bool
  | .send => true
  | .inventory => true
  | .read => true
  | .write => true
  | .encode => true
  | .decode => true
  | .illegalOp0 => true
  | .illegalOp7 => true
  | .illegalOpHigh op => decide (8 ≤ op.toNat)
  | .ctrlNostart => true
  | .rd _ => true
  | .wr _ _ => true
  | .go _ => true
  | .wait => true
  | .clr => true
  | .wireInventory => true
  | .wireRead => true
  | .wireWrite => true
  | .wireOther cmd => decide (cmd ∉ namedWireCodes)

end Sys2Proof
end

