-- ==== Sys2Proof/Decode.lean ====
section
/-! DEFINITION. The decoder, total on any bytes and rejecting by name, and after it the encoder, both from the
encoding tables of 30_encoding.md (R100, R104, R106, R114). -/

namespace Sys2Proof

/-! ### Decoding -/

/-- The operation a CTRL byte with START = 1 requests, from its OP field (R100, R102). -/
def decodeOp (op : BitVec 4) : Instr :=
  if op = 0x1 then .send
  else if op = 0x2 then .inventory
  else if op = 0x3 then .read
  else if op = 0x4 then .write
  else if op = 0x5 then .encode
  else if op = 0x6 then .decode
  else if op = 0x0 then .illegalOp0
  else if op = 0x7 then .illegalOp7
  else .illegalOpHigh op

/-- START, bit 7 of a CTRL byte (R31). -/
def ctrlStart (v : Byte) : Bool := v.getLsbD 7

/-- OP, bits 3 to 0 of a CTRL byte (R31). -/
def ctrlOpField (v : Byte) : BitVec 4 := v.extractLsb' 0 4

/-- A CTRL byte: bits 6 to 4 are ignored, and with START = 0 the whole byte does nothing (R31, R100). -/
def decodeCtrl (v : Byte) : Instr :=
  if ctrlStart v then decodeOp (ctrlOpField v) else .ctrlNostart

/-- The three bytes of a host transaction word as one number, first byte lowest. -/
def wordOfBytes (b0 b1 b2 : Byte) : BitVec 24 := b2 ++ (b1 ++ b0)

/-- A host transaction word: W = bit 20, A = bits 19 to 8, D = bits 7 to 0; D is ignored for RD (R104). -/
def decodeHtw (w : BitVec 24) : Except DecodeError Instr :=
  if w.extractLsb' 21 3 ≠ 0 then .error .notTransactionWord
  else if w.getLsbD 20 then .ok (.wr (w.extractLsb' 8 12) (w.extractLsb' 0 8))
  else .ok (.rd (w.extractLsb' 8 12))

/-- `GO`: WR of a byte with START = 1 to CTRL (mask 0x1FFF80). -/
def isGo (w : BitVec 24) : Bool := w.extractLsb' 7 17 == 0x2001

/-- `WAIT`: RD of STATUS (mask 0x1FFF00). -/
def isWait (w : BitVec 24) : Bool := w.extractLsb' 8 16 == 0x0001

/-- `CLR`: WR of 0x06 to STATUS (mask 0x1FFFFF). -/
def isClr (w : BitVec 24) : Bool := w == 0x100106

/-- The word of a pseudo-instruction (R106). FILL and SETLEN expand to several WR words and are no word of their own. -/
def decodePseudo (w : BitVec 24) : Except DecodeError Instr :=
  if isGo w then .ok (.go (w.extractLsb' 0 4))
  else if isWait w then .ok .wait
  else if isClr w then .ok .clr
  else .error .notPseudoInstruction

/-- The command code byte of a request frame; every code is legal (R103, R114). -/
def decodeWire (c : Byte) : Instr :=
  if c = 0xEE then .wireInventory
  else if c = 0xEC then .wireRead
  else if c = 0xEB then .wireWrite
  else .wireOther c

/-- The decoder. -/
def decode (sl : Slot) : Except DecodeError Instr :=
  match sl.fmt, sl.bytes with
  | .ctrl8, [b] => .ok (decodeCtrl b)
  | .wireFrame, [b] => .ok (decodeWire b)
  | .htw21, [b0, b1, b2] => decodeHtw (wordOfBytes b0 b1 b2)
  | .pseudo, [b0, b1, b2] => decodePseudo (wordOfBytes b0 b1 b2)
  | _, _ => .error .wrongLength

/-! ### The table's words -/

/-- The three bytes of a 24-bit word, lowest first. -/
def bytesOfWord (w : BitVec 24) : List Byte :=
  [w.extractLsb' 0 8, w.extractLsb' 8 8, w.extractLsb' 16 8]

/-- The format under which a bare word of spec/opcode_table.json is read (assumptions/4). The table has two one-byte
formats and gives two names to some transaction words, and a bare word does not say which is meant: a byte that R114
names is read as a wire command code and every other byte as a CTRL byte; a word that R106 names is read as that
pseudo-instruction and every other word as a plain transaction. -/
def tableSlot (nbits w : Nat) : Slot :=
  if nbits ≤ 8 then
    let b := BitVec.ofNat 8 w
    if b ∈ namedWireCodes then ⟨.wireFrame, [b]⟩ else ⟨.ctrl8, [b]⟩
  else
    let v := BitVec.ofNat 24 w
    if isGo v || isWait v || isClr v then ⟨.pseudo, bytesOfWord v⟩ else ⟨.htw21, bytesOfWord v⟩

/-- What the decoder reads from a word of spec/opcode_table.json, numbered as the table numbers it. -/
def decodeTableWord (nbits w : Nat) : Option Instr :=
  match decode (tableSlot nbits w) with
  | .ok i => some i
  | .error _ => none

/-! ### Encoding -/

/-- A CTRL byte with START = 1, bits 6 to 4 written 0 (R100). -/
def ctrlByte (op : BitVec 4) : Byte := 0x8#4 ++ op

/-- A host transaction word (R104), in a container of three bytes. -/
def htwWord (w : Bool) (a : HostAddr) (d : Byte) : BitVec 24 :=
  (0#3 ++ BitVec.ofBool w) ++ (a ++ d)

/-- The encoder, with every ignored bit written 0. -/
def encode : Instr → Slot
  | .send => ⟨.ctrl8, [ctrlByte 0x1]⟩
  | .inventory => ⟨.ctrl8, [ctrlByte 0x2]⟩
  | .read => ⟨.ctrl8, [ctrlByte 0x3]⟩
  | .write => ⟨.ctrl8, [ctrlByte 0x4]⟩
  | .encode => ⟨.ctrl8, [ctrlByte 0x5]⟩
  | .decode => ⟨.ctrl8, [ctrlByte 0x6]⟩
  | .illegalOp0 => ⟨.ctrl8, [ctrlByte 0x0]⟩
  | .illegalOp7 => ⟨.ctrl8, [ctrlByte 0x7]⟩
  | .illegalOpHigh op => ⟨.ctrl8, [ctrlByte op]⟩
  | .ctrlNostart => ⟨.ctrl8, [0x00]⟩
  | .rd a => ⟨.htw21, bytesOfWord (htwWord false a 0x00)⟩
  | .wr a d => ⟨.htw21, bytesOfWord (htwWord true a d)⟩
  | .go op => ⟨.pseudo, bytesOfWord (htwWord true 0x000 (ctrlByte op))⟩
  | .wait => ⟨.pseudo, bytesOfWord (htwWord false 0x001 0x00)⟩
  | .clr => ⟨.pseudo, bytesOfWord (htwWord true 0x001 0x06)⟩
  | .wireInventory => ⟨.wireFrame, [0xEE]⟩
  | .wireRead => ⟨.wireFrame, [0xEC]⟩
  | .wireWrite => ⟨.wireFrame, [0xEB]⟩
  | .wireOther cmd => ⟨.wireFrame, [cmd]⟩

end Sys2Proof
end

