-- ==== Sys2Proof/Config.lean ====
section
/-! DEFINITION. What an implementation of the FCD fixes (the OPEN parameters of R8) and the free values the spec
leaves open (R57, R76). The parameters stand in the state as data that no step changes, so a statement about every
state holds for every choice of them; the free values are constants with no body. -/

namespace Sys2Proof

/-- The nineteen error categories of R172, in the order of the catalog. -/
inductive Category where
  | commandSuccess
  | antennaConnectionFailure
  | noTagDetected
  | illegalTag
  | inadequatePower
  | writeProtectedArea
  | checksumError
  | parameterError
  | nonexistentDataArea
  | wrongPassword
  | killPasswordIsZero
  | illegalInAutoMode
  | unmatchedPassword
  | rfInterference
  | readProtectedTag
  | invalidCommand
  | unknownCommand
  | other
  | unrecognizedError
  deriving DecidableEq, Repr

/-- The OPEN parameters of R8 that a rule depends on (assumptions/1). The two payload limits are bounded by what the
one-byte length field can carry (R111), so that every frame the encoder builds has a length byte; `catalog` lists
code and category pairs, and Machine/Catalog.lean reads it under the laws of R176. -/
structure Params where
  /-- MAX_PAYLOAD_UNADDR, at most 253 -/
  maxPayloadUnaddr : Fin 254
  /-- MAX_PAYLOAD_ADDR, at most 252 -/
  maxPayloadAddr : Fin 253
  /-- ERR_CATALOG -/
  catalog : List (Byte × Category)
  deriving DecidableEq, Repr

/-- The contents of a buffer byte that nothing has written since the reset numbered `epoch`: one draw for each host
address, fixed at that reset (R57, D50; assumptions/2). Nothing constrains it. -/
opaque Config.resetDraw : (epoch : Nat) → (address : Nat) → BitVec 8

/-- The byte that the `n`-th host read of an engine output during an operation returns (R76, D9; assumptions/3).
Nothing constrains it. -/
opaque Config.busyDraw : (n : Nat) → BitVec 8

end Sys2Proof
end

