-- ==== Sys2Proof/Machine/Catalog.lean ====
section
/-! DEFINITION. The error catalog of 41_error_catalog.md: the categories' bytes, the default catalog, and the lookup
under the laws that hold of every catalog (R170 to R176). -/

namespace Sys2Proof.Machine

/-- The byte of a category in ERR_CAT (R172). -/
def categoryByte : Category → Byte
  | .commandSuccess => 0x00
  | .antennaConnectionFailure => 0x01
  | .noTagDetected => 0x02
  | .illegalTag => 0x03
  | .inadequatePower => 0x04
  | .writeProtectedArea => 0x05
  | .checksumError => 0x06
  | .parameterError => 0x07
  | .nonexistentDataArea => 0x08
  | .wrongPassword => 0x09
  | .killPasswordIsZero => 0x0A
  | .illegalInAutoMode => 0x0B
  | .unmatchedPassword => 0x0C
  | .rfInterference => 0x0D
  | .readProtectedTag => 0x0E
  | .invalidCommand => 0x0F
  | .unknownCommand => 0x10
  | .other => 0x11
  | .unrecognizedError => 0xFF

/-- The default catalog: a code is its category's position in the source's list (R171, D19). -/
def defaultCatalog : List (Byte × Category) :=
  [.commandSuccess, .antennaConnectionFailure, .noTagDetected, .illegalTag, .inadequatePower, .writeProtectedArea,
    .checksumError, .parameterError, .nonexistentDataArea, .wrongPassword, .killPasswordIsZero, .illegalInAutoMode,
    .unmatchedPassword, .rfInterference, .readProtectedTag, .invalidCommand, .unknownCommand, .other].map
    fun c => (categoryByte c, c)

/-- The default parameters of R8 (D11, D19). -/
def defaultParams : Params := ⟨252, 251, defaultCatalog⟩

/-- The first category a list of pairs gives a code. -/
def catalogFind : List (Byte × Category) → Byte → Option Category
  | [], _ => none
  | (k, c) :: rest, code => if k = code then some c else catalogFind rest code

/-- ERR_CATALOG: total, with codes 0x02 and 0x09 fixed by the source and every code the list does not name
"unrecognized error" (R170, R171, R176). -/
def errCatalog (p : Params) (code : Byte) : Category :=
  if code = 0x02 then .noTagDetected
  else if code = 0x09 then .wrongPassword
  else (catalogFind p.catalog code).getD .unrecognizedError

end Sys2Proof.Machine
end

