-- ==== Sys2Proof/Machine/Map.lean ====
section
/-! DEFINITION. The host address map: the registers of R30 and the buffers of R48 and R49 at the addresses of R70. -/

namespace Sys2Proof.Machine

/-- The nine buffers (R48, R49). -/
inductive Buf where
  | payload
  | tid
  | data
  | pw
  | resp
  | frame
  | tagOff
  | tagWords
  | rxf
  deriving DecidableEq, Repr

/-- The buffers in the order of their addresses. -/
def allBufs : List Buf := [.payload, .tid, .data, .pw, .resp, .frame, .tagOff, .tagWords, .rxf]

/-- The host address of a buffer's byte 0 (R70). -/
def bufBase : Buf → Nat
  | .payload => 0x100
  | .tid => 0x200
  | .data => 0x300
  | .pw => 0x400
  | .resp => 0x500
  | .frame => 0x600
  | .tagOff => 0x800
  | .tagWords => 0x900
  | .rxf => 0xA00

/-- How many bytes a buffer has (R8, R70). -/
def bufSize : Buf → Nat
  | .payload => 256
  | .tid => 256
  | .data => 256
  | .pw => 4
  | .resp => 256
  | .frame => 257
  | .tagOff => 256
  | .tagWords => 256
  | .rxf => 257

/-- Whether a host WR reaches a buffer (the access column of R70). -/
def bufHostWritable : Buf → Bool
  | .payload => true
  | .tid => true
  | .data => true
  | .pw => true
  | .resp => false
  | .frame => true
  | .tagOff => false
  | .tagWords => false
  | .rxf => false

/-- Whether a host RD of a buffer during an operation returns an unspecified byte (R76): the engine's buffers. -/
def bufFreeWhileBusy : Buf → Bool
  | .payload => false
  | .tid => false
  | .data => false
  | .pw => false
  | .resp => true
  | .frame => true
  | .tagOff => true
  | .tagWords => true
  | .rxf => true

/-- The host registers (R30). -/
inductive Reg where
  | ctrl
  | status
  | result
  | cmdCode
  | addr
  | boot
  | payloadLen
  | tidLen
  | dataLen
  | pwLen
  | bank
  | startWord
  | wordCount
  | inten
  | frameLenLo
  | frameLenHi
  | respBoot
  | respLfield
  | respCmd
  | respAddr
  | respPlen
  | respCsum
  | calcCsum
  | flags
  | errCode
  | errCat
  | tagCount
  | rxfCountLo
  | rxfCountHi
  | txCountLo
  | txCountHi
  deriving DecidableEq, Repr

/-- The registers in the order of their addresses, CTRL at 0x000 and TX_COUNT_HI at 0x01E (R30). -/
def allRegs : List Reg :=
  [.ctrl, .status, .result, .cmdCode, .addr, .boot, .payloadLen, .tidLen, .dataLen, .pwLen, .bank, .startWord,
    .wordCount, .inten, .frameLenLo, .frameLenHi] ++
  [.respBoot, .respLfield, .respCmd, .respAddr, .respPlen, .respCsum, .calcCsum, .flags, .errCode, .errCat,
    .tagCount, .rxfCountLo, .rxfCountHi, .txCountLo, .txCountHi]

/-- Whether a host RD of a register during an operation returns an unspecified byte (R76): the engine-written
registers but STATUS, CTRL, TX_COUNT and RXF_COUNT. -/
def regFreeWhileBusy : Reg → Bool
  | .ctrl | .status | .cmdCode | .addr | .boot | .payloadLen | .tidLen | .dataLen | .pwLen | .bank | .startWord => false
  | .wordCount | .inten | .rxfCountLo | .rxfCountHi | .txCountLo | .txCountHi => false
  | .result | .frameLenLo | .frameLenHi | .respBoot | .respLfield | .respCmd | .respAddr | .respPlen | .respCsum => true
  | .calcCsum | .flags | .errCode | .errCat | .tagCount => true

/-- What stands at a host address. -/
inductive Loc where
  | reg (r : Reg)
  | buf (b : Buf) (i : Nat)
  /-- reads 0, ignores writes (R71) -/
  | reserved
  deriving DecidableEq, Repr

/-- The buffer byte at a host address, among the buffers listed. -/
def locateBuf : List Buf → Nat → Loc
  | [], _ => .reserved
  | b :: rest, a => if bufBase b ≤ a ∧ a < bufBase b + bufSize b then .buf b (a - bufBase b) else locateBuf rest a

/-- Host address decoding (R70). -/
def locate (a : Nat) : Loc :=
  match allRegs[a]? with
  | some r => .reg r
  | none => locateBuf allBufs a

/-- Whether a host address is a buffer byte's. -/
def isBufAddr (a : Nat) : Bool :=
  match locate a with
  | .buf _ _ => true
  | .reg _ => false
  | .reserved => false

end Sys2Proof.Machine
end

