-- ==== Sys2Proof/Machine/State.lean ====
section
/-! DEFINITION. The state: the FCD itself (10_state.md) and the other two agents of R6, the host with its program and
the transport with the bytes it holds, as data; what may stop a step; and the state after reset (R56, R57). -/

namespace Sys2Proof.Machine

/-- The engine phase (R50). -/
inductive Phase where
  | idle
  | check
  | tx
  | rx
  | commit
  deriving DecidableEq, Repr

/-- RESULT.CODE (R120); codes 0xC to 0xF are never produced. -/
inductive ResultCode where
  | none
  | ok
  | empty
  | deviceError
  | checksumMismatch
  | truncatedFrame
  | transportError
  | invalidPayloadSize
  | invalidPassword
  | malformedFrame
  | malformedInventory
  | illegalOp
  deriving DecidableEq, Repr

/-- The FCD: its host registers (R30 to R47), its buffers, its phase (R50), its parameters (R8), and the number of
resets it has had, which says which draw its unwritten buffer bytes hold (R57). Each field of a register that has
reserved bits is held by itself, because a reserved bit always reads 0 (R71); Machine/Flags.lean composes the bytes. -/
structure Fcd where
  /-- CTRL.OP, the operation latched at accept (R31, R51) -/
  ctrlOp : BitVec 4
  /-- STATUS.BUSY (R32) -/
  busy : Bool
  /-- STATUS.DONE (R32) -/
  done : Bool
  /-- STATUS.COLLIDE (R32) -/
  collide : Bool
  /-- RESULT.CODE (R33) -/
  result : ResultCode
  /-- CMD_CODE (R34) -/
  cmdCode : Byte
  /-- ADDR (R35) -/
  addr : Byte
  /-- BOOT (R36) -/
  boot : Byte
  /-- PAYLOAD_LEN (R37) -/
  payloadLen : Byte
  /-- TID_LEN (R38) -/
  tidLen : Byte
  /-- DATA_LEN (R38) -/
  dataLen : Byte
  /-- PW_LEN (R38) -/
  pwLen : Byte
  /-- BANK (R39) -/
  bank : Byte
  /-- START_WORD (R39) -/
  startWord : Byte
  /-- WORD_COUNT (R39) -/
  wordCount : Byte
  /-- INTEN.IE (R40) -/
  ie : Bool
  /-- FRAME_LEN, 9 bits (R41) -/
  frameLen : Count
  /-- RESP_BOOT (R42) -/
  respBoot : Byte
  /-- RESP_LFIELD (R42) -/
  respLfield : Byte
  /-- RESP_CMD (R42) -/
  respCmd : Byte
  /-- RESP_ADDR (R42) -/
  respAddr : Byte
  /-- RESP_PLEN (R42) -/
  respPlen : Byte
  /-- RESP_CSUM (R43) -/
  respCsum : Byte
  /-- CALC_CSUM (R43) -/
  calcCsum : Byte
  /-- FLAGS.ADDRESSED (R44) -/
  addressed : Bool
  /-- FLAGS.WRITE_OK (R44) -/
  writeOk : Bool
  /-- FLAGS.READ_PRESENT (R44) -/
  readPresent : Bool
  /-- FLAGS.RESP_VALID (R44) -/
  respValid : Bool
  /-- ERR_CODE (R45) -/
  errCode : Byte
  /-- ERR_CAT (R45, R172) -/
  errCat : Category
  /-- TAG_COUNT (R46) -/
  tagCount : Byte
  /-- RXF_COUNT, 9 bits (R47) -/
  rxfCount : Count
  /-- TX_COUNT, 9 bits (R47) -/
  txCount : Count
  /-- the engine phase (R50) -/
  phase : Phase
  /-- the buffer bytes written since the last reset, by host address, addresses strictly rising (R48, R49) -/
  mem : List Host.Cell
  /-- the OPEN parameters (R8) -/
  params : Params
  /-- which reset draw the unwritten buffer bytes hold (R57) -/
  epoch : Nat
  deriving DecidableEq, Repr

/-- The signals the transport asserts in one clock (R23). The byte on `rx_data` is the oldest one it holds. -/
structure Signals where
  /-- `xport_err` -/
  err : Bool
  /-- `tx_ready` -/
  ready : Bool
  /-- `rx_valid` -/
  valid : Bool
  /-- `rx_short` -/
  short : Bool
  deriving DecidableEq, Repr

/-- Which agent moves next, and what the outside world does in that move (R6, R81). -/
inductive Turn where
  /-- the host issues its next transaction -/
  | host
  /-- the FCD engine takes its next step -/
  | engine
  /-- a clock in which the transport asserts these signals; each signal that counts is a step of its own -/
  | transport (sig : Signals)
  /-- bytes reach the transport from the reader device -/
  | arrive (bytes : List Byte)
  /-- the host drains the transport by the transport's own means: the bytes it holds are gone (R297, R303) -/
  | drain
  /-- the transport is opened or closed: the level of `link_up` from now on. That the bytes it holds stay is the model's
  choice (assumptions/21); a close that loses them is this turn with a `drain` -/
  | link (up : Bool)
  /-- one clock with `rst` = 1 -/
  | reset
  deriving DecidableEq, Repr

/-- One line of the host's program. -/
inductive HostItem where
  /-- an encoded host instruction: a CTRL byte, a transaction word or a pseudo-instruction -/
  | word (slot : Slot)
  /-- a bus clock with `hb_we` and `hb_re` both 1 (R21) -/
  | bothStrobes (a : HostAddr) (d : Byte)
  deriving DecidableEq, Repr

/-- The machine: the FCD, the host bus and the host's program, the transport, and whose turn it is. -/
structure State where
  /-- the FCD -/
  fcd : Fcd
  /-- `hb_rdata`: the byte the last RD returned (R21) -/
  hbRdata : Byte
  /-- how many unspecified bytes the host has read, the index of the next draw (R76) -/
  draws : Nat
  /-- what the host still has to issue, in order (R81) -/
  program : List HostItem
  /-- whose turn it is, in order; when it is empty Machine/Engine.lean says who moves (R81) -/
  turns : List Turn
  /-- `link_up` (R23) -/
  linkUp : Bool
  /-- the response bytes the transport holds and the FCD has not taken, oldest first (R55) -/
  held : List Byte
  /-- the request byte stream: every byte the transport has accepted, oldest first (R72, R290) -/
  sent : List Byte
  deriving DecidableEq, Repr

/-- What stops the machine. The spec's machine never stops (a host access never faults, R71, and an operation's
failure is a result code, R261), so each of these is raised only in a state that no run from reset reaches, where the
spec gives no step; Machine/Engine.lean and Machine/Transport.lean raise them. All are safe: the model stops. -/
inductive Fault where
  /-- phase COMMIT with an OP that is no dispatch operation: R190 has no case for it; safe -/
  | commitWithoutDispatch
  /-- phase TX with TX_COUNT beyond FRAME_BUF: R184 offers no byte there; safe -/
  | frameIndexOutOfRange
  /-- phase RX with RXF_COUNT beyond RXF_BUF: R186 says every index is inside it; safe -/
  | rxfIndexOutOfRange
  deriving DecidableEq, Repr

/-- What a step turns away. -/
inductive Refusal where
  /-- raised by exec alone, for an instruction with no meaning; safe -/
  | notModelled (mnemonic : String)
  /-- raised by step when a word of the host's program is no instruction; safe -/
  | undecodable (e : DecodeError)
  /-- raised by step when the host's program holds a wire command code, which never stands on the host bus; safe -/
  | wireCodeOnHostBus
  /-- raised by step for `hb_we` and `hb_re` both 1: "a model refuses it" (R21); safe -/
  | bothStrobes
  deriving DecidableEq, Repr

/-- The outcome of a step of this machine. -/
abbrev Out := Host.Outcome State Fault Refusal

/-- The FCD after reset (R30, R56, R57): registers 0 but BOOT = 0x40, phase IDLE, and every buffer byte at the draw
numbered `epoch`. -/
def Fcd.reset (params : Params) (epoch : Nat) : Fcd where
  ctrlOp := 0
  busy := false
  done := false
  collide := false
  result := .none
  cmdCode := 0
  addr := 0
  boot := 0x40
  payloadLen := 0
  tidLen := 0
  dataLen := 0
  pwLen := 0
  bank := 0
  startWord := 0
  wordCount := 0
  ie := false
  frameLen := 0
  respBoot := 0
  respLfield := 0
  respCmd := 0
  respAddr := 0
  respPlen := 0
  respCsum := 0
  calcCsum := 0
  addressed := false
  writeOk := false
  readPresent := false
  respValid := false
  errCode := 0
  errCat := .commandSuccess
  tagCount := 0
  rxfCount := 0
  txCount := 0
  phase := .idle
  mem := []
  params := params
  epoch := epoch

/-- The machine right after reset, with the default parameters, no host program, the transport open and holding
nothing (assumptions/6 names what R56 does not give). -/
def State.reset : State where
  fcd := Fcd.reset defaultParams 0
  hbRdata := 0
  draws := 0
  program := []
  turns := []
  linkUp := true
  held := []
  sent := []

end Sys2Proof.Machine
end

