-- ==== Sys2Proof/Machine/Flags.lean ====
section
/-! DEFINITION. The registers made of fields, as the bytes the host reads, and the output ports that are functions of
the state (10_state.md). Every reserved bit reads 0 (R30, R71). -/

namespace Sys2Proof.Machine

/-- CTRL as read: bit 7 is 0, bits 3 to 0 the OP of the last accepted operation (R31). -/
def ctrlRead (f : Fcd) : Byte := 0#4 ++ f.ctrlOp

/-- STATUS: COLLIDE is bit 2, DONE bit 1, BUSY bit 0 (R32). -/
def statusByte (f : Fcd) : Byte := BitVec.ofNat 8 (4 * f.collide.toNat + 2 * f.done.toNat + f.busy.toNat)

/-- FLAGS: ADDRESSED is bit 3, WRITE_OK bit 2, READ_PRESENT bit 1, RESP_VALID bit 0 (R44). -/
def flagsByte (f : Fcd) : Byte :=
  BitVec.ofNat 8 (8 * f.addressed.toNat + 4 * f.writeOk.toNat + 2 * f.readPresent.toNat + f.respValid.toNat)

/-- INTEN: IE is bit 0 (R40). -/
def intenByte (f : Fcd) : Byte := BitVec.ofNat 8 f.ie.toNat

/-- The encoding of a result code (R120). -/
def resultByte : ResultCode → Byte
  | .none => 0x0
  | .ok => 0x1
  | .empty => 0x2
  | .deviceError => 0x3
  | .checksumMismatch => 0x4
  | .truncatedFrame => 0x5
  | .transportError => 0x6
  | .invalidPayloadSize => 0x7
  | .invalidPassword => 0x8
  | .malformedFrame => 0x9
  | .malformedInventory => 0xA
  | .illegalOp => 0xB

/-- Bits 7 to 0 of a 9-bit counter, at the lower host address (R78). -/
def countLo (c : Count) : Byte := c.extractLsb' 0 8

/-- Bit 8 of a 9-bit counter, in bit 0 of the byte at the higher host address (R78). -/
def countHi (c : Count) : Byte := 0#7 ++ c.extractLsb' 8 1

/-- A 9-bit counter with bits 7 to 0 replaced (R74, R78). -/
def setCountLo (c : Count) (v : Byte) : Count := c.extractLsb' 8 1 ++ v

/-- A 9-bit counter with bit 8 replaced by bit 0 of the byte; its other bits are reserved (R74, R78). -/
def setCountHi (c : Count) (v : Byte) : Count := v.extractLsb' 0 1 ++ c.extractLsb' 0 8

/-- The interrupt output (R22, R275). -/
def irq (f : Fcd) : Bool := f.done && f.ie

/-- `tx_valid`: 1 exactly in phase TX (R24). -/
def txValid (f : Fcd) : Bool := f.phase == .tx

/-- `rx_ready`: 1 exactly in phase RX (R24). -/
def rxReady (f : Fcd) : Bool := f.phase == .rx

end Sys2Proof.Machine
end

