-- ==== Sys2Proof/Machine/Ops.lean ====
section
/-! DEFINITION. The shared operations: the buffer memory, the accept of an operation (R180), the end of one with its
result, which is the FCD's only form of exception (R262, R270), and a host access to a location (R74 to R76). -/

namespace Sys2Proof.Machine

/-! ### The buffer memory -/

/-- The byte written at an address, if one has been (R57). -/
def memGet : List Host.Cell → Nat → Option Byte
  | [], _ => none
  | c :: rest, a => if c.1 = a then some c.2 else memGet rest a

/-- Writes a byte, keeping the addresses strictly rising. -/
def memSet : List Host.Cell → Nat → Byte → List Host.Cell
  | [], a, v => [(a, v)]
  | c :: rest, a, v =>
    if a < c.1 then (a, v) :: c :: rest
    else if a = c.1 then (a, v) :: rest
    else c :: memSet rest a v

/-- Every address of the list lies above `lo`, and each above the one before it. -/
def memRising : Nat → List Host.Cell → Bool
  | _, [] => true
  | lo, c :: rest => decide (lo < c.1) && memRising c.1 rest

/-- The one canonical form of the buffer memory: addresses strictly rising, each a buffer byte's (assumptions/7). An
unlisted address holds no written byte, so no entry says what an unlisted address would. -/
def memWf (m : List Host.Cell) : Bool := memRising 0 m && m.all fun c => isBufAddr c.1

/-- Byte `i` of a buffer: the byte last written there, or the draw made at reset (R57, assumptions/2). -/
def Fcd.buf (f : Fcd) (b : Buf) (i : Nat) : Byte :=
  (memGet f.mem (bufBase b + i)).getD (Config.resetDraw f.epoch (bufBase b + i))

/-- `BUF[i] <- v` (R12). No rule writes outside a buffer; such a write would have no effect. -/
def Fcd.setBuf (f : Fcd) (b : Buf) (i : Nat) (v : Byte) : Fcd :=
  if i < bufSize b then { f with mem := memSet f.mem (bufBase b + i) v } else f

/-- Writes a byte sequence to a buffer from index `i` on, in index order (R77). -/
def Fcd.setBufs (f : Fcd) (b : Buf) : Nat → List Byte → Fcd
  | _, [] => f
  | i, v :: rest => (f.setBuf b i v).setBufs b (i + 1) rest

/-- `BUF[0 .. n)` (R11). -/
def Fcd.slice (f : Fcd) (b : Buf) (n : Nat) : List Byte := (List.range n).map (f.buf b)

/-- `tx_data`: the request byte offered in phase TX (R24). -/
def Fcd.txData (f : Fcd) : Byte := f.buf .frame f.txCount.toNat

/-! ### Starting and ending an operation -/

/-- The accept of an operation while BUSY = 0 (R180): what it clears, the shape, and phase CHECK. -/
def Fcd.accept (f : Fcd) (op : BitVec 4) : Fcd :=
  { f with
    ctrlOp := op, done := false, collide := false, busy := true, result := .none, respBoot := 0, respLfield := 0,
    respCmd := 0, respAddr := 0, respPlen := 0, respCsum := 0, calcCsum := 0, errCode := 0,
    errCat := .commandSuccess, tagCount := 0, addressed := decide (f.addr ≠ 0), writeOk := false,
    readPresent := false, respValid := false, rxfCount := 0, txCount := 0, phase := .check }

/-- A start request: accepted while BUSY = 0, refused with COLLIDE while BUSY = 1 (R180). -/
def Fcd.startOp (f : Fcd) (op : BitVec 4) : Fcd :=
  if f.busy then { f with collide := true } else f.accept op

/-- `raise X`: the end-of-operation step (R262, R270). COLLIDE and every output keep their values. -/
def Fcd.endOp (f : Fcd) (x : ResultCode) : Fcd :=
  { f with result := x, busy := false, done := true, phase := .idle }

/-! ### Host accesses -/

/-- The byte a register holds, its reserved bits 0 (R30, R74). -/
def Fcd.readReg (f : Fcd) : Reg → Byte
  | .ctrl => ctrlRead f
  | .status => statusByte f
  | .result => resultByte f.result
  | .cmdCode => f.cmdCode
  | .addr => f.addr
  | .boot => f.boot
  | .payloadLen => f.payloadLen
  | .tidLen => f.tidLen
  | .dataLen => f.dataLen
  | .pwLen => f.pwLen
  | .bank => f.bank
  | .startWord => f.startWord
  | .wordCount => f.wordCount
  | .inten => intenByte f
  | .frameLenLo => countLo f.frameLen
  | .frameLenHi => countHi f.frameLen
  | .respBoot => f.respBoot
  | .respLfield => f.respLfield
  | .respCmd => f.respCmd
  | .respAddr => f.respAddr
  | .respPlen => f.respPlen
  | .respCsum => f.respCsum
  | .calcCsum => f.calcCsum
  | .flags => flagsByte f
  | .errCode => f.errCode
  | .errCat => categoryByte f.errCat
  | .tagCount => f.tagCount
  | .rxfCountLo => countLo f.rxfCount
  | .rxfCountHi => countHi f.rxfCount
  | .txCountLo => countLo f.txCount
  | .txCountHi => countHi f.txCount

/-- The current byte at a location (R71, R74). -/
def Fcd.readLoc (f : Fcd) : Loc → Byte
  | .reg r => f.readReg r
  | .buf b i => f.buf b i
  | .reserved => 0

/-- Whether a host RD of a location returns an unspecified byte now (R76). -/
def Fcd.readIsFree (f : Fcd) : Loc → Bool
  | .reg r => f.busy && regFreeWhileBusy r
  | .buf b _ => f.busy && bufFreeWhileBusy b
  | .reserved => false

/-- A host WR to CTRL (R31). -/
def Fcd.writeCtrl (f : Fcd) (v : Byte) : Fcd := if ctrlStart v then f.startOp (ctrlOpField v) else f

/-- A host WR to STATUS: DONE and COLLIDE are cleared by writing 1, BUSY is read-only (R32, R74). -/
def Fcd.writeStatus (f : Fcd) (v : Byte) : Fcd :=
  { f with done := f.done && !v.getLsbD 1, collide := f.collide && !v.getLsbD 2 }

/-- A host WR to a register other than CTRL, STATUS and INTEN while BUSY = 0; read-only registers ignore it (R74). -/
def Fcd.writeReg (f : Fcd) (r : Reg) (v : Byte) : Fcd :=
  match r with
  | .cmdCode => { f with cmdCode := v }
  | .addr => { f with addr := v }
  | .boot => { f with boot := v }
  | .payloadLen => { f with payloadLen := v }
  | .tidLen => { f with tidLen := v }
  | .dataLen => { f with dataLen := v }
  | .pwLen => { f with pwLen := v }
  | .bank => { f with bank := v }
  | .startWord => { f with startWord := v }
  | .wordCount => { f with wordCount := v }
  | .frameLenLo => { f with frameLen := setCountLo f.frameLen v }
  | .frameLenHi => { f with frameLen := setCountHi f.frameLen v }
  | .ctrl | .status | .result | .inten | .respBoot | .respLfield | .respCmd | .respAddr | .respPlen => f
  | .respCsum | .calcCsum | .flags | .errCode | .errCat | .tagCount => f
  | .rxfCountLo | .rxfCountHi | .txCountLo | .txCountHi => f

/-- A host WR to any other location while BUSY = 0 (R71, R74). -/
def Fcd.writeIdle (f : Fcd) (l : Loc) (v : Byte) : Fcd :=
  match l with
  | .reg r => f.writeReg r v
  | .buf b i => if bufHostWritable b then f.setBuf b i v else f
  | .reserved => f

/-- A host WR: CTRL, STATUS and INTEN take effect always, everything else only while BUSY = 0 (R74, R75). -/
def Fcd.writeLoc (f : Fcd) (l : Loc) (v : Byte) : Fcd :=
  match l with
  | .reg .ctrl => f.writeCtrl v
  | .reg .status => f.writeStatus v
  | .reg .inten => { f with ie := v.getLsbD 0 }
  | l => if f.busy then f else f.writeIdle l v

/-- The host's transaction is done: its program goes on with the next line (R81). -/
def State.retire (s : State) : State := { s with program := s.program.tail }

/-- A host RD: the byte on `hb_rdata`, and a new draw where R76 leaves it unspecified. -/
def State.readAt (s : State) (l : Loc) : State :=
  if s.fcd.readIsFree l then { s with hbRdata := Config.busyDraw s.draws, draws := s.draws + 1 }
  else { s with hbRdata := s.fcd.readLoc l }

/-- A host WR. -/
def State.writeAt (s : State) (l : Loc) (v : Byte) : State := { s with fcd := s.fcd.writeLoc l v }

/-- A host WR to CTRL that starts an operation (R180). -/
def State.start (s : State) (op : BitVec 4) : State := { s with fcd := s.fcd.startOp op }

/-- One clock with `rst` = 1: the FCD's reset state with new draws for its buffers; an operation in progress is
abandoned, and neither the transport nor the bytes it holds or has accepted change (R56, R57, R290). -/
def State.resetFcd (s : State) : State :=
  { s with fcd := Fcd.reset s.fcd.params (s.fcd.epoch + 1) }

end Sys2Proof.Machine
end

