-- ==== Sys2Proof/Machine/Bus.lean ====
section
/-! DEFINITION. The meanings of the host bus transactions RD and WR (R74 to R76) and of the pseudo-instructions that
expand to one of them (R106). -/

namespace Sys2Proof.Machine

/-- RD (R74, R76). -/
def execRd (a : HostAddr) (s : State) : Out := .next (s.readAt (locate a.toNat)).retire

/-- WR (R74, R75). -/
def execWr (a : HostAddr) (d : Byte) (s : State) : Out := .next (s.writeAt (locate a.toNat) d).retire

/-- GO: `WR CTRL, 0x80 | OP` (R106). -/
def execGo (op : BitVec 4) (s : State) : Out := .next (s.writeAt (.reg .ctrl) (ctrlByte op)).retire

/-- WAIT: one `RD STATUS` of the loop; the host stays on this line until the byte returned has DONE = 1 (R106). -/
def execWait (s : State) : Out :=
  let t := s.readAt (.reg .status)
  .next (if t.hbRdata.getLsbD 1 then t.retire else t)

/-- FILL: one WR for each byte, from the buffer's byte 0 on (R106); it is no word of its own. -/
def fillLines (b : Buf) (bytes : List Byte) : List Instr :=
  bytes.zipIdx.map fun p => .wr (BitVec.ofNat 12 (bufBase b + p.2)) p.1

/-- SETLEN: FRAME_LEN_LO, then FRAME_LEN_HI (R106); it is no word of its own. -/
def setLenLines (n : Nat) : List Instr := [.wr 0x00E (BitVec.ofNat 8 (n % 256)), .wr 0x00F (BitVec.ofNat 8 (n / 256))]

/-- CLR: `WR STATUS, 0x06` (R106). -/
def execClr (s : State) : Out := .next (s.writeAt (.reg .status) 0x06).retire

end Sys2Proof.Machine
end

