-- ==== Sys2Proof/Machine/Ctrl.lean ====
section
/-! DEFINITION. The meanings of the CTRL bytes (R31, R100, R180): the host writes the byte to CTRL. A byte with START = 1
starts its operation, whose later steps are the engine's (Machine/Engine.lean) and the transport's
(Machine/Transport.lean); R315 counts them. -/

namespace Sys2Proof.Machine

/-- SEND (R196): a start request with OP 0x1. -/
def execSend (s : State) : Out := .next (s.start 0x1).retire

/-- INVENTORY (R210): a start request with OP 0x2. -/
def execInventory (s : State) : Out := .next (s.start 0x2).retire

/-- READ (R240): a start request with OP 0x3. -/
def execRead (s : State) : Out := .next (s.start 0x3).retire

/-- WRITE (R245): a start request with OP 0x4. -/
def execWrite (s : State) : Out := .next (s.start 0x4).retire

/-- ENCODE (R155): a start request with OP 0x5. -/
def execEncode (s : State) : Out := .next (s.start 0x5).retire

/-- DECODE (R156): a start request with OP 0x6. -/
def execDecode (s : State) : Out := .next (s.start 0x6).retire

/-- Reserved OP 0x0: accepted like any other, and ended ILLEGAL_OP by its CHECK step (R31, R264). -/
def execIllegalOp0 (s : State) : Out := .next (s.start 0x0).retire

/-- Reserved OP 0x7 (R31, R264). -/
def execIllegalOp7 (s : State) : Out := .next (s.start 0x7).retire

/-- Reserved OP 0x8 to 0xF (R31, R264). -/
def execIllegalOpHigh (op : BitVec 4) (s : State) : Out := .next (s.start op).retire

/-- A CTRL byte with START = 0 changes nothing (R31). -/
def execCtrlNostart (s : State) : Out := .next s.retire

end Sys2Proof.Machine
end

