-- ==== Sys2Proof/Machine/Codec.lean ====
section
/-! DEFINITION. The frame codec of 40_frame_codec.md: checksum, encoder, decoder, and the write-back of a decode. -/

namespace Sys2Proof.Machine

/-- `sum8`: the sum of the bytes modulo 256 (R11). -/
def sum8 (s : List Byte) : Byte := BitVec.ofNat 8 (s.map BitVec.toNat).sum

/-- `neg8(x) = (256 - x) mod 256` (R11). -/
def neg8 (x : Byte) : Byte := BitVec.ofNat 8 (256 - x.toNat)

/-- The checksum (R140). -/
def csum8 (s : List Byte) : Byte := neg8 (sum8 s)

/-- The number of body bytes before the payload: 2 in an addressed frame, 1 in an unaddressed one (R110). -/
def headerBytes (addressed : Bool) : Nat := if addressed then 2 else 1

/-- The largest request payload of a shape (R8, R143). -/
def payloadLimit (p : Params) (addressed : Bool) : Nat :=
  if addressed then p.maxPayloadAddr.val else p.maxPayloadUnaddr.val

/-- A frame before its checksum: boot code, length field `h + 1 + p`, command code, address if addressed, payload
(R110, R111). -/
def frameBody (boot cmd : Byte) (addressed : Bool) (addr : Byte) (payload : List Byte) : List Byte :=
  [boot, BitVec.ofNat 8 (headerBytes addressed + 1 + payload.length), cmd] ++
    ((if addressed then [addr] else []) ++ payload)

/-- `encodeFrame` (R142); `none` is InvalidSize (R143). -/
def encodeFrame (p : Params) (boot cmd : Byte) (addressed : Bool) (addr : Byte) (payload : List Byte) :
    Option (List Byte) :=
  if payload.length > payloadLimit p addressed then none
  else
    let body := frameBody boot cmd addressed addr payload
    some (body ++ [csum8 body])

/-- The fields of a good frame (R145, R149). -/
structure Fields where
  boot : Byte
  lfield : Byte
  cmd : Byte
  addr : Byte
  plen : Nat
  payload : List Byte
  recvSum : Byte
  calcSum : Byte
  deriving DecidableEq, Repr

/-- The outcomes of `decodeFrame` (R145). -/
inductive Decoded where
  | truncated
  | malformed
  | mismatch (recvSum calcSum : Byte)
  | ok (f : Fields)
  deriving DecidableEq, Repr

/-- `F[i .. i + n)` (R11). -/
def sliceOf (F : Nat → Byte) (i n : Nat) : List Byte := (List.range n).map fun k => F (i + k)

/-- The split of a complete frame whose length field covers its header and checksum (R149). -/
def splitFrame (F : Nat → Byte) (addressed : Bool) : Fields :=
  let len := (F 1).toNat
  let h := headerBytes addressed
  { boot := F 0, lfield := F 1, cmd := F 2, addr := if addressed then F 3 else 0, plen := len - h - 1,
    payload := sliceOf F (2 + h) (len - h - 1), recvSum := F (len + 1), calcSum := csum8 (sliceOf F 0 (len + 1)) }

/-- `decodeFrame` (R145 to R151): `n` bytes of `F` are there, and the checks run in the order shown. -/
def decodeFrame (F : Nat → Byte) (n : Nat) (addressed : Bool) : Decoded :=
  if n < 2 then .truncated
  else if n < 2 + (F 1).toNat then .truncated
  else if (F 1).toNat < headerBytes addressed + 1 then .malformed
  else
    let f := splitFrame F addressed
    if f.calcSum ≠ f.recvSum then .mismatch f.recvSum f.calcSum else .ok f

/-- What a good decode writes (R157). -/
def Fcd.writeFields (f : Fcd) (d : Fields) : Fcd :=
  { f.setBufs .resp 0 d.payload with
    respBoot := d.boot, respLfield := d.lfield, respCmd := d.cmd, respAddr := d.addr,
    respPlen := BitVec.ofNat 8 d.plen, respCsum := d.recvSum, calcCsum := d.calcSum, respValid := true }

/-- `commitDecode` (R157): `error` is an operation that has ended, `ok` the fields and the FCD the caller goes on
with. -/
def Fcd.commitDecode (f : Fcd) : Decoded → Except Fcd (Fields × Fcd)
  | .truncated => .error (f.endOp .truncatedFrame)
  | .malformed => .error (f.endOp .malformedFrame)
  | .mismatch r c => .error ({ f with respCsum := r, calcCsum := c }.endOp .checksumMismatch)
  | .ok d => .ok (d, f.writeFields d)

end Sys2Proof.Machine
end

