-- ==== Sys2Proof/Machine/Operands.lean ====
section
/-! DEFINITION. The operands of the operations (R101): the request payload of each, the payload builders of READ and
WRITE (R234, R235), and the wire command code each places in its request (R100). -/

namespace Sys2Proof.Machine

/-- `REQ_BOOT`, the boot code of every request a dispatch operation sends (R8, R183). -/
def reqBoot : Byte := 0x40

/-- `FAIL_BOOT`, the response boot code that signals device failure (R8, R113). -/
def failBoot : Byte := 0xF4

/-- `NO_TAG_CODE` (R8, R193). -/
def noTagCode : Byte := 0x02

/-- OP of the six operations (R100). -/
def opSend : BitVec 4 := 0x1
def opInventory : BitVec 4 := 0x2
def opRead : BitVec 4 := 0x3
def opWrite : BitVec 4 := 0x4
def opEncode : BitVec 4 := 0x5
def opDecode : BitVec 4 := 0x6

/-- The shape the registers ask for: addressed iff ADDR ≠ 0 (R35). -/
def Fcd.wantsAddressed (f : Fcd) : Bool := decide (f.addr ≠ 0)

/-- `PAYLOAD_BUF[0 .. PAYLOAD_LEN)`, the request payload of SEND, INVENTORY and ENCODE (R37). -/
def Fcd.rawPayload (f : Fcd) : List Byte := f.slice .payload f.payloadLen.toNat

/-- `buildReadPayload` (R118, R234), with its checks in the order of R236. -/
def Fcd.buildReadPayload (f : Fcd) : Except ResultCode (List Byte) :=
  if f.pwLen ≠ 4 then .error .invalidPassword
  else if f.tidLen.toNat % 2 = 1 then .error .invalidPayloadSize
  else
    .ok ([BitVec.ofNat 8 (f.tidLen.toNat / 2)] ++ f.slice .tid f.tidLen.toNat ++
      [f.bank, f.startWord, f.wordCount] ++ f.slice .pw 4)

/-- `buildWritePayload` (R119, R235), with its checks in the order of R236. -/
def Fcd.buildWritePayload (f : Fcd) : Except ResultCode (List Byte) :=
  if f.pwLen ≠ 4 then .error .invalidPassword
  else if f.tidLen.toNat % 2 = 1 then .error .invalidPayloadSize
  else if f.dataLen.toNat % 2 = 1 then .error .invalidPayloadSize
  else
    .ok ([BitVec.ofNat 8 (f.tidLen.toNat / 2)] ++ f.slice .tid f.tidLen.toNat ++
      [f.bank, f.startWord, BitVec.ofNat 8 (f.dataLen.toNat / 2)] ++ f.slice .data f.dataLen.toNat ++ f.slice .pw 4)

/-- The request payload of the latched operation (R181). -/
def Fcd.opPayload (f : Fcd) : Except ResultCode (List Byte) :=
  if f.ctrlOp = opRead then f.buildReadPayload
  else if f.ctrlOp = opWrite then f.buildWritePayload
  else .ok f.rawPayload

/-- The wire command code of an operation, the fourth column of R100: CMD_CODE for SEND and ENCODE, 0xEE for
INVENTORY, 0xEC for READ, 0xEB for WRITE, and none for DECODE and a reserved OP. -/
def Fcd.opWireCode (f : Fcd) : Option Byte :=
  if f.ctrlOp = opSend then some f.cmdCode
  else if f.ctrlOp = opInventory then some 0xEE
  else if f.ctrlOp = opRead then some 0xEC
  else if f.ctrlOp = opWrite then some 0xEB
  else if f.ctrlOp = opEncode then some f.cmdCode
  else none

/-- The wire command code the engine is about to place in a request frame: that of the latched operation, in phase
CHECK only (R181). -/
def Fcd.wireCode (f : Fcd) : Option Byte := if f.phase = .check then f.opWireCode else none

end Sys2Proof.Machine
end

