-- ==== Sys2Proof/Machine/Inventory.lean ====
section
/-! DEFINITION. The inventory record parser and the success handler of INVENTORY (43_inventory.md). -/

namespace Sys2Proof.Machine

/-- The record loop of `parseInventory` (R212): `n` records still to read, the cursor at `c`, a payload of `p` bytes;
`none` is Bad (R214). A record is its identifier's offset and its length in words. -/
def parseRecords (P : Nat → Byte) (p : Nat) : (n : Nat) → (c : Nat) → Option (List (Nat × Nat))
  | 0, _ => some []
  | n + 1, c =>
    if c ≥ p then none
    else
      let w := (P c).toNat
      if c + 1 + 2 * w > p then none
      else (parseRecords P p n (c + 2 + 2 * w)).map fun recs => (c + 1, w) :: recs

/-- `parseInventory` (R212): byte 0 is numTags, and the first record starts at cursor 1. -/
def parseInventory (P : Nat → Byte) (p : Nat) : Option (List (Nat × Nat)) :=
  if p = 0 then none else parseRecords P p (P 0).toNat 1

/-- Writes the tag table from index `i` on (R213). -/
def Fcd.writeTags (f : Fcd) : (i : Nat) → List (Nat × Nat) → Fcd
  | _, [] => f
  | i, r :: rest =>
    Fcd.writeTags ((f.setBuf .tagOff i (BitVec.ofNat 8 r.1)).setBuf .tagWords i (BitVec.ofNat 8 r.2)) (i + 1) rest

/-- The success handler of INVENTORY (R213, R214). -/
def Fcd.finishInventory (f : Fcd) : Fcd :=
  match parseInventory (f.buf .resp) f.respPlen.toNat with
  | none => f.endOp .malformedInventory
  | some recs => { f.writeTags 0 recs with tagCount := BitVec.ofNat 8 recs.length }.endOp .ok

end Sys2Proof.Machine
end

