-- ==== Sys2Proof/Machine/Engine.lean ====
section
/-! DEFINITION. The engine's steps: CHECK (R181) and COMMIT (R190), and whose turn it is when nothing says so. -/

namespace Sys2Proof.Machine

/-! ### Phase CHECK -/

/-- `dispatchStart` (R181 to R183): builds the frame, samples `link_up`, and goes to phase TX. -/
def Fcd.dispatchStart (f : Fcd) (linkUp : Bool) (cmd : Byte) (payload : List Byte) : Fcd :=
  match encodeFrame f.params reqBoot cmd f.wantsAddressed f.addr payload with
  | none => f.endOp .invalidPayloadSize
  | some frame =>
    let g := { f.setBufs .frame 0 frame with frameLen := BitVec.ofNat 9 frame.length }
    if linkUp then { g with phase := .tx } else g.endOp .transportError

/-- The CHECK step of ENCODE with this command code (R155). -/
def Fcd.checkEncode (f : Fcd) (cmd : Byte) : Fcd :=
  match encodeFrame f.params f.boot cmd f.wantsAddressed f.addr f.rawPayload with
  | none => f.endOp .invalidPayloadSize
  | some frame => { f.setBufs .frame 0 frame with frameLen := BitVec.ofNat 9 frame.length }.endOp .ok

/-- The CHECK step of an operation that places a wire command code in a frame (R181): ENCODE only builds the frame, a
dispatch operation builds its payload, then the frame, and starts to send it. -/
def Fcd.checkWire (f : Fcd) (linkUp : Bool) (cmd : Byte) : Fcd :=
  if f.ctrlOp = opEncode then f.checkEncode cmd
  else
    match f.opPayload with
    | .error x => f.endOp x
    | .ok payload => f.dispatchStart linkUp cmd payload

/-- The CHECK step of DECODE (R156). -/
def Fcd.checkDecode (f : Fcd) : Fcd :=
  match f.commitDecode (decodeFrame (f.buf .frame) f.frameLen.toNat f.wantsAddressed) with
  | .error g => g
  | .ok (_, g) => g.endOp .ok

/-- The CHECK step of an operation without a wire command code: DECODE, or a reserved OP (R156, R264). -/
def Fcd.checkLocal (f : Fcd) : Fcd := if f.ctrlOp = opDecode then f.checkDecode else f.endOp .illegalOp

/-! ### Phase COMMIT -/

/-- Whether the latched operation is a consumer, for which "no tag detected" is the empty result (R193). -/
def Fcd.isConsumer (f : Fcd) : Bool := f.ctrlOp = opInventory || f.ctrlOp = opRead || f.ctrlOp = opWrite

/-- `classifyFailure` (R192, R193). -/
def Fcd.classifyFailure (f : Fcd) (d : Fields) : Fcd :=
  match d.payload with
  | [] => f.endOp .malformedFrame
  | code :: _ =>
    let g := { f with errCode := code, errCat := errCatalog f.params code }
    if f.isConsumer && code == noTagCode then g.endOp .empty else g.endOp .deviceError

/-- The success handler of READ (R242). -/
def Fcd.finishRead (f : Fcd) : Fcd := { f with readPresent := true }.endOp .ok

/-- The success handler of WRITE (R247). -/
def Fcd.finishWrite (f : Fcd) : Fcd := { f with writeOk := true }.endOp .ok

/-- The success handler of the latched operation (R190, R191); `none` when it is no dispatch operation, a case R190
does not have. -/
def Fcd.finishSuccess (f : Fcd) : Option Fcd :=
  if f.ctrlOp = opSend then some (f.endOp .ok)
  else if f.ctrlOp = opInventory then some f.finishInventory
  else if f.ctrlOp = opRead then some f.finishRead
  else if f.ctrlOp = opWrite then some f.finishWrite
  else none

/-- The COMMIT step (R190). -/
def Fcd.commitStep (f : Fcd) : Option Fcd :=
  match f.commitDecode (decodeFrame (f.buf .rxf) f.rxfCount.toNat f.addressed) with
  | .error g => some g
  | .ok (d, g) => if d.boot = failBoot then some (g.classifyFailure d) else g.finishSuccess

/-! ### The engine's turn -/

/-- An engine step in which no wire command code is placed in a frame. In IDLE, TX and RX the engine waits (R24, R50). -/
def engineStep (s : State) : Out :=
  match s.fcd.phase with
  | .check => .next { s with fcd := s.fcd.checkLocal }
  | .commit =>
    match s.fcd.commitStep with
    | some g => .next { s with fcd := g }
    | none => .fault .commitWithoutDispatch
  | .idle => .next s
  | .tx => .next s
  | .rx => .next s

/-- Who moves next. Any order is allowed (R81); when the state lists none, an engine step that is due comes first and
the host moves otherwise (assumptions/8). -/
def nextTurn (s : State) : Turn :=
  match s.turns with
  | t :: _ => t
  | [] => if s.fcd.phase = .check ∨ s.fcd.phase = .commit then .engine else .host

/-- The state with the turn taken from its list. -/
def State.popTurn (s : State) : State := { s with turns := s.turns.tail }

end Sys2Proof.Machine
end

