-- ==== Sys2Proof/Machine/Wire.lean ====
section
/-! DEFINITION. The meanings of the wire command codes (R103, R114; assumptions/10). A command code is byte 2 of a
request frame, and the FCD's part in it is the CHECK step that builds the frame around it: in phase CHECK of an
operation whose command code it is (R100), the engine builds the payload and the frame and, but for ENCODE, starts to
send it. What the reader device does with the frame is the device's (R5, R6). Elsewhere the engine places no command
code and the state stays as it is. -/

namespace Sys2Proof.Machine

/-- The CHECK step that places a command code in a request frame (R181). -/
def State.carry (s : State) (cmd : Byte) : State :=
  if s.fcd.wireCode = some cmd then { s with fcd := s.fcd.checkWire s.linkUp cmd } else s

/-- 0xEE, list tag identifiers (R114, R210). -/
def execWireInventory (s : State) : Out := .next (s.carry 0xEE)

/-- 0xEC, read memory block (R114, R240). -/
def execWireRead (s : State) : Out := .next (s.carry 0xEC)

/-- 0xEB, write memory block (R114, R245). -/
def execWireWrite (s : State) : Out := .next (s.carry 0xEB)

/-- Any other command code, carried without meaning (R103). -/
def execWireOther (cmd : Byte) (s : State) : Out := .next (s.carry cmd)

end Sys2Proof.Machine
end

