-- ==== Sys2Proof/Machine/Dispatch.lean ====
section
/-! DEFINITION. One arm for each constructor of Instr. -/

namespace Sys2Proof.Machine

def exec (i : Instr) (s : State) : Host.Outcome State Fault Refusal :=
  match i with
  | .send => Sys2Proof.Machine.execSend s
  | .inventory => Sys2Proof.Machine.execInventory s
  | .read => Sys2Proof.Machine.execRead s
  | .write => Sys2Proof.Machine.execWrite s
  | .encode => Sys2Proof.Machine.execEncode s
  | .decode => Sys2Proof.Machine.execDecode s
  | .illegalOp0 => Sys2Proof.Machine.execIllegalOp0 s
  | .illegalOp7 => Sys2Proof.Machine.execIllegalOp7 s
  | .illegalOpHigh op => Sys2Proof.Machine.execIllegalOpHigh op s
  | .ctrlNostart => Sys2Proof.Machine.execCtrlNostart s
  | .rd a => Sys2Proof.Machine.execRd a s
  | .wr a d => Sys2Proof.Machine.execWr a d s
  | .go op => Sys2Proof.Machine.execGo op s
  | .wait => Sys2Proof.Machine.execWait s
  | .clr => Sys2Proof.Machine.execClr s
  | .wireInventory => Sys2Proof.Machine.execWireInventory s
  | .wireRead => Sys2Proof.Machine.execWireRead s
  | .wireWrite => Sys2Proof.Machine.execWireWrite s
  | .wireOther cmd => Sys2Proof.Machine.execWireOther cmd s

end Sys2Proof.Machine
end

