-- ==== Sys2Proof/Machine/Transport.lean ====
section
/-! DEFINITION. The transport's steps (R24, R184 to R189). -/

namespace Sys2Proof.Machine

/-- `need`: how many response bytes the engine waits for (R52). -/
def Fcd.need (f : Fcd) : Nat := if f.rxfCount.toNat < 2 then 2 else 2 + (f.buf .rxf 1).toNat

/-- The Accept step (R184): the offered byte `FRAME_BUF[TX_COUNT]` passes to the transport. -/
def acceptByte (s : State) : Out :=
  let f := s.fcd
  if f.txCount.toNat < bufSize .frame then
    let n := f.txCount + 1
    .next { s with
      sent := s.sent ++ [f.txData]
      fcd := { f with txCount := n, phase := if n = f.frameLen then .rx else f.phase } }
  else .fault .frameIndexOutOfRange

/-- Whether the frame in RXF_BUF is complete (R186). -/
def Fcd.frameComplete (f : Fcd) : Bool :=
  decide (2 ≤ f.rxfCount.toNat) && decide (f.rxfCount.toNat = 2 + (f.buf .rxf 1).toNat)

/-- The Deliver step (R186): the oldest byte the transport holds passes to the FCD. With none held there is no byte on
`rx_data` and no step. -/
def deliverByte (s : State) : Out :=
  match s.held with
  | [] => .next s
  | b :: rest =>
    let i := s.fcd.rxfCount.toNat
    if i < bufSize .rxf then
      let f := { s.fcd.setBuf .rxf i b with rxfCount := s.fcd.rxfCount + 1 }
      .next { s with held := rest, fcd := { f with phase := if f.frameComplete then .commit else f.phase } }
    else .fault .rxfIndexOutOfRange

/-- The Short step (R187), in phase RX only. -/
def shortRead (s : State) : State :=
  if s.fcd.phase = .rx then { s with fcd := { s.fcd with phase := .commit } } else s

/-- The Error step (R188). -/
def transportErr (s : State) : State := { s with fcd := s.fcd.endOp .transportError }

/-- A clock in which the transport asserts `rx_short` alone. -/
def shortOnly : Signals := ⟨false, false, false, true⟩

/-- After the handshake of a clock its short read, if one is asserted, is the next step (R24, R189). -/
def keepShort (sig : Signals) (o : Out) : Out :=
  match o with
  | .next s => .next (if sig.short then { s with turns := .transport shortOnly :: s.turns } else s)
  | .fault x => .fault x
  | .refused x => .refused x

/-- One step of a transport clock. Each signal is a step of its own (R7), in the order of R24 and R189: the error, which
ends the operation so that the rest is ignored; else the Accept or the Deliver, at most one a clock (assumptions/9), with
the short read left for the step after it; else the short read. A signal that its phase does not enable is ignored. -/
def transportStep (sig : Signals) (s : State) : Out :=
  match s.fcd.phase with
  | .tx => if sig.err then .next (transportErr s) else if sig.ready then keepShort sig (acceptByte s) else .next s
  | .rx =>
    if sig.err then .next (transportErr s)
    else if sig.valid then keepShort sig (deliverByte s)
    else if sig.short then .next (shortRead s)
    else .next s
  | .idle => .next s
  | .check => .next s
  | .commit => .next s

end Sys2Proof.Machine
end

