-- ==== Sys2Proof/Machine/Fetch.lean ====
section
/-! DEFINITION. Where an instruction is fetched from: the host's program, or the engine's own choice of a command
code; and how a word is placed there. -/

namespace Sys2Proof.Machine

/-- What the host issues next. -/
inductive Fetched where
  /-- the host's program is at its end -/
  | nothing
  /-- an instruction -/
  | instr (i : Instr)
  /-- a bus clock or a word that is turned away -/
  | refuse (r : Refusal)
  deriving DecidableEq, Repr

/-- Decodes the line of the host's program that is next. A wire command code is no host instruction. -/
def fetchHost (s : State) : Fetched :=
  match s.program with
  | [] => .nothing
  | .bothStrobes _ _ :: _ => .refuse .bothStrobes
  | .word sl :: _ =>
    if sl.fmt = .wireFrame then .refuse .wireCodeOnHostBus
    else
      match decode sl with
      | .ok i => .instr i
      | .error e => .refuse (.undecodable e)

/-- The instruction the engine fetches in phase CHECK: the wire command code of its operation, if it has one. -/
def fetchEngine (s : State) : Option Instr := s.fcd.wireCode.map decodeWire

/-- The OP whose request carries a command code: its own operation where R114 names one, else SEND (R100). -/
def opOfWireCode (c : Byte) : BitVec 4 :=
  if c = 0xEE then opInventory else if c = 0xEC then opRead else if c = 0xEB then opWrite else opSend

/-- Places a slot where the next step fetches: a host word at the head of the host's program, with the host's turn
next; a wire command code in phase CHECK of an operation just accepted that carries it (SEND with that CMD_CODE for a
code R114 does not name), with the engine's turn next. -/
def State.placeSlot (s : State) (sl : Slot) : State :=
  match sl.fmt, sl.bytes with
  | .wireFrame, [c] =>
    let f := if c ∈ namedWireCodes then s.fcd else { s.fcd with cmdCode := c }
    { s with fcd := f.accept (opOfWireCode c), turns := .engine :: s.turns }
  | _, _ => { s with program := .word sl :: s.program, turns := .host :: s.turns }

end Sys2Proof.Machine
end

