-- ==== Sys2Proof/Machine/Step.lean ====
section
/-! DEFINITION. One step of the machine: the agent whose turn it is makes its move (R6, R7, R81). -/

namespace Sys2Proof.Machine

/-- The host's move: it issues its next instruction; at the end of its program the clock passes. -/
def hostStep (s : State) : Out :=
  match fetchHost s with
  | .nothing => .next s
  | .instr i => exec i s
  | .refuse r => .refused r

/-- The engine's move: the CHECK step of an operation with a wire command code runs that code's instruction; every
other engine step is its own. -/
def engineTurn (s : State) : Out :=
  match fetchEngine s with
  | some i => exec i s
  | none => engineStep s

/-- One step. That opening or closing the transport keeps the bytes it holds is the model's choice (assumptions/21,
beside R303). -/
def step (s : State) : Host.Outcome State Fault Refusal :=
  match nextTurn s with
  | .host => hostStep s.popTurn
  | .engine => engineTurn s.popTurn
  | .transport sig => transportStep sig s.popTurn
  | .arrive bytes => .next { s.popTurn with held := s.held ++ bytes }
  | .drain => .next { s.popTurn with held := [] }
  | .link up => .next { s.popTurn with linkUp := up }
  | .reset => .next s.popTurn.resetFcd

/-- The state whose very next step runs the instruction of a word of spec/opcode_table.json (assumptions/4, 11). -/
def State.withFetchWord (s : State) (nbits w : Nat) : State := s.placeSlot (tableSlot nbits w)

end Sys2Proof.Machine
end

