-- ==== Sys2Proof/Safety.lean ====
section
/-! DEFINITION. What counts as a safe state: the facts about the FCD that hold after reset and that every step keeps. -/

namespace Sys2Proof.Machine

/-- A phase in which a dispatch operation talks to the transport or commits its response. -/
def Phase.exchanging : Phase → Bool
  | .idle => false
  | .check => false
  | .tx => true
  | .rx => true
  | .commit => true

/-- The four dispatch operations (R100). -/
def isDispatchOp (op : BitVec 4) : Bool := op = opSend || op = opInventory || op = opRead || op = opWrite

/-- The safe states of the FCD. -/
structure Fcd.Inv (f : Fcd) : Prop where
  /-- the buffer memory has its canonical form -/
  mem_wf : memWf f.mem = true
  /-- the phase is IDLE exactly when BUSY = 0 (R50) -/
  busy_iff : f.busy = true ↔ f.phase ≠ .idle
  /-- BUSY and DONE are never both 1 (R32) -/
  not_busy_and_done : ¬(f.busy = true ∧ f.done = true)
  /-- RESULT is NONE from an accept until the operation's end (R33) -/
  busy_result : f.busy = true → f.result = .none
  /-- an operation that has ended left a result (R260) -/
  done_result : f.done = true → f.result ≠ .none
  /-- FLAGS.ADDRESSED is the shape of the operation in progress (R44) -/
  busy_shape : f.busy = true → f.addressed = decide (f.addr ≠ 0)
  /-- no frame has been decoded while an operation is in progress (R157, R271) -/
  busy_respValid : f.busy = true → f.respValid = false
  /-- until its end an operation leaves every diagnostic output as its accept cleared it (R180, R271) -/
  busy_cleared : f.busy = true → f.errCode = 0 ∧ f.errCat = .commandSuccess ∧ f.tagCount = 0 ∧ f.respBoot = 0 ∧
    f.respLfield = 0 ∧ f.respCmd = 0 ∧ f.respAddr = 0 ∧ f.respPlen = 0 ∧ f.respCsum = 0 ∧ f.calcCsum = 0
  /-- RESP_CSUM = CALC_CSUM whenever RESP_VALID = 1 (R43) -/
  valid_sums : f.respValid = true → f.respCsum = f.calcCsum
  /-- WRITE_OK is the boolean result of WRITE (R248) -/
  writeOk_iff : f.writeOk = true ↔ f.ctrlOp = opWrite ∧ f.result = .ok
  /-- READ_PRESENT is 1 exactly for a READ that ended OK (R44) -/
  readPresent_iff : f.readPresent = true ↔ f.ctrlOp = opRead ∧ f.result = .ok
  /-- TAG_COUNT is 0 but after an INVENTORY that ended OK (R46) -/
  tags_only_ok : f.tagCount ≠ 0 → f.ctrlOp = opInventory ∧ f.result = .ok
  /-- EMPTY comes from device error code 0x02 alone (R193) -/
  empty_code : f.result = .empty → f.errCode = noTagCode
  /-- only a dispatch operation leaves CHECK for the transport (R181) -/
  exchanging_op : f.phase.exchanging = true → isDispatchOp f.ctrlOp = true
  /-- in CHECK no byte has moved (R180) -/
  check_counts : f.phase = .check → f.txCount = 0 ∧ f.rxfCount = 0
  /-- in TX a byte of the frame is still to go, and nothing has been received (R184) -/
  tx_bounds : f.phase = .tx → f.txCount.toNat < f.frameLen.toNat ∧ f.frameLen.toNat ≤ 257 ∧ f.rxfCount = 0
  /-- in RX the whole request is sent and the response is not complete (R186, R87) -/
  rx_bounds : f.phase = .rx → f.rxfCount.toNat < f.need ∧ f.txCount = f.frameLen
  /-- RXF_COUNT never passes the buffer (R186) -/
  rxf_le : f.rxfCount.toNat ≤ 257

/-- The safe states of the machine. -/
def Safe (s : State) : Prop := s.fcd.Inv

/-! ### The terms in which claims say what stays unchanged -/

/-- Every buffer byte of `g` reads as in `f`. -/
def sameBytes (f g : Fcd) : Prop := ∀ (c : Buf) (j : Nat), j < bufSize c → g.buf c j = f.buf c j

/-- Every buffer byte of `g` but bytes 0 to `n - 1` of `b` reads as in `f`. -/
def sameBytesBut (f g : Fcd) (b : Buf) (n : Nat) : Prop :=
  ∀ (c : Buf) (j : Nat), j < bufSize c → c ≠ b ∨ n ≤ j → g.buf c j = f.buf c j

/-- `bytes` stands at the start of a buffer. -/
def holdsBytes (f : Fcd) (b : Buf) (bytes : List Byte) : Prop :=
  ∀ (j : Nat) (h : j < bytes.length), f.buf b j = bytes[j]

/-- A straight run of host instructions. -/
def execAll : List Instr → State → Out
  | [], s => .next s
  | i :: rest, s =>
    match exec i s with
    | .next t => execAll rest t
    | .fault x => .fault x
    | .refused x => .refused x

end Sys2Proof.Machine
end

