-- ==== Sys2Proof/Certificates/Slice0/Obligations.lean ====
section
/-! DEFINITION. The statements for the provers. Each docstring names the rules of spec/ the statement formalises.
Where a statement gives a next state as an equation on records, the equation is its whole frame: every field that the
record does not name is unchanged; of `hb_rdata`, which the spec does not speak of between reads, that is the model's
choice (assumptions/16). Buffer bytes are compared by reading them (`Fcd.buf`). -/

open Sys2Proof Sys2Proof.Machine

/-! ### Encodings -/

/-- R100, R104, R106, R114: decoding the encoding of any well-formed instruction gives it back, with every operand at
every value. -/
def Obligations.DecodeEncodeRoundTrip : Prop :=
  ∀ i : Instr, i.wf = true → decode (encode i) = .ok i

/-- R100, R103, R104: whatever the decoder reads is a well-formed instruction. -/
def Obligations.DecodedInstrIsWellFormed : Prop :=
  ∀ (sl : Slot) (i : Instr), decode sl = .ok i → i.wf = true

/-- R31, R100, R102: every one of the 256 CTRL bytes decodes by the mask and match of its opcode table row. -/
def Obligations.CtrlBytesFollowTableRows : Prop :=
  ∀ v : Byte,
    (v &&& 0x8F = 0x81 → decode ⟨.ctrl8, [v]⟩ = .ok .send) ∧
    (v &&& 0x8F = 0x82 → decode ⟨.ctrl8, [v]⟩ = .ok .inventory) ∧
    (v &&& 0x8F = 0x83 → decode ⟨.ctrl8, [v]⟩ = .ok .read) ∧
    (v &&& 0x8F = 0x84 → decode ⟨.ctrl8, [v]⟩ = .ok .write) ∧
    (v &&& 0x8F = 0x85 → decode ⟨.ctrl8, [v]⟩ = .ok .encode) ∧
    (v &&& 0x8F = 0x86 → decode ⟨.ctrl8, [v]⟩ = .ok .decode) ∧
    (v &&& 0x8F = 0x80 → decode ⟨.ctrl8, [v]⟩ = .ok .illegalOp0) ∧
    (v &&& 0x8F = 0x87 → decode ⟨.ctrl8, [v]⟩ = .ok .illegalOp7) ∧
    (v &&& 0x88 = 0x88 → decode ⟨.ctrl8, [v]⟩ = .ok (.illegalOpHigh (v.setWidth 4))) ∧
    (v &&& 0x80 = 0x00 → decode ⟨.ctrl8, [v]⟩ = .ok .ctrlNostart)

/-- R104: the fields of a host transaction word, D being ignored for RD, and the rule's two examples. -/
def Obligations.TransactionWordFields : Prop :=
  (∀ (w : BitVec 24), w.toNat < 2 ^ 21 →
    decode ⟨.htw21, bytesOfWord w⟩ =
      if w.toNat / 2 ^ 20 = 1 then
        .ok (.wr (BitVec.ofNat 12 (w.toNat / 2 ^ 8 % 2 ^ 12)) (BitVec.ofNat 8 (w.toNat % 2 ^ 8)))
      else .ok (.rd (BitVec.ofNat 12 (w.toNat / 2 ^ 8 % 2 ^ 12)))) ∧
  encode (.wr 0x000 0x82) = ⟨.htw21, bytesOfWord 0x100082⟩ ∧
  encode (.rd 0x001) = ⟨.htw21, bytesOfWord 0x000100⟩

/-- R100, R104, R106, R114: words of spec/opcode_table.json, and words of the spec's example programs, decode to the
instructions they stand for. Where two rows share a word (the three pseudo-instruction words, which are plain WR and RD
words too, and the byte 0xEB, which is a CTRL byte too), which row a bare word is read as is the model's choice
(assumptions/4). -/
def Obligations.SampleWordsDecode : Prop :=
  decodeTableWord 8 0x83 = some .read ∧
  decodeTableWord 8 0xF3 = some .read ∧
  decodeTableWord 8 0x88 = some (.illegalOpHigh 8) ∧
  decodeTableWord 24 0x1003EE = some (.wr 0x003 0xEE) ∧
  decodeTableWord 24 0x051B00 = some (.rd 0x51B) ∧
  decodeTableWord 24 0x100085 = some (.go 5) ∧
  decodeTableWord 24 0x000100 = some .wait ∧
  decodeTableWord 24 0x100106 = some .clr ∧
  decodeTableWord 8 0xEB = some .wireWrite

/-! ### A step runs the decoded instruction -/

/-- R81, R100, R104, R106: on the host's turn, when the line of its program that is next decodes to an instruction, the
step is exec of that instruction at the state whose turn has been taken. -/
def Obligations.StepRunsHostInstr : Prop :=
  ∀ (s : State) (sl : Slot) (rest : List HostItem) (i : Instr),
    nextTurn s = .host → s.program = .word sl :: rest → sl.fmt ≠ .wireFrame → decode sl = .ok i →
    step s = exec i { s with turns := s.turns.tail }

/-- R100, R181: on the engine's turn in phase CHECK of an operation with a wire command code, the step is exec of the
instruction that the code decodes to. Where no operation in phase CHECK carries a code, its instruction leaves the state
as it is: the model's own convention (assumptions/10). -/
def Obligations.StepRunsWireCode : Prop :=
  (∀ (s : State) (c : Byte) (i : Instr),
    nextTurn s = .engine → s.fcd.phase = .check → s.fcd.opWireCode = some c →
    decode ⟨.wireFrame, [c]⟩ = .ok i →
    step s = exec i { s with turns := s.turns.tail }) ∧
  (∀ (s : State) (c : Byte) (i : Instr), decode ⟨.wireFrame, [c]⟩ = .ok i →
    ¬(s.fcd.phase = .check ∧ s.fcd.opWireCode = some c) → exec i s = .next s)

/-- A word of spec/opcode_table.json that the model's `withFetchWord` places is what the next step runs (the model's own
convention, assumptions/4 and 11). -/
def Obligations.PlacedWordRuns : Prop :=
  ∀ (s : State) (nbits w : Nat) (i : Instr), decodeTableWord nbits w = some i →
    step (s.withFetchWord nbits w) =
      exec i { s.withFetchWord nbits w with turns := (s.withFetchWord nbits w).turns.tail }

/-! ### Host reads -/

/-- R30, R74, R120, R172: with BUSY = 0 each register is read at its address, its reserved bits 0, RESULT with the number
of each result code and ERR_CAT with the byte of each category, and nothing but `hb_rdata` and the host's place in its
program changes. -/
def Obligations.RegistersReadAtTheirAddresses : Prop :=
  ∀ s : State, s.fcd.busy = false →
    let reads := fun (a : HostAddr) (n : Nat) =>
      exec (.rd a) s = .next { s with hbRdata := BitVec.ofNat 8 n, program := s.program.tail }
    let f := s.fcd
    reads 0x000 f.ctrlOp.toNat ∧
    reads 0x001 (4 * f.collide.toNat + 2 * f.done.toNat) ∧
    (∀ c ∈ [(ResultCode.none, 0x0), (.ok, 0x1), (.empty, 0x2), (.deviceError, 0x3), (.checksumMismatch, 0x4),
        (.truncatedFrame, 0x5), (.transportError, 0x6), (.invalidPayloadSize, 0x7), (.invalidPassword, 0x8),
        (.malformedFrame, 0x9), (.malformedInventory, 0xA), (.illegalOp, 0xB)], f.result = c.1 → reads 0x002 c.2) ∧
    reads 0x003 f.cmdCode.toNat ∧ reads 0x004 f.addr.toNat ∧ reads 0x005 f.boot.toNat ∧
    reads 0x006 f.payloadLen.toNat ∧ reads 0x007 f.tidLen.toNat ∧ reads 0x008 f.dataLen.toNat ∧
    reads 0x009 f.pwLen.toNat ∧ reads 0x00A f.bank.toNat ∧ reads 0x00B f.startWord.toNat ∧
    reads 0x00C f.wordCount.toNat ∧ reads 0x00D f.ie.toNat ∧
    reads 0x00E (f.frameLen.toNat % 256) ∧ reads 0x00F (f.frameLen.toNat / 256) ∧
    reads 0x010 f.respBoot.toNat ∧ reads 0x011 f.respLfield.toNat ∧ reads 0x012 f.respCmd.toNat ∧
    reads 0x013 f.respAddr.toNat ∧ reads 0x014 f.respPlen.toNat ∧ reads 0x015 f.respCsum.toNat ∧
    reads 0x016 f.calcCsum.toNat ∧
    reads 0x017 (8 * f.addressed.toNat + 4 * f.writeOk.toNat + 2 * f.readPresent.toNat + f.respValid.toNat) ∧
    reads 0x018 f.errCode.toNat ∧
    (∀ c ∈ [(Category.commandSuccess, 0x00), (.antennaConnectionFailure, 0x01), (.noTagDetected, 0x02),
        (.illegalTag, 0x03), (.inadequatePower, 0x04), (.writeProtectedArea, 0x05), (.checksumError, 0x06),
        (.parameterError, 0x07), (.nonexistentDataArea, 0x08), (.wrongPassword, 0x09), (.killPasswordIsZero, 0x0A),
        (.illegalInAutoMode, 0x0B), (.unmatchedPassword, 0x0C), (.rfInterference, 0x0D), (.readProtectedTag, 0x0E),
        (.invalidCommand, 0x0F), (.unknownCommand, 0x10), (.other, 0x11), (.unrecognizedError, 0xFF)],
      f.errCat = c.1 → reads 0x019 c.2) ∧
    reads 0x01A f.tagCount.toNat ∧
    reads 0x01B (f.rxfCount.toNat % 256) ∧ reads 0x01C (f.rxfCount.toNat / 256) ∧
    reads 0x01D (f.txCount.toNat % 256) ∧ reads 0x01E (f.txCount.toNat / 256)

/-- R70, R74: the nine buffers with their bases and sizes: with BUSY = 0 byte `i` of each is read at its base plus `i`,
and nothing but `hb_rdata` and the host's place in its program changes. -/
def Obligations.BuffersReadAtTheirAddresses : Prop :=
  ∀ (b : Buf) (base size : Nat),
    (b, base, size) ∈ [(Buf.payload, 0x100, 256), (.tid, 0x200, 256), (.data, 0x300, 256), (.pw, 0x400, 4),
      (.resp, 0x500, 256), (.frame, 0x600, 257), (.tagOff, 0x800, 256), (.tagWords, 0x900, 256),
      (.rxf, 0xA00, 257)] →
    bufBase b = base ∧ bufSize b = size ∧
    ∀ (s : State) (i : Nat), s.fcd.busy = false → i < size →
      exec (.rd (BitVec.ofNat 12 (base + i))) s =
        .next { s with hbRdata := s.fcd.buf b i, program := s.program.tail }

/-- R76: while BUSY = 1 a read of RESULT, FRAME_LEN, RESP_*, CALC_CSUM, FLAGS, ERR_CODE, ERR_CAT, TAG_COUNT, RESP_BUF,
FRAME_BUF, TAG_OFF, TAG_WORDS or RXF_BUF returns the next draw, and a read of any other address the byte that is
there; the FCD is unchanged by both. -/
def Obligations.BusyReadsOfOutputsAreFree : Prop :=
  ∀ (s : State) (a : HostAddr), s.fcd.busy = true →
    let n := a.toNat
    let free := n = 0x002 ∨ (0x00E ≤ n ∧ n ≤ 0x01A) ∨ (0x500 ≤ n ∧ n ≤ 0x5FF) ∨ (0x600 ≤ n ∧ n ≤ 0x700) ∨
      (0x800 ≤ n ∧ n ≤ 0x9FF) ∨ (0xA00 ≤ n ∧ n ≤ 0xB00)
    (free → exec (.rd a) s =
      .next { s with hbRdata := Config.busyDraw s.draws, draws := s.draws + 1, program := s.program.tail }) ∧
    (¬free → exec (.rd a) s = .next { s with hbRdata := s.fcd.readLoc (locate n), program := s.program.tail })

/-- R30, R71: a reserved address reads 0 and ignores writes whatever BUSY is, no register holds a 1 in a reserved bit, a
write to a reserved bit has no effect, and none of these accesses stops anything. -/
def Obligations.ReservedReadsZeroIgnoresWrites : Prop :=
  (∀ (s : State) (a : HostAddr) (d : Byte),
    ((0x01F ≤ a.toNat ∧ a.toNat ≤ 0x0FF) ∨ (0x404 ≤ a.toNat ∧ a.toNat ≤ 0x4FF) ∨
      (0x701 ≤ a.toNat ∧ a.toNat ≤ 0x7FF) ∨ 0xB01 ≤ a.toNat) →
    exec (.rd a) s = .next { s with hbRdata := 0, program := s.program.tail } ∧
    exec (.wr a d) s = .next { s with program := s.program.tail }) ∧
  (∀ f : Fcd, f.readReg .ctrl &&& 0x70 = 0 ∧ f.readReg .status &&& 0xF8 = 0 ∧ f.readReg .result &&& 0xF0 = 0 ∧
    f.readReg .inten &&& 0xFE = 0 ∧ f.readReg .frameLenHi &&& 0xFE = 0 ∧ f.readReg .flags &&& 0xF0 = 0 ∧
    f.readReg .rxfCountHi &&& 0xFE = 0 ∧ f.readReg .txCountHi &&& 0xFE = 0) ∧
  (∀ (s : State) (d : Byte), exec (.wr 0x000 d) s = exec (.wr 0x000 (d &&& 0x8F)) s ∧
    exec (.wr 0x001 d) s = exec (.wr 0x001 (d &&& 0x07)) s ∧
    exec (.wr 0x00D d) s = exec (.wr 0x00D (d &&& 0x01)) s ∧
    exec (.wr 0x00F d) s = exec (.wr 0x00F (d &&& 0x01)) s ∧
    ∀ a : HostAddr, a = 0x002 ∨ a = 0x017 ∨ a = 0x01C ∨ a = 0x01E →
      exec (.wr a d) s = .next { s with program := s.program.tail })

/-! ### Host writes -/

/-- R75: while BUSY = 1 a write has effect at CTRL, STATUS and INTEN only; and no step but a reset changes a parameter
register, an input buffer byte or the latched operation of an operation in progress. -/
def Obligations.BusyWritesAreIgnored : Prop :=
  (∀ (s : State) (a : HostAddr) (d : Byte), s.fcd.busy = true →
    exec (.wr a d) s = .next { s with
      program := s.program.tail
      fcd :=
        if a = 0x000 then { s.fcd with collide := s.fcd.collide || d.getLsbD 7 }
        else if a = 0x001 then
          { s.fcd with done := s.fcd.done && !d.getLsbD 1, collide := s.fcd.collide && !d.getLsbD 2 }
        else if a = 0x00D then { s.fcd with ie := d.getLsbD 0 }
        else s.fcd }) ∧
  (∀ s t : State, s.fcd.busy = true → nextTurn s ≠ .reset → step s = .next t →
    t.fcd.ctrlOp = s.fcd.ctrlOp ∧ t.fcd.cmdCode = s.fcd.cmdCode ∧ t.fcd.addr = s.fcd.addr ∧
    t.fcd.boot = s.fcd.boot ∧ t.fcd.payloadLen = s.fcd.payloadLen ∧ t.fcd.tidLen = s.fcd.tidLen ∧
    t.fcd.dataLen = s.fcd.dataLen ∧ t.fcd.pwLen = s.fcd.pwLen ∧ t.fcd.bank = s.fcd.bank ∧
    t.fcd.startWord = s.fcd.startWord ∧ t.fcd.wordCount = s.fcd.wordCount ∧
    ∀ (b : Buf) (j : Nat), b = .payload ∨ b = .tid ∨ b = .data ∨ b = .pw → j < bufSize b →
      t.fcd.buf b j = s.fcd.buf b j)

/-- R30, R40, R74: what a write to each register other than CTRL does while BUSY = 0; a read-only register ignores it.
Nothing else changes. -/
def Obligations.IdleRegisterWrites : Prop :=
  ∀ (s : State) (d : Byte), s.fcd.busy = false →
    let writes := fun (a : HostAddr) (f : Fcd) =>
      exec (.wr a d) s = .next { s with program := s.program.tail, fcd := f }
    let f := s.fcd
    writes 0x001 { f with done := f.done && !d.getLsbD 1, collide := f.collide && !d.getLsbD 2 } ∧
    writes 0x003 { f with cmdCode := d } ∧ writes 0x004 { f with addr := d } ∧ writes 0x005 { f with boot := d } ∧
    writes 0x006 { f with payloadLen := d } ∧ writes 0x007 { f with tidLen := d } ∧
    writes 0x008 { f with dataLen := d } ∧ writes 0x009 { f with pwLen := d } ∧ writes 0x00A { f with bank := d } ∧
    writes 0x00B { f with startWord := d } ∧ writes 0x00C { f with wordCount := d } ∧
    writes 0x00D { f with ie := d.getLsbD 0 } ∧
    writes 0x00E { f with frameLen := BitVec.ofNat 9 (f.frameLen.toNat / 256 * 256 + d.toNat) } ∧
    writes 0x00F { f with frameLen := BitVec.ofNat 9 (d.toNat % 2 * 256 + f.frameLen.toNat % 256) } ∧
    ∀ a : HostAddr, a = 0x002 ∨ (0x010 ≤ a.toNat ∧ a.toNat ≤ 0x01E) → writes a f

/-- R70, R74: the nine buffers with their bases, sizes and access: while BUSY = 0 a write to byte `i` of a host-writable
one stores that byte at its base plus `i`, a write to a read-only one stores nothing, and no other byte, register or
agent changes. -/
def Obligations.IdleBufferWrites : Prop :=
  ∀ (b : Buf) (base size : Nat) (writable : Bool),
    (b, base, size, writable) ∈ [(Buf.payload, 0x100, 256, true), (.tid, 0x200, 256, true), (.data, 0x300, 256, true),
      (.pw, 0x400, 4, true), (.resp, 0x500, 256, false), (.frame, 0x600, 257, true), (.tagOff, 0x800, 256, false),
      (.tagWords, 0x900, 256, false), (.rxf, 0xA00, 257, false)] →
    ∀ (s : State) (i : Nat) (d : Byte), s.fcd.busy = false → i < size →
      ∃ t : State, exec (.wr (BitVec.ofNat 12 (base + i)) d) s = .next t ∧
        t = { s with program := s.program.tail, fcd := { s.fcd with mem := t.fcd.mem } } ∧
        t.fcd.buf b i = (if writable then d else s.fcd.buf b i) ∧
        ∀ (c : Buf) (j : Nat), j < bufSize c → ¬(c = b ∧ j = i) → t.fcd.buf c j = s.fcd.buf c j

/-- R78: FRAME_LEN, RXF_COUNT and TX_COUNT have their bits 7 to 0 at the lower address and bit 8 in bit 0 of the byte at
the higher one, each half written and read by a transaction of its own. -/
def Obligations.CountersSplitLittleEndian : Prop :=
  (∀ f : Fcd,
    f.frameLen.toNat = (f.readLoc (locate 0x00E)).toNat + 256 * (f.readLoc (locate 0x00F)).toNat ∧
    f.rxfCount.toNat = (f.readLoc (locate 0x01B)).toNat + 256 * (f.readLoc (locate 0x01C)).toNat ∧
    f.txCount.toNat = (f.readLoc (locate 0x01D)).toNat + 256 * (f.readLoc (locate 0x01E)).toNat) ∧
  (∀ (s : State) (lo hi : Byte), s.fcd.busy = false →
    ∃ t : State, execAll [.wr 0x00E lo, .wr 0x00F hi] s = .next t ∧
      t.fcd = { s.fcd with frameLen := BitVec.ofNat 9 (lo.toNat + 256 * (hi.toNat % 2)) })

/-- R106: FILL of a host-writable buffer is one WR for each byte from its base on and SETLEN the two WR of FRAME_LEN;
while BUSY = 0 they store the bytes from the buffer's byte 0 on and set FRAME_LEN, and no other byte or register
changes. -/
def Obligations.FillAndSetLenExpand : Prop :=
  (∀ (b : Buf) (base size : Nat),
    (b, base, size) ∈ [(Buf.payload, 0x100, 256), (.tid, 0x200, 256), (.data, 0x300, 256), (.pw, 0x400, 4),
      (.frame, 0x600, 257)] →
    ∀ (s : State) (bytes : List Byte), s.fcd.busy = false → bytes.length ≤ size →
      (∀ (i : Nat) (h : i < bytes.length), (fillLines b bytes)[i]? = some (.wr (BitVec.ofNat 12 (base + i)) bytes[i])) ∧
      (fillLines b bytes).length = bytes.length ∧
      ∃ t : State, execAll (fillLines b bytes) s = .next t ∧ holdsBytes t.fcd b bytes ∧
        sameBytesBut s.fcd t.fcd b bytes.length ∧ t.fcd = { s.fcd with mem := t.fcd.mem }) ∧
  (∀ (s : State) (n : Nat), s.fcd.busy = false → n < 512 →
    ∃ t : State, execAll (setLenLines n) s = .next t ∧ t.fcd = { s.fcd with frameLen := BitVec.ofNat 9 n })

/-! ### CTRL: starting an operation -/

/-- R31, R100, R106, R180: with BUSY = 0 every start instruction, GO among them, is accepted with its OP: the clears of
R180, the shape from ADDR, BUSY = 1 and phase CHECK, and nothing else. -/
def Obligations.StartAcceptedWhenIdle : Prop :=
  ∀ s : State, s.fcd.busy = false →
    let accepts := fun (i : Instr) (op : BitVec 4) =>
      exec i s = .next { s with
        program := s.program.tail
        fcd := { s.fcd with
          ctrlOp := op, busy := true, done := false, collide := false, result := .none, respBoot := 0,
          respLfield := 0, respCmd := 0, respAddr := 0, respPlen := 0, respCsum := 0, calcCsum := 0, errCode := 0,
          errCat := .commandSuccess, tagCount := 0, addressed := decide (s.fcd.addr ≠ 0), writeOk := false,
          readPresent := false, respValid := false, rxfCount := 0, txCount := 0, phase := .check } }
    accepts .send 1 ∧ accepts .inventory 2 ∧ accepts .read 3 ∧ accepts .write 4 ∧ accepts .encode 5 ∧
    accepts .decode 6 ∧ accepts .illegalOp0 0 ∧ accepts .illegalOp7 7 ∧
    (∀ op : BitVec 4, 8 ≤ op.toNat → accepts (.illegalOpHigh op) op) ∧
    ∀ op : BitVec 4, accepts (.go op) op

/-- R180, R304: with BUSY = 1 every start instruction, GO among them, sets COLLIDE and does nothing else. -/
def Obligations.StartRefusedWhenBusy : Prop :=
  ∀ s : State, s.fcd.busy = true →
    let collides := fun (i : Instr) =>
      exec i s = .next { s with program := s.program.tail, fcd := { s.fcd with collide := true } }
    collides .send ∧ collides .inventory ∧ collides .read ∧ collides .write ∧ collides .encode ∧ collides .decode ∧
    collides .illegalOp0 ∧ collides .illegalOp7 ∧ (∀ op : BitVec 4, 8 ≤ op.toNat → collides (.illegalOpHigh op)) ∧
    ∀ op : BitVec 4, collides (.go op)

/-- R180: the start request, as a host write of a byte with bit 7 set to CTRL, accepted or refused. -/
def Obligations.CtrlWriteIsStartRequest : Prop :=
  ∀ (s : State) (v : Byte), v.getLsbD 7 = true →
    ∃ t : State, exec (.wr 0x000 v) s = .next t ∧
      (s.fcd.busy = true → t.fcd = { s.fcd with collide := true }) ∧
      (s.fcd.busy = false →
        t.fcd = { s.fcd with
          ctrlOp := v.setWidth 4, busy := true, done := false, collide := false, result := .none, respBoot := 0,
          respLfield := 0, respCmd := 0, respAddr := 0, respPlen := 0, respCsum := 0, calcCsum := 0, errCode := 0,
          errCat := .commandSuccess, tagCount := 0, addressed := decide (s.fcd.addr ≠ 0), writeOk := false,
          readPresent := false, respValid := false, rxfCount := 0, txCount := 0, phase := .check } ∧
        sameBytes s.fcd t.fcd)

/-- R31, R100: a write of any byte to CTRL does what the CTRL instruction that the byte decodes to does. -/
def Obligations.CtrlWriteRunsItsByte : Prop :=
  ∀ (s : State) (v : Byte) (i : Instr), decode ⟨.ctrl8, [v]⟩ = .ok i → exec (.wr 0x000 v) s = exec i s

/-- R31, R32, R106: a CTRL byte with START = 0 changes nothing; CLR clears DONE and COLLIDE; WAIT reads STATUS and lets
the host go on exactly when DONE = 1. That one WAIT instruction is one read of the loop is the model's reading of R106
(assumptions/19). -/
def Obligations.NoStartClearAndWait : Prop :=
  ∀ s : State,
    exec .ctrlNostart s = .next { s with program := s.program.tail } ∧
    exec .clr s = .next { s with
      program := s.program.tail, fcd := { s.fcd with done := false, collide := false } } ∧
    exec .clr s = exec (.wr 0x001 0x06) s ∧
    exec .wait s = .next { s with
      hbRdata := BitVec.ofNat 8 (4 * s.fcd.collide.toNat + 2 * s.fcd.done.toNat + s.fcd.busy.toNat)
      program := if s.fcd.done = true then s.program.tail else s.program }

/-- R22: `irq = STATUS.DONE AND INTEN.IE` at every step: it rises with the end of an operation when IE = 1, falls with a
STATUS write of bit 1, with the next accept, with IE = 0 and with reset. -/
def Obligations.IrqIsDoneAndEnabled : Prop :=
  (∀ f : Fcd, irq f = true ↔ (f.readReg .status).getLsbD 1 = true ∧ (f.readReg .inten).getLsbD 0 = true) ∧
  (∀ (f : Fcd) (x : ResultCode), irq (f.endOp x) = f.ie) ∧
  (∀ (s t : State) (d : Byte), d.getLsbD 1 = true → exec (.wr 0x001 d) s = .next t → irq t.fcd = false) ∧
  (∀ (s t : State) (d : Byte), d.getLsbD 0 = false → exec (.wr 0x00D d) s = .next t → irq t.fcd = false) ∧
  (∀ (f : Fcd) (op : BitVec 4), irq (f.accept op) = false) ∧
  (∀ s : State, irq s.resetFcd.fcd = false)

/-! ### Phase CHECK -/

/-- R118, R119: the bytes of the READ and of the WRITE request payload, at their offsets. -/
def Obligations.WordBlockPayloadLayout : Prop :=
  ∀ (f : Fcd) (P : List Byte),
    let T := f.tidLen.toNat
    let D := f.dataLen.toNat
    let startsAlike := P[0]? = some (BitVec.ofNat 8 (T / 2)) ∧ (∀ i < T, P[1 + i]? = some (f.buf .tid i)) ∧
      P[1 + T]? = some f.bank ∧ P[2 + T]? = some f.startWord
    (f.buildReadPayload = .ok P →
      P.length = 8 + T ∧ startsAlike ∧ P[3 + T]? = some f.wordCount ∧
      ∀ i < 4, P[4 + T + i]? = some (f.buf .pw i)) ∧
    (f.buildWritePayload = .ok P →
      P.length = 8 + T + D ∧ startsAlike ∧ P[3 + T]? = some (BitVec.ofNat 8 (D / 2)) ∧
      (∀ i < D, P[4 + T + i]? = some (f.buf .data i)) ∧
      ∀ i < 4, P[4 + T + D + i]? = some (f.buf .pw i))

/-- R182, R236: the local checks of READ and WRITE in their order, the first that fails deciding the result: password
length, identifier parity, data parity (WRITE), payload size, transport open. On a closed transport FRAME_BUF and
FRAME_LEN hold the frame that would have been sent; on an open one it is about to be. Nothing else changes. -/
def Obligations.WordBlockChecksInOrder : Prop :=
  ∀ s : State, nextTurn s = .engine → s.fcd.phase = .check →
    let f := s.fcd
    let limit := if f.addr = 0 then f.params.maxPayloadUnaddr.val else f.params.maxPayloadAddr.val
    let bytes := fun (b : Buf) (n : Nat) => (List.range n).map (f.buf b)
    let T := f.tidLen.toNat
    let D := f.dataLen.toNat
    let prefixOf := fun (count : Byte) =>
      BitVec.ofNat 8 (T / 2) :: bytes .tid T ++ [f.bank, f.startWord, count]
    let ends := fun (x : ResultCode) =>
      step s = .next { s with
        turns := s.turns.tail, fcd := { f with result := x, busy := false, done := true, phase := .idle } }
    let builds := fun (c : Byte) (P : List Byte) =>
      ∃ (t : State) (frame : List Byte),
        encodeFrame f.params 0x40 c (decide (f.addr ≠ 0)) f.addr P = some frame ∧
        step s = .next t ∧ holdsBytes t.fcd .frame frame ∧ sameBytesBut f t.fcd .frame frame.length ∧
        let g : Fcd := { f with frameLen := BitVec.ofNat 9 frame.length, mem := t.fcd.mem }
        (s.linkUp = false → t = { s with
          turns := s.turns.tail
          fcd := { g with result := .transportError, busy := false, done := true, phase := .idle } }) ∧
        (s.linkUp = true → t = { s with turns := s.turns.tail, fcd := { g with phase := .tx } })
    (f.ctrlOp = 3 →
      (f.pwLen ≠ 4 → ends .invalidPassword) ∧
      (f.pwLen = 4 → T % 2 = 1 → ends .invalidPayloadSize) ∧
      (f.pwLen = 4 → T % 2 = 0 → limit < 8 + T → ends .invalidPayloadSize) ∧
      (f.pwLen = 4 → T % 2 = 0 → 8 + T ≤ limit → builds 0xEC (prefixOf f.wordCount ++ bytes .pw 4))) ∧
    (f.ctrlOp = 4 →
      (f.pwLen ≠ 4 → ends .invalidPassword) ∧
      (f.pwLen = 4 → T % 2 = 1 → ends .invalidPayloadSize) ∧
      (f.pwLen = 4 → T % 2 = 0 → D % 2 = 1 → ends .invalidPayloadSize) ∧
      (f.pwLen = 4 → T % 2 = 0 → D % 2 = 0 → limit < 8 + T + D → ends .invalidPayloadSize) ∧
      (f.pwLen = 4 → T % 2 = 0 → D % 2 = 0 → 8 + T + D ≤ limit →
        builds 0xEB (prefixOf (BitVec.ofNat 8 (D / 2)) ++ bytes .data D ++ bytes .pw 4)))

/-- R110, R118, R119, R142, R181, R183: in the CHECK step of a dispatch operation, with the payload of the operation within
the limit and the transport open, the wire command code puts the frame with boot code 0x40 around that payload
(PAYLOAD_BUF for SEND and INVENTORY, the READ or the WRITE payload otherwise) into FRAME_BUF, its length into FRAME_LEN,
and goes to phase TX; nothing else changes. That the command code is an instruction whose own effect is this CHECK step is
the model's choice (assumptions/10). -/
def Obligations.WireCodeStartsItsRequest : Prop :=
  ∀ s : State, s.fcd.phase = .check → s.linkUp = true →
    let f := s.fcd
    let limit := if f.addr = 0 then f.params.maxPayloadUnaddr.val else f.params.maxPayloadAddr.val
    let bytes := fun (b : Buf) (n : Nat) => (List.range n).map (f.buf b)
    let T := f.tidLen.toNat
    let D := f.dataLen.toNat
    let prefixOf := fun (count : Byte) =>
      BitVec.ofNat 8 (T / 2) :: bytes .tid T ++ [f.bank, f.startWord, count]
    let starts := fun (i : Instr) (c : Byte) (P : List Byte) =>
      P.length ≤ limit → ∃ (t : State) (frame : List Byte),
        encodeFrame f.params 0x40 c (decide (f.addr ≠ 0)) f.addr P = some frame ∧
        exec i s = .next t ∧ holdsBytes t.fcd .frame frame ∧ sameBytesBut f t.fcd .frame frame.length ∧
        t = { s with fcd := { f with
          frameLen := BitVec.ofNat 9 frame.length, phase := .tx, mem := t.fcd.mem } }
    let raw := bytes .payload f.payloadLen.toNat
    (f.ctrlOp = 2 → starts .wireInventory 0xEE raw) ∧
    (f.ctrlOp = 3 → f.pwLen = 4 → T % 2 = 0 →
      starts .wireRead 0xEC (prefixOf f.wordCount ++ bytes .pw 4)) ∧
    (f.ctrlOp = 4 → f.pwLen = 4 → T % 2 = 0 → D % 2 = 0 →
      starts .wireWrite 0xEB (prefixOf (BitVec.ofNat 8 (D / 2)) ++ bytes .data D ++ bytes .pw 4)) ∧
    (f.ctrlOp = 1 → ∀ c : Byte, f.cmdCode = c → starts (.wireOther c) c raw) ∧
    (f.ctrlOp = 1 → f.cmdCode = 0xEE → starts .wireInventory 0xEE raw) ∧
    (f.ctrlOp = 1 → f.cmdCode = 0xEC → starts .wireRead 0xEC raw) ∧
    (f.ctrlOp = 1 → f.cmdCode = 0xEB → starts .wireWrite 0xEB raw)

/-- R143, R182, R265: a request payload above the limit ends SEND and INVENTORY with INVALID_PAYLOAD_SIZE, nothing else
written; a closed transport ends them with TRANSPORT_ERROR, FRAME_BUF and FRAME_LEN holding the frame that would have
been sent; no request byte leaves. That the CHECK step is the meaning of the command code is the model's choice
(assumptions/10). -/
def Obligations.RawDispatchTurnedAway : Prop :=
  ∀ (s : State) (i : Instr) (c : Byte), s.fcd.phase = .check → s.fcd.ctrlOp = 1 ∨ s.fcd.ctrlOp = 2 →
    s.fcd.opWireCode = some c → decode ⟨.wireFrame, [c]⟩ = .ok i →
    let limit := if s.fcd.addr = 0 then s.fcd.params.maxPayloadUnaddr.val else s.fcd.params.maxPayloadAddr.val
    (limit < s.fcd.payloadLen.toNat →
      exec i s = .next { s with
        fcd := { s.fcd with result := .invalidPayloadSize, busy := false, done := true, phase := .idle } }) ∧
    (s.fcd.payloadLen.toNat ≤ limit → s.linkUp = false →
      ∃ (t : State) (frame : List Byte),
        encodeFrame s.fcd.params 0x40 c (decide (s.fcd.addr ≠ 0)) s.fcd.addr
          ((List.range s.fcd.payloadLen.toNat).map (s.fcd.buf .payload)) = some frame ∧
        exec i s = .next t ∧ holdsBytes t.fcd .frame frame ∧ sameBytesBut s.fcd t.fcd .frame frame.length ∧
        t = { s with fcd := { s.fcd with
          frameLen := BitVec.ofNat 9 frame.length, result := .transportError, busy := false, done := true,
          phase := .idle, mem := t.fcd.mem } })

/-- R143, R155: the CHECK step of ENCODE, which its CMD_CODE names: with the payload within the limit the frame with boot
code BOOT stands in FRAME_BUF, FRAME_LEN is its length and the result is OK; above the limit the result is
INVALID_PAYLOAD_SIZE and nothing else is written. The transport plays no part. That the CHECK step is the meaning of the
command code is the model's choice (assumptions/10). -/
def Obligations.EncodeBuildsFrame : Prop :=
  ∀ (s : State) (i : Instr), s.fcd.phase = .check → s.fcd.ctrlOp = 5 →
    decode ⟨.wireFrame, [s.fcd.cmdCode]⟩ = .ok i →
    let limit := if s.fcd.addr = 0 then s.fcd.params.maxPayloadUnaddr.val else s.fcd.params.maxPayloadAddr.val
    (limit < s.fcd.payloadLen.toNat →
      exec i s = .next { s with
        fcd := { s.fcd with result := .invalidPayloadSize, busy := false, done := true, phase := .idle } }) ∧
    (s.fcd.payloadLen.toNat ≤ limit →
      ∃ (t : State) (frame : List Byte),
        encodeFrame s.fcd.params s.fcd.boot s.fcd.cmdCode (decide (s.fcd.addr ≠ 0)) s.fcd.addr
          ((List.range s.fcd.payloadLen.toNat).map (s.fcd.buf .payload)) = some frame ∧
        exec i s = .next t ∧ holdsBytes t.fcd .frame frame ∧ sameBytesBut s.fcd t.fcd .frame frame.length ∧
        t = { s with fcd := { s.fcd with
          frameLen := BitVec.ofNat 9 frame.length, result := .ok, busy := false, done := true, phase := .idle,
          mem := t.fcd.mem } })

/-- R264: the CHECK step of a reserved OP ends the operation with ILLEGAL_OP in that one step, and nothing else is
written, whatever the transport does. -/
def Obligations.ReservedOpEndsIllegal : Prop :=
  ∀ s : State, nextTurn s = .engine → s.fcd.phase = .check → s.fcd.ctrlOp = 0 ∨ 7 ≤ s.fcd.ctrlOp.toNat →
    step s = .next { s with
      turns := s.turns.tail
      fcd := { s.fcd with result := .illegalOp, busy := false, done := true, phase := .idle } }

/-- R156, R157: the CHECK step of DECODE writes the outcome of `decodeFrame` on FRAME_BUF and FRAME_LEN in the shape ADDR
asks for, with no classification of the boot code. -/
def Obligations.DecodeWritesOutcome : Prop :=
  ∀ s : State, nextTurn s = .engine → s.fcd.phase = .check → s.fcd.ctrlOp = 6 →
    let f := s.fcd
    let o := decodeFrame (f.buf .frame) f.frameLen.toNat (decide (f.addr ≠ 0))
    let ends := fun (g : Fcd) (x : ResultCode) =>
      step s = .next { s with
        turns := s.turns.tail, fcd := { g with result := x, busy := false, done := true, phase := .idle } }
    (o = .truncated → ends f .truncatedFrame) ∧
    (o = .malformed → ends f .malformedFrame) ∧
    (∀ r c : Byte, o = .mismatch r c → ends { f with respCsum := r, calcCsum := c } .checksumMismatch) ∧
    (∀ d : Fields, o = .ok d →
      ∃ t : State, step s = .next t ∧ holdsBytes t.fcd .resp d.payload ∧
        sameBytesBut f t.fcd .resp d.payload.length ∧
        t = { s with
          turns := s.turns.tail
          fcd := { f with
            respBoot := d.boot, respLfield := d.lfield, respCmd := d.cmd, respAddr := d.addr,
            respPlen := BitVec.ofNat 8 d.plen, respCsum := d.recvSum, calcCsum := d.calcSum, respValid := true,
            result := .ok, busy := false, done := true, phase := .idle, mem := t.fcd.mem } })

/-! ### The codec's functions -/

/-- R141: a byte is the checksum of a sequence exactly when the sequence with it sums to 0. -/
def Obligations.ChecksumMakesSumZero : Prop :=
  ∀ (s : List Byte) (c : Byte), c = csum8 s ↔ (s.foldl (fun n b => n + b.toNat) c.toNat) % 256 = 0

/-- R110, R142, R144: the frame the encoder returns: its bytes, its length field, its sum and its checksum. -/
def Obligations.EncodedFrameShape : Prop :=
  ∀ (p : Params) (boot cmd addr : Byte) (addressed : Bool) (P F : List Byte),
    encodeFrame p boot cmd addressed addr P = some F →
    let h := if addressed then 2 else 1
    F.length = P.length + h + 3 ∧ (F.getD 1 0).toNat = F.length - 2 ∧
    (F.getD 1 0).toNat = (if addressed then 3 else 2) + P.length ∧
    F[0]? = some boot ∧ F[2]? = some cmd ∧ (addressed = true → F[3]? = some addr) ∧
    (∀ i < P.length, F[2 + h + i]? = P[i]?) ∧
    sum8 F = 0 ∧ F[F.length - 1]? = some (csum8 (F.take (F.length - 1)))

/-- R143: the encoder returns InvalidSize exactly when the payload is longer than its shape's limit; with the default
limits, 252 and 251, no frame has more than 256 bytes. -/
def Obligations.PayloadLimitDecides : Prop :=
  (∀ (p : Params) (boot cmd addr : Byte) (addressed : Bool) (P : List Byte),
    encodeFrame p boot cmd addressed addr P = none ↔
      P.length > (if addressed then p.maxPayloadAddr.val else p.maxPayloadUnaddr.val)) ∧
  defaultParams.maxPayloadUnaddr.val = 252 ∧ defaultParams.maxPayloadAddr.val = 251 ∧
  (∀ (boot cmd addr : Byte) (addressed : Bool) (P F : List Byte),
    encodeFrame defaultParams boot cmd addressed addr P = some F → F.length ≤ 256)

/-- R146, R147, R148: when the decoder answers Truncated, Malformed and Mismatch. -/
def Obligations.DecodeFailureConditions : Prop :=
  ∀ (F : Nat → Byte) (n : Nat) (addressed : Bool),
    let L := (F 1).toNat
    let h := if addressed then 2 else 1
    let calc8 := csum8 ((List.range (L + 1)).map F)
    (decodeFrame F n addressed = .truncated ↔ n < 2 ∨ n < 2 + L) ∧
    (decodeFrame F n addressed = .malformed ↔ ¬(n < 2 ∨ n < 2 + L) ∧ L < h + 1) ∧
    (∀ r c : Byte, decodeFrame F n addressed = .mismatch r c ↔
      ¬(n < 2 ∨ n < 2 + L) ∧ ¬(L < h + 1) ∧ r = F (L + 1) ∧ c = calc8 ∧ c ≠ r)

/-- R149, R151: the fields of a good frame, whatever its length field, and that no encoder limit bounds it. -/
def Obligations.DecodedFieldsSplit : Prop :=
  ∀ (F : Nat → Byte) (n : Nat) (addressed : Bool),
    let L := (F 1).toNat
    let h := if addressed then 2 else 1
    2 + L ≤ n → h + 1 ≤ L → F (L + 1) = csum8 ((List.range (L + 1)).map F) →
    ∃ d : Fields, decodeFrame F n addressed = .ok d ∧ d.boot = F 0 ∧ d.lfield = F 1 ∧ d.cmd = F 2 ∧
      d.addr = (if addressed then F 3 else 0) ∧ d.plen = L - h - 1 ∧
      d.plen ≤ (if addressed then 252 else 253) ∧ d.payload.length = d.plen ∧
      (∀ i < d.plen, d.payload[i]? = some (F (2 + h + i))) ∧ d.recvSum = F (L + 1) ∧ d.calcSum = d.recvSum

/-- R152: decoding an encoded frame in its own shape gives back its boot code, command code, address and payload. -/
def Obligations.CodecRoundTrip : Prop :=
  ∀ (p : Params) (boot cmd addr : Byte) (addressed : Bool) (P F : List Byte),
    encodeFrame p boot cmd addressed addr P = some F →
    decodeFrame (fun i => F.getD i 0) F.length addressed =
      .ok { boot := boot, lfield := BitVec.ofNat 8 (F.length - 2), cmd := cmd, addr := if addressed then addr else 0,
            plen := P.length, payload := P, recvSum := F.getD (F.length - 1) 0, calcSum := F.getD (F.length - 1) 0 }

/-- R153: what flipping one bit of an encoded frame does to its decoding: Mismatch for every byte but the length field;
for the length field Truncated, Malformed, or Mismatch unless the shorter prefix happens to sum to 0. -/
def Obligations.SingleBitFlip : Prop :=
  ∀ (p : Params) (boot cmd addr : Byte) (addressed : Bool) (P F : List Byte) (j k : Nat),
    encodeFrame p boot cmd addressed addr P = some F → j < F.length → k < 8 →
    let G := F.set j (F.getD j 0 ^^^ BitVec.twoPow 8 k)
    let o := decodeFrame (fun i => G.getD i 0) G.length addressed
    let L := (F.getD 1 0).toNat
    let L' := (G.getD 1 0).toNat
    (j ≠ 1 → ∃ r c : Byte, o = .mismatch r c) ∧
    (j = 1 →
      (L < L' → o = .truncated) ∧
      (L' < (if addressed then 3 else 2) → o = .malformed) ∧
      ((if addressed then 3 else 2) ≤ L' → L' ≤ L →
        (sum8 (G.take (L' + 2)) ≠ 0 → ∃ r c : Byte, o = .mismatch r c) ∧
        (sum8 (G.take (L' + 2)) = 0 → ∃ d : Fields, o = .ok d ∧ d.plen < P.length)))

/-! ### The transport -/

/-- R184: the Accept step. (The short read of the same clock, and a byte asserted in it, are the concern of
SignalsCountInTheirPhase.) -/
def Obligations.AcceptStepSendsOneByte : Prop :=
  ∀ s : State, nextTurn s = .transport ⟨false, true, false, false⟩ →
    s.fcd.phase = .tx → s.fcd.txCount.toNat < bufSize .frame →
    step s = .next { s with
      turns := s.turns.tail
      sent := s.sent ++ [s.fcd.buf .frame s.fcd.txCount.toNat]
      fcd := { s.fcd with
        txCount := s.fcd.txCount + 1
        phase := if s.fcd.txCount + 1 = s.fcd.frameLen then .rx else .tx } }

/-- R186: the Deliver step: in a safe state the index is inside RXF_BUF, the byte goes to RXF_BUF[RXF_COUNT], and the
phase becomes COMMIT exactly when the frame is complete. -/
def Obligations.DeliverStepTakesOneByte : Prop :=
  ∀ (s : State) (sig : Signals) (b : Byte) (rest : List Byte), Safe s → nextTurn s = .transport sig →
    sig.err = false → sig.valid = true → sig.short = false → s.fcd.phase = .rx → s.held = b :: rest →
    s.fcd.rxfCount.toNat < bufSize .rxf ∧
    ∃ t : State, step s = .next t ∧
      t.fcd.buf .rxf s.fcd.rxfCount.toNat = b ∧
      (∀ (c : Buf) (j : Nat), j < bufSize c → ¬(c = .rxf ∧ j = s.fcd.rxfCount.toNat) →
        t.fcd.buf c j = s.fcd.buf c j) ∧
      t.fcd.rxfCount.toNat = s.fcd.rxfCount.toNat + 1 ∧
      t.fcd.phase =
        (if 2 ≤ t.fcd.rxfCount.toNat ∧ t.fcd.rxfCount.toNat = 2 + (t.fcd.buf .rxf 1).toNat then .commit else .rx) ∧
      t = { s with
        turns := s.turns.tail
        held := rest
        fcd := { s.fcd with rxfCount := t.fcd.rxfCount, phase := t.fcd.phase, mem := t.fcd.mem } }

/-- R187: a short read in phase RX of a safe state goes to COMMIT, and the engine's step there ends the operation with
TRUNCATED_FRAME, before 2 bytes have arrived as well; nothing else is written. -/
def Obligations.ShortReadEndsTruncated : Prop :=
  ∀ (s : State) (sig : Signals) (rest : List Turn), Safe s → s.turns = .transport sig :: .engine :: rest →
    sig.err = false → sig.valid = false → sig.short = true → s.fcd.phase = .rx →
    step s = .next { s with turns := .engine :: rest, fcd := { s.fcd with phase := .commit } } ∧
    step { s with turns := .engine :: rest, fcd := { s.fcd with phase := .commit } } =
      .next { s with
        turns := rest
        fcd := { s.fcd with result := .truncatedFrame, busy := false, done := true, phase := .idle } }

/-- R188: a transport error in phase TX or RX ends the operation with TRANSPORT_ERROR, whatever else is asserted in that
clock; the counters and buffers keep what they reached, and no byte moves. -/
def Obligations.TransportErrorEndsOperation : Prop :=
  ∀ (s : State) (sig : Signals), nextTurn s = .transport sig → sig.err = true →
    s.fcd.phase = .tx ∨ s.fcd.phase = .rx →
    step s = .next { s with
      turns := s.turns.tail
      fcd := { s.fcd with result := .transportError, busy := false, done := true, phase := .idle } }

/-- R7, R24, R187, R188, R189: outside TX and RX every signal is ignored, in TX `rx_valid` is, in RX `tx_ready` is, and in
TX a short read asserted alone is. Of several signals in one clock the error comes first and the rest is ignored; else the
handshake and the short read are two steps in that order, and the short read counts if the phase is RX at its step, the
last Accept's clock included. That one clock has one handshake, so that `rx_valid` in the clock of the last Accept
delivers nothing, is the model's reading (assumptions/9). -/
def Obligations.SignalsCountInTheirPhase : Prop :=
  ∀ (s : State) (sig : Signals), nextTurn s = .transport sig →
    let withSignals := fun (x : Signals) => { s with turns := .transport x :: s.turns.tail }
    let shortTurn : Turn := .transport ⟨false, false, false, true⟩
    (s.fcd.phase = .idle ∨ s.fcd.phase = .check ∨ s.fcd.phase = .commit →
      step s = .next { s with turns := s.turns.tail }) ∧
    (s.fcd.phase = .tx → sig.err = false → sig.ready = false → step s = .next { s with turns := s.turns.tail }) ∧
    (s.fcd.phase = .tx → step s = step (withSignals { sig with valid := false })) ∧
    (s.fcd.phase = .rx → step s = step (withSignals { sig with ready := false })) ∧
    (s.fcd.phase = .tx ∨ s.fcd.phase = .rx → sig.err = true → step s = step (withSignals ⟨true, false, false, false⟩)) ∧
    (s.fcd.phase = .rx → sig.err = false → sig.valid = false → sig.short = false →
      step s = .next { s with turns := s.turns.tail }) ∧
    (s.fcd.phase = .rx → sig.err = false → sig.valid = false → sig.short = true →
      step s = .next { s with turns := s.turns.tail, fcd := { s.fcd with phase := .commit } }) ∧
    (∀ t : State, sig.err = false → sig.short = true →
      (s.fcd.phase = .tx ∧ sig.ready = true) ∨ (s.fcd.phase = .rx ∧ sig.valid = true) →
      step (withSignals { sig with short := false }) = .next t →
      step s = .next { t with turns := shortTurn :: t.turns } ∧
      step { t with turns := shortTurn :: t.turns } =
        .next (if t.fcd.phase = .rx then { t with fcd := { t.fcd with phase := .commit } } else t))

/-- R23, R72, R87, R88, R265, R294, R303: over every step, the request stream grows only in phase TX, by the byte
FRAME_BUF[TX_COUNT]; the bytes the transport holds grow by what arrives, and unless they are drained lose one only in
phase RX, from the front. `link_up` changes on a turn that opens or closes the transport alone, to the level that turn
gives (R23, R294); that such a turn keeps the bytes the transport holds is the model's choice (assumptions/21). -/
def Obligations.StreamsMoveOnlyInTheirPhases : Prop :=
  ∀ s t : State, step s = .next t →
    (t.sent = s.sent ∨
      s.fcd.phase = .tx ∧ t.sent = s.sent ++ [s.fcd.buf .frame s.fcd.txCount.toNat] ∧
        t.fcd.txCount = s.fcd.txCount + 1) ∧
    (t.held = s.held ∨ (∃ bytes : List Byte, nextTurn s = .arrive bytes ∧ t.held = s.held ++ bytes) ∨
      (nextTurn s = .drain ∧ t.held = []) ∨
      s.fcd.phase = .rx ∧ (∃ b : Byte, s.held = b :: t.held) ∧ t.fcd.rxfCount = s.fcd.rxfCount + 1) ∧
    (∀ up : Bool, nextTurn s = .link up → t = { s with turns := s.turns.tail, linkUp := up }) ∧
    ((∀ up : Bool, nextTurn s ≠ .link up) → t.linkUp = s.linkUp)

/-! ### Phase COMMIT -/

/-- R157, R190: the COMMIT step decodes RXF_BUF in the request's shape; a frame that does not decode ends the operation
with nothing written but the result, and for a mismatch the two checksums. -/
def Obligations.CommitOfBadFrame : Prop :=
  ∀ s : State, nextTurn s = .engine → s.fcd.phase = .commit →
    let f := s.fcd
    let o := decodeFrame (f.buf .rxf) f.rxfCount.toNat f.addressed
    let ends := fun (g : Fcd) (x : ResultCode) =>
      step s = .next { s with
        turns := s.turns.tail, fcd := { g with result := x, busy := false, done := true, phase := .idle } }
    (o = .truncated → ends f .truncatedFrame) ∧
    (o = .malformed → ends f .malformedFrame) ∧
    (∀ r c : Byte, o = .mismatch r c → ends { f with respCsum := r, calcCsum := c } .checksumMismatch)

/-- R173, R192, R193: the COMMIT step on a good frame with boot code 0xF4: MALFORMED_FRAME for an empty payload, in a
safe state with ERR_CODE and ERR_CAT 0; else ERR_CODE and ERR_CAT from payload byte 0, and EMPTY for code 0x02 in
INVENTORY, READ and WRITE, DEVICE_ERROR otherwise. From a safe state TAG_COUNT, READ_PRESENT and WRITE_OK are 0. -/
def Obligations.FailureResponseClassified : Prop :=
  ∀ (s : State) (d : Fields), nextTurn s = .engine → s.fcd.phase = .commit →
    decodeFrame (s.fcd.buf .rxf) s.fcd.rxfCount.toNat s.fcd.addressed = .ok d → d.boot = 0xF4 →
    ∃ t : State, step s = .next t ∧ holdsBytes t.fcd .resp d.payload ∧
      sameBytesBut s.fcd t.fcd .resp d.payload.length ∧
      let frame : Fcd := { s.fcd with
        respBoot := d.boot, respLfield := d.lfield, respCmd := d.cmd, respAddr := d.addr,
        respPlen := BitVec.ofNat 8 d.plen, respCsum := d.recvSum, calcCsum := d.calcSum, respValid := true,
        busy := false, done := true, phase := .idle, mem := t.fcd.mem }
      (Safe s → t.fcd.tagCount = 0 ∧ t.fcd.readPresent = false ∧ t.fcd.writeOk = false) ∧
      (d.plen = 0 →
        t = { s with turns := s.turns.tail, fcd := { frame with result := .malformedFrame } } ∧
        (Safe s → t.fcd.errCode = 0 ∧ categoryByte t.fcd.errCat = 0)) ∧
      (∀ code : Byte, d.payload[0]? = some code →
        t = { s with
          turns := s.turns.tail
          fcd := { frame with
            errCode := code
            errCat := errCatalog s.fcd.params code
            result :=
              if code = 0x02 ∧ (s.fcd.ctrlOp = 2 ∨ s.fcd.ctrlOp = 3 ∨ s.fcd.ctrlOp = 4) then .empty
              else .deviceError } })

/-- R191, R196, R242, R247: the COMMIT step of SEND, READ and WRITE on a good frame with any boot code but 0xF4 ends OK,
with READ_PRESENT = 1 for READ and WRITE_OK = 1 for WRITE. -/
def Obligations.SuccessResponseHandled : Prop :=
  ∀ (s : State) (d : Fields), nextTurn s = .engine → s.fcd.phase = .commit →
    s.fcd.ctrlOp = 1 ∨ s.fcd.ctrlOp = 3 ∨ s.fcd.ctrlOp = 4 →
    decodeFrame (s.fcd.buf .rxf) s.fcd.rxfCount.toNat s.fcd.addressed = .ok d → d.boot ≠ 0xF4 →
    ∃ t : State, step s = .next t ∧ holdsBytes t.fcd .resp d.payload ∧
      sameBytesBut s.fcd t.fcd .resp d.payload.length ∧
      t = { s with
        turns := s.turns.tail
        fcd := { s.fcd with
          respBoot := d.boot, respLfield := d.lfield, respCmd := d.cmd, respAddr := d.addr,
          respPlen := BitVec.ofNat 8 d.plen, respCsum := d.recvSum, calcCsum := d.calcSum, respValid := true,
          readPresent := if s.fcd.ctrlOp = 3 then true else s.fcd.readPresent
          writeOk := if s.fcd.ctrlOp = 4 then true else s.fcd.writeOk
          result := .ok, busy := false, done := true, phase := .idle, mem := t.fcd.mem } }

/-- R213, R214: the COMMIT step of INVENTORY on a good frame with any boot code but 0xF4: the tag table and TAG_COUNT from
the parsed records and OK, or MALFORMED_INVENTORY with the tag table and TAG_COUNT untouched. -/
def Obligations.InventoryResponseHandled : Prop :=
  ∀ (s : State) (d : Fields), nextTurn s = .engine → s.fcd.phase = .commit → s.fcd.ctrlOp = 2 →
    decodeFrame (s.fcd.buf .rxf) s.fcd.rxfCount.toNat s.fcd.addressed = .ok d → d.boot ≠ 0xF4 →
    ∃ t : State, step s = .next t ∧ holdsBytes t.fcd .resp d.payload ∧
      let frame : Fcd := { s.fcd with
        respBoot := d.boot, respLfield := d.lfield, respCmd := d.cmd, respAddr := d.addr,
        respPlen := BitVec.ofNat 8 d.plen, respCsum := d.recvSum, calcCsum := d.calcSum, respValid := true,
        busy := false, done := true, phase := .idle, mem := t.fcd.mem }
      (parseInventory (fun i => d.payload.getD i 0) d.plen = none →
        sameBytesBut s.fcd t.fcd .resp d.plen ∧
        t = { s with turns := s.turns.tail, fcd := { frame with result := .malformedInventory } }) ∧
      (∀ recs : List (Nat × Nat), parseInventory (fun i => d.payload.getD i 0) d.plen = some recs →
        (∀ (i : Nat) (h : i < recs.length),
          (t.fcd.buf .tagOff i).toNat = recs[i].1 ∧ (t.fcd.buf .tagWords i).toNat = recs[i].2) ∧
        (∀ (c : Buf) (j : Nat), j < bufSize c → ¬(c = .resp ∧ j < d.plen) → ¬(c = .tagOff ∧ j < recs.length) →
          ¬(c = .tagWords ∧ j < recs.length) → t.fcd.buf c j = s.fcd.buf c j) ∧
        t.fcd.tagCount.toNat = recs.length ∧
        t = { s with
          turns := s.turns.tail, fcd := { frame with tagCount := t.fcd.tagCount, result := .ok } })

/-! ### The inventory parser -/

/-- R212, R214, R218: when the inventory parser answers which records: exactly when the payload is not empty and they are
numTags records in order, the first identifier at offset 2, each next one after its predecessor and one separator, each
length its wordCount byte, and every identifier inside the payload. And when it answers Bad: exactly when the payload is
empty, or after fewer than numTags such records the next wordCount byte lies at or beyond the payload's end or its
identifier would run past it. -/
def Obligations.InventoryRecordsInOrder : Prop :=
  ∀ (P : Nat → Byte) (p : Nat),
    let good := fun recs : List (Nat × Nat) =>
      (∀ r : Nat × Nat, recs[0]? = some r → r.1 = 2) ∧
      (∀ (i : Nat) (r q : Nat × Nat), recs[i]? = some r → recs[i + 1]? = some q → q.1 = r.1 + 2 * r.2 + 2) ∧
      (∀ (i : Nat) (r : Nat × Nat), recs[i]? = some r → r.2 = (P (r.1 - 1)).toNat ∧ r.1 + 2 * r.2 ≤ p)
    let cursor := fun recs : List (Nat × Nat) =>
      match recs.getLast? with
      | none => 1
      | some r => r.1 + 2 * r.2 + 1
    (∀ recs : List (Nat × Nat), parseInventory P p = some recs ↔
      p ≠ 0 ∧ recs.length = (P 0).toNat ∧ good recs) ∧
    (parseInventory P p = none ↔
      p = 0 ∨ ∃ recs : List (Nat × Nat), recs.length < (P 0).toNat ∧ good recs ∧
        (p ≤ cursor recs ∨ p < cursor recs + 1 + 2 * (P (cursor recs)).toNat))

/-- R215, R216: the parser reads numTags and the wordCount bytes alone: a payload that agrees with a good one on those
parses alike, whatever its identifiers, separators and trailing bytes. -/
def Obligations.ParserReadsOnlyCounts : Prop :=
  ∀ (P Q : Nat → Byte) (p : Nat) (recs : List (Nat × Nat)), parseInventory P p = some recs → Q 0 = P 0 →
    (∀ r ∈ recs, Q (r.1 - 1) = P (r.1 - 1)) → parseInventory Q p = some recs

/-- R219: the bounds of the tag table entries of a payload of at most 253 bytes, and that more than 126 declared tags
never parse. -/
def Obligations.InventoryBounds : Prop :=
  ∀ (P : Nat → Byte) (p : Nat), p ≤ 253 →
    (∀ recs : List (Nat × Nat), parseInventory P p = some recs →
      ∀ r ∈ recs, r.1 - 1 + 2 + 2 * r.2 ≤ p + 1 ∧ r.1 ≤ p ∧ 2 * r.2 ≤ p - (r.1 - 1) - 1 ∧ r.2 ≤ 125) ∧
    (∀ recs : List (Nat × Nat), parseInventory P p = some recs → recs.length ≤ 126) ∧
    ((P 0).toNat > 126 → parseInventory P p = none)

/-! ### The error catalog -/

/-- R171, R172, R176: under every catalog code 0x02 is "no tag detected" and 0x09 "wrong password", and every value is
one of the nineteen bytes of R172; under the default one codes 0x00 to 0x11 are their own byte and the rest 0xFF. -/
def Obligations.CatalogLaws : Prop :=
  (∀ p : Params, categoryByte (errCatalog p 0x02) = 0x02 ∧ categoryByte (errCatalog p 0x09) = 0x09) ∧
  (∀ (p : Params) (code : Byte), (categoryByte (errCatalog p code)).toNat ≤ 0x11 ∨
    categoryByte (errCatalog p code) = 0xFF) ∧
  (∀ code : Byte, categoryByte (errCatalog defaultParams code) = if code.toNat ≤ 0x11 then code else 0xFF)

/-! ### Reset -/

/-- R56, R290: a clock with `rst` = 1 in any state, and the state the model starts from: every register at its reset
value, phase IDLE, no output asserted, no result; the transport keeps its bytes and what it has accepted. That a reset
leaves the host's program and `hb_rdata` as they are is the model's choice (assumptions/16 and 20). -/
def Obligations.ResetState : Prop :=
  let isReset := fun (f : Fcd) =>
    (∀ r : Reg, f.readReg r = if r = .boot then 0x40 else 0) ∧ f.phase = .idle ∧ f.busy = false ∧ f.done = false ∧
    f.collide = false ∧ f.result = .none ∧ f.frameLen = 0 ∧ f.rxfCount = 0 ∧ f.txCount = 0 ∧
    txValid f = false ∧ rxReady f = false ∧ irq f = false
  isReset State.reset.fcd ∧
  ∀ s : State, nextTurn s = .reset →
    ∃ t : State, step s = .next t ∧ isReset t.fcd ∧ t.fcd.params = s.fcd.params ∧
      t = { s with turns := s.turns.tail, fcd := t.fcd }

/-- R57: after a clock with `rst` = 1 every buffer byte reads the draw of that reset, and no other step makes new draws.
That a reset makes new draws is the model's reading (assumptions/2). -/
def Obligations.BufferDrawsStable : Prop :=
  (∀ s : State, nextTurn s = .reset → ∃ t : State, step s = .next t ∧
    ∀ (b : Buf) (j : Nat), j < bufSize b →
      t.fcd.buf b j = Config.resetDraw (s.fcd.epoch + 1) (bufBase b + j)) ∧
  (∀ s t : State, step s = .next t → nextTurn s ≠ .reset → t.fcd.epoch = s.fcd.epoch)

/-! ### The whole machine -/

/-- The state after reset is safe. -/
def Obligations.SafeAtReset : Prop := Safe State.reset

/-- R32, R33, R43, R44, R46, R50, R184, R186, R193, R248: every step from a safe state leads to a safe one. -/
def Obligations.StepKeepsSafe : Prop :=
  ∀ s t : State, Safe s → step s = .next t → Safe t

/-- R21, R71, R261: a step from a safe state never faults, and it is refused only for a line of the host's program that
is no host instruction or asserts both strobes. The refusal for both strobes is R21's; those of a word that does not
decode and of a wire command code on the host bus are the model's choice (assumptions/13), and the faults it rules out
are the model's names for states with no step (assumptions/12). -/
def Obligations.SafeNeverFaults : Prop :=
  ∀ s : State, Safe s →
    (∃ t : State, step s = .next t) ∨
    (nextTurn s = .host ∧
      ((∃ (a : HostAddr) (d : Byte) (rest : List HostItem),
          s.program = .bothStrobes a d :: rest ∧ step s = .refused .bothStrobes) ∨
       (∃ (sl : Slot) (rest : List HostItem), s.program = .word sl :: rest ∧
          ((sl.fmt = .wireFrame ∧ step s = .refused .wireCodeOnHostBus) ∨
           ∃ e : DecodeError, decode sl = .error e ∧ step s = .refused (.undecodable e)))))

/-- R260, R262, R270: whatever step but a reset takes an operation out of progress is its end: RESULT is a result code,
DONE = 1, the phase is IDLE, and COLLIDE keeps its value. -/
def Obligations.EveryEndHasAResult : Prop :=
  ∀ s t : State, Safe s → step s = .next t → nextTurn s ≠ .reset → s.fcd.busy = true → t.fcd.busy = false →
    t.fcd.result ≠ .none ∧ t.fcd.done = true ∧ t.fcd.phase = .idle ∧ t.fcd.collide = s.fcd.collide

/-- R6, R275, R276: only the host starts an operation, and nothing but an operation's end raises DONE. -/
def Obligations.OnlyTheHostStarts : Prop :=
  ∀ s t : State, Safe s → step s = .next t →
    (s.fcd.phase = .idle → t.fcd.phase ≠ .idle → nextTurn s = .host ∧ t.fcd.phase = .check) ∧
    (s.fcd.done = false → t.fcd.done = true → s.fcd.busy = true ∧ t.fcd.busy = false)

/-- R88, R185, R186, R197, R315: a whole exchange. From the start of phase TX, when the transport accepts FRAME_LEN bytes
and then delivers a complete response of the bytes it holds, the request stream has grown by FRAME_BUF[0 .. FRAME_LEN)
in order, RXF_BUF holds the response in order, the bytes beyond it stay with the transport, and after the COMMIT step
the operation has ended. -/
def Obligations.WholeExchange : Prop :=
  ∀ (s : State) (resp extra : List Byte) (rest : List Turn), Safe s → s.fcd.phase = .tx → s.fcd.txCount = 0 →
    2 ≤ resp.length → resp.length = 2 + (resp.getD 1 0).toNat → s.held = resp ++ extra →
    s.turns = List.replicate s.fcd.frameLen.toNat (.transport ⟨false, true, false, false⟩) ++
      List.replicate resp.length (.transport ⟨false, false, true, false⟩) ++ .engine :: rest →
    ∃ t : State, Host.Core.run core (s.fcd.frameLen.toNat + resp.length + 1) s = .next t ∧
      t.sent = s.sent ++ s.fcd.slice .frame s.fcd.frameLen.toNat ∧ t.held = extra ∧ holdsBytes t.fcd .rxf resp ∧
      t.fcd.txCount = s.fcd.frameLen ∧ t.fcd.rxfCount.toNat = resp.length ∧ t.fcd.phase = .idle ∧
      t.fcd.done = true ∧ t.fcd.busy = false ∧ t.fcd.result ≠ .none ∧ t.turns = rest

/-- R152, R155, R156: on the machine, ENCODE followed by DECODE recovers the boot code, command code, address and
payload, for every payload within the limit. -/
def Obligations.EncodeThenDecodeRecovers : Prop :=
  ∀ (s : State) (rest : List HostItem) (later : List Turn), s.fcd.busy = false →
    s.program = .word (encode .encode) :: .word (encode .decode) :: rest →
    s.turns = [.host, .engine, .host, .engine] ++ later →
    s.fcd.payloadLen.toNat ≤
      (if s.fcd.addr = 0 then s.fcd.params.maxPayloadUnaddr.val else s.fcd.params.maxPayloadAddr.val) →
    ∃ t : State, Host.Core.run core 4 s = .next t ∧ t.fcd.result = .ok ∧ t.fcd.done = true ∧ t.fcd.busy = false ∧
      t.fcd.respBoot = s.fcd.boot ∧ t.fcd.respCmd = s.fcd.cmdCode ∧ t.fcd.respAddr = s.fcd.addr ∧
      t.fcd.respPlen = s.fcd.payloadLen ∧
      (∀ i < s.fcd.payloadLen.toNat, t.fcd.buf .resp i = s.fcd.buf .payload i) ∧
      t.fcd.respValid = true ∧ t.fcd.respCsum = t.fcd.calcCsum
end

