-- ==== Sys2Proof/Laws/Memory.lean ====
section
/-! SUPPORT. The buffer memory: read after write, and that every write keeps the canonical form. -/

namespace Sys2Proof.Laws

open Sys2Proof.Machine

@[simp] theorem memGet_memSet_same (m : List Host.Cell) (a : Nat) (v : Byte) : memGet (memSet m a v) a = some v := by
  induction m with
  | nil => simp [memSet, memGet]
  | cons c rest ih =>
    simp only [memSet]
    split
    · simp [memGet]
    · split
      · simp [memGet]
      · rename_i h1 h2
        have : c.1 ≠ a := fun h => h2 h.symm
        simp [memGet, this, ih]

theorem memGet_memSet_other (m : List Host.Cell) {a b : Nat} (v : Byte) (h : b ≠ a) :
    memGet (memSet m a v) b = memGet m b := by
  induction m with
  | nil => simp [memSet, memGet, Ne.symm h]
  | cons c rest ih =>
    simp only [memSet]
    split
    · simp [memGet, Ne.symm h]
    · split
      · rename_i h2
        have : c.1 ≠ b := fun hc => h (hc.symm.trans h2.symm)
        simp [memGet, Ne.symm h, this]
      · simp only [memGet, ih]

theorem memRising_memSet {lo : Nat} {m : List Host.Cell} {a : Nat} {v : Byte} (h : memRising lo m = true)
    (ha : lo < a) : memRising lo (memSet m a v) = true := by
  induction m generalizing lo with
  | nil => simp [memSet, memRising, ha]
  | cons c rest ih =>
    simp only [memRising, Bool.and_eq_true, decide_eq_true_eq] at h
    simp only [memSet]
    split
    · rename_i h1
      simp [memRising, ha, h1, h.2]
    · split
      · rename_i h2
        subst h2
        simp [memRising, ha, h.2]
      · simp only [memRising, Bool.and_eq_true, decide_eq_true_eq]
        exact ⟨h.1, ih h.2 (by omega)⟩

theorem all_memSet {p : Host.Cell → Bool} {m : List Host.Cell} {a : Nat} {v : Byte} (h : m.all p = true)
    (ha : p (a, v) = true) : (memSet m a v).all p = true := by
  induction m with
  | nil => simp [memSet, ha]
  | cons c rest ih =>
    simp only [List.all_cons, Bool.and_eq_true] at h
    simp only [memSet]
    split
    · simp [ha, h.1, h.2]
    · split
      · simp [ha, h.2]
      · simp [h.1, ih h.2]

/-- Every byte of every buffer stands at a buffer address. -/
theorem isBufAddr_of_index {b : Buf} {i : Nat} (h : i < bufSize b) : isBufAddr (bufBase b + i) = true := by
  have key : ∀ b : Buf, ∀ i < 257, i < bufSize b → isBufAddr (bufBase b + i) = true := by
    intro b; cases b <;> decide +kernel
  exact key b i (by cases b <;> simp only [bufSize] at h <;> omega) h

theorem memWf_memSet {m : List Host.Cell} {a : Nat} {v : Byte} (h : memWf m = true) (ha : isBufAddr a = true) :
    memWf (memSet m a v) = true := by
  simp only [memWf, Bool.and_eq_true] at h ⊢
  have h0 : 0 < a := by
    rcases Nat.eq_zero_or_pos a with h0 | h0
    · subst h0; exact absurd ha (by decide)
    · exact h0
  exact ⟨memRising_memSet h.1 h0, all_memSet h.2 ha⟩

theorem setBuf_memWf {f : Fcd} (b : Buf) (i : Nat) (v : Byte) (h : memWf f.mem = true) :
    memWf (f.setBuf b i v).mem = true := by
  unfold Fcd.setBuf
  split
  · rename_i hi
    exact memWf_memSet h (isBufAddr_of_index hi)
  · exact h

theorem setBufs_memWf {f : Fcd} (b : Buf) (i : Nat) (l : List Byte) (h : memWf f.mem = true) :
    memWf (f.setBufs b i l).mem = true := by
  induction l generalizing f i with
  | nil => exact h
  | cons v rest ih => exact ih (i + 1) (setBuf_memWf b i v h)

/-- Two buffer bytes at one address are the same byte. -/
theorem bufBase_add_inj {b c : Buf} {i j : Nat} (hi : i < bufSize b) (hj : j < bufSize c)
    (h : bufBase b + i = bufBase c + j) : b = c ∧ i = j := by
  cases b <;> cases c <;> simp only [bufBase, bufSize] at hi hj h <;> first | exact ⟨rfl, by omega⟩ | omega

@[simp] theorem buf_setBuf_same (f : Fcd) (b : Buf) (i : Nat) (v : Byte) (h : i < bufSize b) :
    (f.setBuf b i v).buf b i = v := by
  simp [Fcd.buf, Fcd.setBuf, h]

theorem buf_setBuf_other (f : Fcd) {b c : Buf} {i j : Nat} (v : Byte) (hj : j < bufSize c) (h : ¬(c = b ∧ j = i)) :
    (f.setBuf b i v).buf c j = f.buf c j := by
  unfold Fcd.setBuf
  split
  · rename_i hi
    have : bufBase c + j ≠ bufBase b + i := fun he => h (bufBase_add_inj hj hi he)
    simp [Fcd.buf, memGet_memSet_other _ _ this]
  · rfl

/-- A run of bytes written from index `i` on is read back byte by byte. -/
theorem buf_setBufs_inside (f : Fcd) (b : Buf) (i : Nat) (l : List Byte) (h : i + l.length ≤ bufSize b) (k : Nat)
    (hk : k < l.length) : (f.setBufs b i l).buf b (i + k) = l[k] := by
  induction l generalizing f i k with
  | nil => simp at hk
  | cons v rest ih =>
    simp only [List.length_cons] at h hk
    have hout : ∀ (g : Fcd) (j : Nat) (l : List Byte), i < j → (g.setBufs b j l).buf b i = g.buf b i := by
      intro g j l
      induction l generalizing g j with
      | nil => intros; rfl
      | cons w r ih2 =>
        intro hlt
        rw [Fcd.setBufs, ih2 _ _ (by omega), buf_setBuf_other _ _ (by omega) (by omega)]
    cases k with
    | zero =>
      have hb : i < bufSize b := by omega
      simp only [Fcd.setBufs, Nat.add_zero, List.getElem_cons_zero]
      rw [hout _ _ _ (Nat.lt_succ_self i)]
      exact buf_setBuf_same f b i v hb
    | succ k =>
      have := ih (f.setBuf b i v) (i + 1) (by omega) k (by omega)
      simp only [Fcd.setBufs, List.getElem_cons_succ]
      rw [← this]
      congr 1
      omega

/-- A run of bytes written to a buffer leaves every other buffer byte alone. -/
theorem buf_setBufs_outside (f : Fcd) (b : Buf) (i : Nat) (l : List Byte) {c : Buf} {j : Nat} (hj : j < bufSize c)
    (h : c ≠ b ∨ j < i ∨ i + l.length ≤ j) : (f.setBufs b i l).buf c j = f.buf c j := by
  induction l generalizing f i with
  | nil => rfl
  | cons v rest ih =>
    simp only [List.length_cons] at h
    rw [Fcd.setBufs, ih _ _ (by rcases h with h | h | h <;> [exact .inl h; exact .inr (.inl (by omega)); exact .inr (.inr (by omega))]),
      buf_setBuf_other _ _ hj]
    rintro ⟨hc, hji⟩
    rcases h with h | h | h
    · exact h hc
    · omega
    · omega

/-- A slice that was written whole reads back as written. -/
theorem slice_setBufs (f : Fcd) (b : Buf) (l : List Byte) (h : l.length ≤ bufSize b) :
    (f.setBufs b 0 l).slice b l.length = l := by
  apply List.ext_getElem
  · simp [Fcd.slice]
  · intro k h1 h2
    have := buf_setBufs_inside f b 0 l (by omega) k h2
    simpa [Fcd.slice] using this

/-- Writing buffer bytes changes the memory and nothing else. -/
theorem setBufs_eq (f : Fcd) (b : Buf) (i : Nat) (l : List Byte) :
    f.setBufs b i l = { f with mem := (f.setBufs b i l).mem } := by
  induction l generalizing f i with
  | nil => rfl
  | cons v rest ih =>
    simp only [Fcd.setBufs]
    rw [ih]
    unfold Fcd.setBuf
    split <;> rfl

theorem setBuf_eq (f : Fcd) (b : Buf) (i : Nat) (v : Byte) :
    f.setBuf b i v = { f with mem := (f.setBuf b i v).mem } := by
  unfold Fcd.setBuf
  split <;> rfl

end Sys2Proof.Laws
end

