-- ==== Sys2Proof/Laws/State.lean ====
section
/-! SUPPORT. One lemma for each field and each update of the state, so that no proof unfolds a record update. -/

namespace Sys2Proof.Laws

open Sys2Proof.Machine

/-! ### Writing buffer bytes -/

@[simp] theorem setBuf_ctrlOp (f : Fcd) (b : Buf) (i : Nat) (v : Byte) : (f.setBuf b i v).ctrlOp = f.ctrlOp := by
  rw [setBuf_eq]
@[simp] theorem setBuf_busy (f : Fcd) (b : Buf) (i : Nat) (v : Byte) : (f.setBuf b i v).busy = f.busy := by
  rw [setBuf_eq]
@[simp] theorem setBuf_done (f : Fcd) (b : Buf) (i : Nat) (v : Byte) : (f.setBuf b i v).done = f.done := by
  rw [setBuf_eq]
@[simp] theorem setBuf_collide (f : Fcd) (b : Buf) (i : Nat) (v : Byte) : (f.setBuf b i v).collide = f.collide := by
  rw [setBuf_eq]
@[simp] theorem setBuf_result (f : Fcd) (b : Buf) (i : Nat) (v : Byte) : (f.setBuf b i v).result = f.result := by
  rw [setBuf_eq]
@[simp] theorem setBuf_cmdCode (f : Fcd) (b : Buf) (i : Nat) (v : Byte) : (f.setBuf b i v).cmdCode = f.cmdCode := by
  rw [setBuf_eq]
@[simp] theorem setBuf_addr (f : Fcd) (b : Buf) (i : Nat) (v : Byte) : (f.setBuf b i v).addr = f.addr := by
  rw [setBuf_eq]
@[simp] theorem setBuf_boot (f : Fcd) (b : Buf) (i : Nat) (v : Byte) : (f.setBuf b i v).boot = f.boot := by
  rw [setBuf_eq]
@[simp] theorem setBuf_payloadLen (f : Fcd) (b : Buf) (i : Nat) (v : Byte) : (f.setBuf b i v).payloadLen = f.payloadLen := by
  rw [setBuf_eq]
@[simp] theorem setBuf_tidLen (f : Fcd) (b : Buf) (i : Nat) (v : Byte) : (f.setBuf b i v).tidLen = f.tidLen := by
  rw [setBuf_eq]
@[simp] theorem setBuf_dataLen (f : Fcd) (b : Buf) (i : Nat) (v : Byte) : (f.setBuf b i v).dataLen = f.dataLen := by
  rw [setBuf_eq]
@[simp] theorem setBuf_pwLen (f : Fcd) (b : Buf) (i : Nat) (v : Byte) : (f.setBuf b i v).pwLen = f.pwLen := by
  rw [setBuf_eq]
@[simp] theorem setBuf_bank (f : Fcd) (b : Buf) (i : Nat) (v : Byte) : (f.setBuf b i v).bank = f.bank := by
  rw [setBuf_eq]
@[simp] theorem setBuf_startWord (f : Fcd) (b : Buf) (i : Nat) (v : Byte) : (f.setBuf b i v).startWord = f.startWord := by
  rw [setBuf_eq]
@[simp] theorem setBuf_wordCount (f : Fcd) (b : Buf) (i : Nat) (v : Byte) : (f.setBuf b i v).wordCount = f.wordCount := by
  rw [setBuf_eq]
@[simp] theorem setBuf_ie (f : Fcd) (b : Buf) (i : Nat) (v : Byte) : (f.setBuf b i v).ie = f.ie := by
  rw [setBuf_eq]
@[simp] theorem setBuf_frameLen (f : Fcd) (b : Buf) (i : Nat) (v : Byte) : (f.setBuf b i v).frameLen = f.frameLen := by
  rw [setBuf_eq]
@[simp] theorem setBuf_respBoot (f : Fcd) (b : Buf) (i : Nat) (v : Byte) : (f.setBuf b i v).respBoot = f.respBoot := by
  rw [setBuf_eq]
@[simp] theorem setBuf_respLfield (f : Fcd) (b : Buf) (i : Nat) (v : Byte) : (f.setBuf b i v).respLfield = f.respLfield := by
  rw [setBuf_eq]
@[simp] theorem setBuf_respCmd (f : Fcd) (b : Buf) (i : Nat) (v : Byte) : (f.setBuf b i v).respCmd = f.respCmd := by
  rw [setBuf_eq]
@[simp] theorem setBuf_respAddr (f : Fcd) (b : Buf) (i : Nat) (v : Byte) : (f.setBuf b i v).respAddr = f.respAddr := by
  rw [setBuf_eq]
@[simp] theorem setBuf_respPlen (f : Fcd) (b : Buf) (i : Nat) (v : Byte) : (f.setBuf b i v).respPlen = f.respPlen := by
  rw [setBuf_eq]
@[simp] theorem setBuf_respCsum (f : Fcd) (b : Buf) (i : Nat) (v : Byte) : (f.setBuf b i v).respCsum = f.respCsum := by
  rw [setBuf_eq]
@[simp] theorem setBuf_calcCsum (f : Fcd) (b : Buf) (i : Nat) (v : Byte) : (f.setBuf b i v).calcCsum = f.calcCsum := by
  rw [setBuf_eq]
@[simp] theorem setBuf_addressed (f : Fcd) (b : Buf) (i : Nat) (v : Byte) : (f.setBuf b i v).addressed = f.addressed := by
  rw [setBuf_eq]
@[simp] theorem setBuf_writeOk (f : Fcd) (b : Buf) (i : Nat) (v : Byte) : (f.setBuf b i v).writeOk = f.writeOk := by
  rw [setBuf_eq]
@[simp] theorem setBuf_readPresent (f : Fcd) (b : Buf) (i : Nat) (v : Byte) : (f.setBuf b i v).readPresent = f.readPresent := by
  rw [setBuf_eq]
@[simp] theorem setBuf_respValid (f : Fcd) (b : Buf) (i : Nat) (v : Byte) : (f.setBuf b i v).respValid = f.respValid := by
  rw [setBuf_eq]
@[simp] theorem setBuf_errCode (f : Fcd) (b : Buf) (i : Nat) (v : Byte) : (f.setBuf b i v).errCode = f.errCode := by
  rw [setBuf_eq]
@[simp] theorem setBuf_errCat (f : Fcd) (b : Buf) (i : Nat) (v : Byte) : (f.setBuf b i v).errCat = f.errCat := by
  rw [setBuf_eq]
@[simp] theorem setBuf_tagCount (f : Fcd) (b : Buf) (i : Nat) (v : Byte) : (f.setBuf b i v).tagCount = f.tagCount := by
  rw [setBuf_eq]
@[simp] theorem setBuf_rxfCount (f : Fcd) (b : Buf) (i : Nat) (v : Byte) : (f.setBuf b i v).rxfCount = f.rxfCount := by
  rw [setBuf_eq]
@[simp] theorem setBuf_txCount (f : Fcd) (b : Buf) (i : Nat) (v : Byte) : (f.setBuf b i v).txCount = f.txCount := by
  rw [setBuf_eq]
@[simp] theorem setBuf_phase (f : Fcd) (b : Buf) (i : Nat) (v : Byte) : (f.setBuf b i v).phase = f.phase := by
  rw [setBuf_eq]
@[simp] theorem setBuf_params (f : Fcd) (b : Buf) (i : Nat) (v : Byte) : (f.setBuf b i v).params = f.params := by
  rw [setBuf_eq]
@[simp] theorem setBuf_epoch (f : Fcd) (b : Buf) (i : Nat) (v : Byte) : (f.setBuf b i v).epoch = f.epoch := by
  rw [setBuf_eq]

@[simp] theorem setBufs_ctrlOp (f : Fcd) (b : Buf) (i : Nat) (l : List Byte) : (f.setBufs b i l).ctrlOp = f.ctrlOp := by
  rw [setBufs_eq]
@[simp] theorem setBufs_busy (f : Fcd) (b : Buf) (i : Nat) (l : List Byte) : (f.setBufs b i l).busy = f.busy := by
  rw [setBufs_eq]
@[simp] theorem setBufs_done (f : Fcd) (b : Buf) (i : Nat) (l : List Byte) : (f.setBufs b i l).done = f.done := by
  rw [setBufs_eq]
@[simp] theorem setBufs_collide (f : Fcd) (b : Buf) (i : Nat) (l : List Byte) : (f.setBufs b i l).collide = f.collide := by
  rw [setBufs_eq]
@[simp] theorem setBufs_result (f : Fcd) (b : Buf) (i : Nat) (l : List Byte) : (f.setBufs b i l).result = f.result := by
  rw [setBufs_eq]
@[simp] theorem setBufs_cmdCode (f : Fcd) (b : Buf) (i : Nat) (l : List Byte) : (f.setBufs b i l).cmdCode = f.cmdCode := by
  rw [setBufs_eq]
@[simp] theorem setBufs_addr (f : Fcd) (b : Buf) (i : Nat) (l : List Byte) : (f.setBufs b i l).addr = f.addr := by
  rw [setBufs_eq]
@[simp] theorem setBufs_boot (f : Fcd) (b : Buf) (i : Nat) (l : List Byte) : (f.setBufs b i l).boot = f.boot := by
  rw [setBufs_eq]
@[simp] theorem setBufs_payloadLen (f : Fcd) (b : Buf) (i : Nat) (l : List Byte) : (f.setBufs b i l).payloadLen = f.payloadLen := by
  rw [setBufs_eq]
@[simp] theorem setBufs_tidLen (f : Fcd) (b : Buf) (i : Nat) (l : List Byte) : (f.setBufs b i l).tidLen = f.tidLen := by
  rw [setBufs_eq]
@[simp] theorem setBufs_dataLen (f : Fcd) (b : Buf) (i : Nat) (l : List Byte) : (f.setBufs b i l).dataLen = f.dataLen := by
  rw [setBufs_eq]
@[simp] theorem setBufs_pwLen (f : Fcd) (b : Buf) (i : Nat) (l : List Byte) : (f.setBufs b i l).pwLen = f.pwLen := by
  rw [setBufs_eq]
@[simp] theorem setBufs_bank (f : Fcd) (b : Buf) (i : Nat) (l : List Byte) : (f.setBufs b i l).bank = f.bank := by
  rw [setBufs_eq]
@[simp] theorem setBufs_startWord (f : Fcd) (b : Buf) (i : Nat) (l : List Byte) : (f.setBufs b i l).startWord = f.startWord := by
  rw [setBufs_eq]
@[simp] theorem setBufs_wordCount (f : Fcd) (b : Buf) (i : Nat) (l : List Byte) : (f.setBufs b i l).wordCount = f.wordCount := by
  rw [setBufs_eq]
@[simp] theorem setBufs_ie (f : Fcd) (b : Buf) (i : Nat) (l : List Byte) : (f.setBufs b i l).ie = f.ie := by
  rw [setBufs_eq]
@[simp] theorem setBufs_frameLen (f : Fcd) (b : Buf) (i : Nat) (l : List Byte) : (f.setBufs b i l).frameLen = f.frameLen := by
  rw [setBufs_eq]
@[simp] theorem setBufs_respBoot (f : Fcd) (b : Buf) (i : Nat) (l : List Byte) : (f.setBufs b i l).respBoot = f.respBoot := by
  rw [setBufs_eq]
@[simp] theorem setBufs_respLfield (f : Fcd) (b : Buf) (i : Nat) (l : List Byte) : (f.setBufs b i l).respLfield = f.respLfield := by
  rw [setBufs_eq]
@[simp] theorem setBufs_respCmd (f : Fcd) (b : Buf) (i : Nat) (l : List Byte) : (f.setBufs b i l).respCmd = f.respCmd := by
  rw [setBufs_eq]
@[simp] theorem setBufs_respAddr (f : Fcd) (b : Buf) (i : Nat) (l : List Byte) : (f.setBufs b i l).respAddr = f.respAddr := by
  rw [setBufs_eq]
@[simp] theorem setBufs_respPlen (f : Fcd) (b : Buf) (i : Nat) (l : List Byte) : (f.setBufs b i l).respPlen = f.respPlen := by
  rw [setBufs_eq]
@[simp] theorem setBufs_respCsum (f : Fcd) (b : Buf) (i : Nat) (l : List Byte) : (f.setBufs b i l).respCsum = f.respCsum := by
  rw [setBufs_eq]
@[simp] theorem setBufs_calcCsum (f : Fcd) (b : Buf) (i : Nat) (l : List Byte) : (f.setBufs b i l).calcCsum = f.calcCsum := by
  rw [setBufs_eq]
@[simp] theorem setBufs_addressed (f : Fcd) (b : Buf) (i : Nat) (l : List Byte) : (f.setBufs b i l).addressed = f.addressed := by
  rw [setBufs_eq]
@[simp] theorem setBufs_writeOk (f : Fcd) (b : Buf) (i : Nat) (l : List Byte) : (f.setBufs b i l).writeOk = f.writeOk := by
  rw [setBufs_eq]
@[simp] theorem setBufs_readPresent (f : Fcd) (b : Buf) (i : Nat) (l : List Byte) : (f.setBufs b i l).readPresent = f.readPresent := by
  rw [setBufs_eq]
@[simp] theorem setBufs_respValid (f : Fcd) (b : Buf) (i : Nat) (l : List Byte) : (f.setBufs b i l).respValid = f.respValid := by
  rw [setBufs_eq]
@[simp] theorem setBufs_errCode (f : Fcd) (b : Buf) (i : Nat) (l : List Byte) : (f.setBufs b i l).errCode = f.errCode := by
  rw [setBufs_eq]
@[simp] theorem setBufs_errCat (f : Fcd) (b : Buf) (i : Nat) (l : List Byte) : (f.setBufs b i l).errCat = f.errCat := by
  rw [setBufs_eq]
@[simp] theorem setBufs_tagCount (f : Fcd) (b : Buf) (i : Nat) (l : List Byte) : (f.setBufs b i l).tagCount = f.tagCount := by
  rw [setBufs_eq]
@[simp] theorem setBufs_rxfCount (f : Fcd) (b : Buf) (i : Nat) (l : List Byte) : (f.setBufs b i l).rxfCount = f.rxfCount := by
  rw [setBufs_eq]
@[simp] theorem setBufs_txCount (f : Fcd) (b : Buf) (i : Nat) (l : List Byte) : (f.setBufs b i l).txCount = f.txCount := by
  rw [setBufs_eq]
@[simp] theorem setBufs_phase (f : Fcd) (b : Buf) (i : Nat) (l : List Byte) : (f.setBufs b i l).phase = f.phase := by
  rw [setBufs_eq]
@[simp] theorem setBufs_params (f : Fcd) (b : Buf) (i : Nat) (l : List Byte) : (f.setBufs b i l).params = f.params := by
  rw [setBufs_eq]
@[simp] theorem setBufs_epoch (f : Fcd) (b : Buf) (i : Nat) (l : List Byte) : (f.setBufs b i l).epoch = f.epoch := by
  rw [setBufs_eq]

/-! ### The end of an operation -/

@[simp] theorem endOp_ctrlOp (f : Fcd) (x : ResultCode) : (f.endOp x).ctrlOp = f.ctrlOp := rfl
@[simp] theorem endOp_busy (f : Fcd) (x : ResultCode) : (f.endOp x).busy = false := rfl
@[simp] theorem endOp_done (f : Fcd) (x : ResultCode) : (f.endOp x).done = true := rfl
@[simp] theorem endOp_collide (f : Fcd) (x : ResultCode) : (f.endOp x).collide = f.collide := rfl
@[simp] theorem endOp_result (f : Fcd) (x : ResultCode) : (f.endOp x).result = x := rfl
@[simp] theorem endOp_cmdCode (f : Fcd) (x : ResultCode) : (f.endOp x).cmdCode = f.cmdCode := rfl
@[simp] theorem endOp_addr (f : Fcd) (x : ResultCode) : (f.endOp x).addr = f.addr := rfl
@[simp] theorem endOp_boot (f : Fcd) (x : ResultCode) : (f.endOp x).boot = f.boot := rfl
@[simp] theorem endOp_payloadLen (f : Fcd) (x : ResultCode) : (f.endOp x).payloadLen = f.payloadLen := rfl
@[simp] theorem endOp_tidLen (f : Fcd) (x : ResultCode) : (f.endOp x).tidLen = f.tidLen := rfl
@[simp] theorem endOp_dataLen (f : Fcd) (x : ResultCode) : (f.endOp x).dataLen = f.dataLen := rfl
@[simp] theorem endOp_pwLen (f : Fcd) (x : ResultCode) : (f.endOp x).pwLen = f.pwLen := rfl
@[simp] theorem endOp_bank (f : Fcd) (x : ResultCode) : (f.endOp x).bank = f.bank := rfl
@[simp] theorem endOp_startWord (f : Fcd) (x : ResultCode) : (f.endOp x).startWord = f.startWord := rfl
@[simp] theorem endOp_wordCount (f : Fcd) (x : ResultCode) : (f.endOp x).wordCount = f.wordCount := rfl
@[simp] theorem endOp_ie (f : Fcd) (x : ResultCode) : (f.endOp x).ie = f.ie := rfl
@[simp] theorem endOp_frameLen (f : Fcd) (x : ResultCode) : (f.endOp x).frameLen = f.frameLen := rfl
@[simp] theorem endOp_respBoot (f : Fcd) (x : ResultCode) : (f.endOp x).respBoot = f.respBoot := rfl
@[simp] theorem endOp_respLfield (f : Fcd) (x : ResultCode) : (f.endOp x).respLfield = f.respLfield := rfl
@[simp] theorem endOp_respCmd (f : Fcd) (x : ResultCode) : (f.endOp x).respCmd = f.respCmd := rfl
@[simp] theorem endOp_respAddr (f : Fcd) (x : ResultCode) : (f.endOp x).respAddr = f.respAddr := rfl
@[simp] theorem endOp_respPlen (f : Fcd) (x : ResultCode) : (f.endOp x).respPlen = f.respPlen := rfl
@[simp] theorem endOp_respCsum (f : Fcd) (x : ResultCode) : (f.endOp x).respCsum = f.respCsum := rfl
@[simp] theorem endOp_calcCsum (f : Fcd) (x : ResultCode) : (f.endOp x).calcCsum = f.calcCsum := rfl
@[simp] theorem endOp_addressed (f : Fcd) (x : ResultCode) : (f.endOp x).addressed = f.addressed := rfl
@[simp] theorem endOp_writeOk (f : Fcd) (x : ResultCode) : (f.endOp x).writeOk = f.writeOk := rfl
@[simp] theorem endOp_readPresent (f : Fcd) (x : ResultCode) : (f.endOp x).readPresent = f.readPresent := rfl
@[simp] theorem endOp_respValid (f : Fcd) (x : ResultCode) : (f.endOp x).respValid = f.respValid := rfl
@[simp] theorem endOp_errCode (f : Fcd) (x : ResultCode) : (f.endOp x).errCode = f.errCode := rfl
@[simp] theorem endOp_errCat (f : Fcd) (x : ResultCode) : (f.endOp x).errCat = f.errCat := rfl
@[simp] theorem endOp_tagCount (f : Fcd) (x : ResultCode) : (f.endOp x).tagCount = f.tagCount := rfl
@[simp] theorem endOp_rxfCount (f : Fcd) (x : ResultCode) : (f.endOp x).rxfCount = f.rxfCount := rfl
@[simp] theorem endOp_txCount (f : Fcd) (x : ResultCode) : (f.endOp x).txCount = f.txCount := rfl
@[simp] theorem endOp_phase (f : Fcd) (x : ResultCode) : (f.endOp x).phase = .idle := rfl
@[simp] theorem endOp_mem (f : Fcd) (x : ResultCode) : (f.endOp x).mem = f.mem := rfl
@[simp] theorem endOp_params (f : Fcd) (x : ResultCode) : (f.endOp x).params = f.params := rfl
@[simp] theorem endOp_epoch (f : Fcd) (x : ResultCode) : (f.endOp x).epoch = f.epoch := rfl

/-! ### The accept of an operation -/

@[simp] theorem accept_ctrlOp (f : Fcd) (op : BitVec 4) : (f.accept op).ctrlOp = op := rfl
@[simp] theorem accept_busy (f : Fcd) (op : BitVec 4) : (f.accept op).busy = true := rfl
@[simp] theorem accept_done (f : Fcd) (op : BitVec 4) : (f.accept op).done = false := rfl
@[simp] theorem accept_collide (f : Fcd) (op : BitVec 4) : (f.accept op).collide = false := rfl
@[simp] theorem accept_result (f : Fcd) (op : BitVec 4) : (f.accept op).result = .none := rfl
@[simp] theorem accept_cmdCode (f : Fcd) (op : BitVec 4) : (f.accept op).cmdCode = f.cmdCode := rfl
@[simp] theorem accept_addr (f : Fcd) (op : BitVec 4) : (f.accept op).addr = f.addr := rfl
@[simp] theorem accept_boot (f : Fcd) (op : BitVec 4) : (f.accept op).boot = f.boot := rfl
@[simp] theorem accept_payloadLen (f : Fcd) (op : BitVec 4) : (f.accept op).payloadLen = f.payloadLen := rfl
@[simp] theorem accept_tidLen (f : Fcd) (op : BitVec 4) : (f.accept op).tidLen = f.tidLen := rfl
@[simp] theorem accept_dataLen (f : Fcd) (op : BitVec 4) : (f.accept op).dataLen = f.dataLen := rfl
@[simp] theorem accept_pwLen (f : Fcd) (op : BitVec 4) : (f.accept op).pwLen = f.pwLen := rfl
@[simp] theorem accept_bank (f : Fcd) (op : BitVec 4) : (f.accept op).bank = f.bank := rfl
@[simp] theorem accept_startWord (f : Fcd) (op : BitVec 4) : (f.accept op).startWord = f.startWord := rfl
@[simp] theorem accept_wordCount (f : Fcd) (op : BitVec 4) : (f.accept op).wordCount = f.wordCount := rfl
@[simp] theorem accept_ie (f : Fcd) (op : BitVec 4) : (f.accept op).ie = f.ie := rfl
@[simp] theorem accept_frameLen (f : Fcd) (op : BitVec 4) : (f.accept op).frameLen = f.frameLen := rfl
@[simp] theorem accept_respBoot (f : Fcd) (op : BitVec 4) : (f.accept op).respBoot = 0 := rfl
@[simp] theorem accept_respLfield (f : Fcd) (op : BitVec 4) : (f.accept op).respLfield = 0 := rfl
@[simp] theorem accept_respCmd (f : Fcd) (op : BitVec 4) : (f.accept op).respCmd = 0 := rfl
@[simp] theorem accept_respAddr (f : Fcd) (op : BitVec 4) : (f.accept op).respAddr = 0 := rfl
@[simp] theorem accept_respPlen (f : Fcd) (op : BitVec 4) : (f.accept op).respPlen = 0 := rfl
@[simp] theorem accept_respCsum (f : Fcd) (op : BitVec 4) : (f.accept op).respCsum = 0 := rfl
@[simp] theorem accept_calcCsum (f : Fcd) (op : BitVec 4) : (f.accept op).calcCsum = 0 := rfl
@[simp] theorem accept_addressed (f : Fcd) (op : BitVec 4) : (f.accept op).addressed = decide (f.addr ≠ 0) := rfl
@[simp] theorem accept_writeOk (f : Fcd) (op : BitVec 4) : (f.accept op).writeOk = false := rfl
@[simp] theorem accept_readPresent (f : Fcd) (op : BitVec 4) : (f.accept op).readPresent = false := rfl
@[simp] theorem accept_respValid (f : Fcd) (op : BitVec 4) : (f.accept op).respValid = false := rfl
@[simp] theorem accept_errCode (f : Fcd) (op : BitVec 4) : (f.accept op).errCode = 0 := rfl
@[simp] theorem accept_errCat (f : Fcd) (op : BitVec 4) : (f.accept op).errCat = .commandSuccess := rfl
@[simp] theorem accept_tagCount (f : Fcd) (op : BitVec 4) : (f.accept op).tagCount = 0 := rfl
@[simp] theorem accept_rxfCount (f : Fcd) (op : BitVec 4) : (f.accept op).rxfCount = 0 := rfl
@[simp] theorem accept_txCount (f : Fcd) (op : BitVec 4) : (f.accept op).txCount = 0 := rfl
@[simp] theorem accept_phase (f : Fcd) (op : BitVec 4) : (f.accept op).phase = .check := rfl
@[simp] theorem accept_mem (f : Fcd) (op : BitVec 4) : (f.accept op).mem = f.mem := rfl
@[simp] theorem accept_params (f : Fcd) (op : BitVec 4) : (f.accept op).params = f.params := rfl
@[simp] theorem accept_epoch (f : Fcd) (op : BitVec 4) : (f.accept op).epoch = f.epoch := rfl

/-! ### The host's and the schedule's bookkeeping -/

@[simp] theorem retire_fcd (s : State) : s.retire.fcd = s.fcd := rfl
@[simp] theorem retire_hbRdata (s : State) : s.retire.hbRdata = s.hbRdata := rfl
@[simp] theorem retire_draws (s : State) : s.retire.draws = s.draws := rfl
@[simp] theorem retire_program (s : State) : s.retire.program = s.program.tail := rfl
@[simp] theorem retire_turns (s : State) : s.retire.turns = s.turns := rfl
@[simp] theorem retire_linkUp (s : State) : s.retire.linkUp = s.linkUp := rfl
@[simp] theorem retire_held (s : State) : s.retire.held = s.held := rfl
@[simp] theorem retire_sent (s : State) : s.retire.sent = s.sent := rfl
@[simp] theorem popTurn_fcd (s : State) : s.popTurn.fcd = s.fcd := rfl
@[simp] theorem popTurn_hbRdata (s : State) : s.popTurn.hbRdata = s.hbRdata := rfl
@[simp] theorem popTurn_draws (s : State) : s.popTurn.draws = s.draws := rfl
@[simp] theorem popTurn_program (s : State) : s.popTurn.program = s.program := rfl
@[simp] theorem popTurn_turns (s : State) : s.popTurn.turns = s.turns.tail := rfl
@[simp] theorem popTurn_linkUp (s : State) : s.popTurn.linkUp = s.linkUp := rfl
@[simp] theorem popTurn_held (s : State) : s.popTurn.held = s.held := rfl
@[simp] theorem popTurn_sent (s : State) : s.popTurn.sent = s.sent := rfl

/-! ### Buffer bytes under updates that keep the memory -/

@[simp] theorem buf_endOp (f : Fcd) (x : ResultCode) (b : Buf) (i : Nat) : (f.endOp x).buf b i = f.buf b i := rfl
@[simp] theorem buf_accept (f : Fcd) (op : BitVec 4) (b : Buf) (i : Nat) : (f.accept op).buf b i = f.buf b i := rfl
@[simp] theorem slice_endOp (f : Fcd) (x : ResultCode) (b : Buf) (n : Nat) : (f.endOp x).slice b n = f.slice b n := rfl
@[simp] theorem slice_accept (f : Fcd) (op : BitVec 4) (b : Buf) (n : Nat) : (f.accept op).slice b n = f.slice b n := rfl
@[simp] theorem length_slice (f : Fcd) (b : Buf) (n : Nat) : (f.slice b n).length = n := by simp [Fcd.slice]

/-- A buffer byte depends on the memory and the reset draw alone. -/
theorem buf_congr {f g : Fcd} (hm : f.mem = g.mem) (he : f.epoch = g.epoch) (b : Buf) (i : Nat) :
    f.buf b i = g.buf b i := by
  simp [Fcd.buf, hm, he]

end Sys2Proof.Laws
end

