-- ==== Sys2Proof/Laws/Codec.lean ====
section
/-! SUPPORT. The frame codec: the checksum's arithmetic, and what the encoder, the decoder and the write-back can
answer. -/

namespace Sys2Proof.Laws

open Sys2Proof.Machine

/-! ### The checksum -/

@[simp] theorem sum8_nil : sum8 [] = 0 := rfl

@[simp] theorem sum8_cons (b : Byte) (s : List Byte) : sum8 (b :: s) = b + sum8 s := by
  apply BitVec.eq_of_toNat_eq
  simp [sum8, BitVec.toNat_add]

@[simp] theorem sum8_append (s t : List Byte) : sum8 (s ++ t) = sum8 s + sum8 t := by
  induction s with
  | nil => simp
  | cons b s ih => simp [ih, BitVec.add_assoc]

theorem neg8_eq (x : Byte) : neg8 x = -x := by
  apply BitVec.eq_of_toNat_eq
  simp [neg8, BitVec.toNat_neg]

theorem csum8_eq (s : List Byte) : csum8 s = -sum8 s := neg8_eq _

/-- Replacing one byte of a sequence adds the difference to its sum. -/
theorem sum8_set (s : List Byte) (j : Nat) (h : j < s.length) (v : Byte) : sum8 (s.set j v) = sum8 s - s[j] + v := by
  induction s generalizing j with
  | nil => simp at h
  | cons b s ih =>
    cases j with
    | zero => simp; ring
    | succ j =>
      simp only [List.length_cons, Nat.add_lt_add_iff_right] at h
      simp [ih j h]
      ring

/-! ### The encoder -/

theorem headerBytes_le (a : Bool) : 1 ≤ headerBytes a ∧ headerBytes a ≤ 2 := by cases a <;> decide

/-- A payload within its shape's limit leaves room for the header and the checksum in the one-byte length field. -/
theorem limit_le (p : Params) (a : Bool) : headerBytes a + 1 + payloadLimit p a ≤ 255 := by
  cases a
  · have := p.maxPayloadUnaddr.isLt; simp [headerBytes, payloadLimit]; omega
  · have := p.maxPayloadAddr.isLt; simp [headerBytes, payloadLimit]; omega

@[simp] theorem length_frameBody (boot cmd addr : Byte) (a : Bool) (P : List Byte) :
    (frameBody boot cmd a addr P).length = P.length + headerBytes a + 2 := by
  cases a <;> simp [frameBody, headerBytes]

/-- What the encoder can answer. -/
theorem encodeFrame_cases (p : Params) (boot cmd addr : Byte) (a : Bool) (P : List Byte) :
    (payloadLimit p a < P.length ∧ encodeFrame p boot cmd a addr P = none) ∨
    (P.length ≤ payloadLimit p a ∧ encodeFrame p boot cmd a addr P =
      some (frameBody boot cmd a addr P ++ [csum8 (frameBody boot cmd a addr P)])) := by
  unfold encodeFrame
  split
  · exact .inl ⟨by omega, rfl⟩
  · exact .inr ⟨by omega, rfl⟩

/-- A frame the encoder returns has `p + h + 3` bytes, at most 257. -/
theorem encodeFrame_length {p : Params} {boot cmd addr : Byte} {a : Bool} {P F : List Byte}
    (h : encodeFrame p boot cmd a addr P = some F) : F.length = P.length + headerBytes a + 3 ∧ F.length ≤ 257 := by
  rcases encodeFrame_cases p boot cmd addr a P with ⟨_, hn⟩ | ⟨hl, hs⟩
  · simp [h] at hn
  · rw [h] at hs
    have := Option.some.inj hs
    have hlim := limit_le p a
    subst this
    simp
    omega

/-! ### The decoder -/

@[simp] theorem length_sliceOf (F : Nat → Byte) (i n : Nat) : (sliceOf F i n).length = n := by simp [sliceOf]

theorem getElem?_sliceOf (F : Nat → Byte) (i n k : Nat) (h : k < n) : (sliceOf F i n)[k]? = some (F (i + k)) := by
  simp [sliceOf, h]

/-- What the decoder can answer. -/
theorem decodeFrame_cases (F : Nat → Byte) (n : Nat) (a : Bool) :
    ((n < 2 ∨ n < 2 + (F 1).toNat) ∧ decodeFrame F n a = .truncated) ∨
    (2 + (F 1).toNat ≤ n ∧ (F 1).toNat < headerBytes a + 1 ∧ decodeFrame F n a = .malformed) ∨
    (2 + (F 1).toNat ≤ n ∧ headerBytes a + 1 ≤ (F 1).toNat ∧ (splitFrame F a).calcSum ≠ (splitFrame F a).recvSum ∧
      decodeFrame F n a = .mismatch (splitFrame F a).recvSum (splitFrame F a).calcSum) ∨
    (2 + (F 1).toNat ≤ n ∧ headerBytes a + 1 ≤ (F 1).toNat ∧ (splitFrame F a).calcSum = (splitFrame F a).recvSum ∧
      decodeFrame F n a = .ok (splitFrame F a)) := by
  unfold decodeFrame
  by_cases h1 : n < 2
  · simp [h1]
  by_cases h2 : n < 2 + (F 1).toNat
  · simp [h1, h2]
  by_cases h3 : (F 1).toNat < headerBytes a + 1
  · simp [h1, h2, h3]; omega
  by_cases h4 : (splitFrame F a).calcSum = (splitFrame F a).recvSum
  · simp [h1, h2, h3, h4]; omega
  · simp [h1, h2, h3, h4]; omega

/-- A good decode is the split of the frame, its two checksums are equal, its payload has the length it says, and that
length is at most 253. -/
theorem decodeFrame_ok {F : Nat → Byte} {n : Nat} {a : Bool} {d : Fields} (h : decodeFrame F n a = .ok d) :
    d = splitFrame F a ∧ d.calcSum = d.recvSum ∧ d.payload.length = d.plen ∧ d.plen ≤ 253 := by
  have hL := (F 1).isLt
  have hh := headerBytes_le a
  rcases decodeFrame_cases F n a with ⟨_, e⟩ | ⟨_, _, e⟩ | ⟨_, _, _, e⟩ | ⟨_, _, hs, e⟩ <;> rw [h] at e <;> try cases e
  refine ⟨rfl, hs, by simp [splitFrame], ?_⟩
  simp only [splitFrame]
  omega

/-- The decoder reads only the first `2 + length` bytes. -/
theorem decodeFrame_congr {F G : Nat → Byte} {n m : Nat} {a : Bool} (h1 : F 1 = G 1)
    (hn : 2 + (F 1).toNat ≤ n) (hm : 2 + (F 1).toNat ≤ m) (h : ∀ i < 2 + (F 1).toNat, F i = G i) :
    decodeFrame F n a = decodeFrame G m a := by
  have hh := headerBytes_le a
  by_cases h3 : (F 1).toNat < headerBytes a + 1
  · simp [decodeFrame, ← h1, h3, show ¬ n < 2 by omega, show ¬ m < 2 by omega, show ¬ n < 2 + (F 1).toNat by omega,
      show ¬ m < 2 + (F 1).toNat by omega]
  · have hs : splitFrame F a = splitFrame G a := by
      have hsl : ∀ i k, i + k ≤ 2 + (F 1).toNat → sliceOf F i k = sliceOf G i k := by
        intro i k hik
        apply List.map_congr_left
        intro j hj
        exact h _ (by rw [List.mem_range] at hj; omega)
      unfold splitFrame
      simp only [← h1]
      rw [h 0 (by omega), h 2 (by omega), h ((F 1).toNat + 1) (by omega), hsl _ _ (by omega), hsl _ _ (by omega)]
      congr 1
      cases a
      · rfl
      · simp only [if_true]
        exact h 3 (by simp [headerBytes] at h3; omega)
    simp [decodeFrame, ← h1, h3, hs, show ¬ n < 2 by omega, show ¬ m < 2 by omega,
      show ¬ n < 2 + (F 1).toNat by omega, show ¬ m < 2 + (F 1).toNat by omega]

/-! ### The write-back -/

/-- A good decode leaves everything but the response fields, RESP_VALID and the memory. -/
theorem writeFields_eq (f : Fcd) (d : Fields) :
    f.writeFields d = { f with
      respBoot := d.boot, respLfield := d.lfield, respCmd := d.cmd, respAddr := d.addr,
      respPlen := BitVec.ofNat 8 d.plen, respCsum := d.recvSum, calcCsum := d.calcSum, respValid := true,
      mem := (f.writeFields d).mem } := by
  unfold Fcd.writeFields
  rw [setBufs_eq]

theorem writeFields_buf (f : Fcd) (d : Fields) (b : Buf) (i : Nat) :
    (f.writeFields d).buf b i = (f.setBufs .resp 0 d.payload).buf b i :=
  buf_congr rfl rfl b i

/-! ### The inventory parser -/

/-- What one round of the record loop can answer. -/
theorem parseRecords_succ (P : Nat → Byte) (p n c : Nat) :
    (p ≤ c ∧ parseRecords P p (n + 1) c = none) ∨
    (c < p ∧ p < c + 1 + 2 * (P c).toNat ∧ parseRecords P p (n + 1) c = none) ∨
    (c + 1 + 2 * (P c).toNat ≤ p ∧ parseRecords P p (n + 1) c =
      (parseRecords P p n (c + 2 + 2 * (P c).toNat)).map fun recs => (c + 1, (P c).toNat) :: recs) := by
  by_cases h1 : c ≥ p
  · exact .inl ⟨h1, by simp [parseRecords, h1]⟩
  by_cases h2 : c + 1 + 2 * (P c).toNat > p
  · exact .inr (.inl ⟨by omega, by omega, by simp [parseRecords, h1, h2]⟩)
  · exact .inr (.inr ⟨by omega, by simp [parseRecords, h1, h2]⟩)

/-- Parsed records: as many as asked for, each inside the payload, none before the cursor. -/
theorem parseRecords_bounds {P : Nat → Byte} {p n c : Nat} {recs : List (Nat × Nat)}
    (h : parseRecords P p n c = some recs) :
    recs.length = n ∧ (n ≠ 0 → c + 2 * n ≤ p + 1) ∧ ∀ r ∈ recs, c < r.1 ∧ r.1 + 2 * r.2 ≤ p := by
  induction n generalizing c recs with
  | zero => simp [parseRecords] at h; subst h; simp
  | succ n ih =>
    rcases parseRecords_succ P p n c with ⟨_, e⟩ | ⟨_, _, e⟩ | ⟨hc, e⟩
    · simp [e] at h
    · simp [e] at h
    · rw [e, Option.map_eq_some_iff] at h
      obtain ⟨rs, hr, rfl⟩ := h
      obtain ⟨hl, hb, hm⟩ := ih hr
      refine ⟨by simp [hl], fun _ => ?_, ?_⟩
      · by_cases hn : n = 0
        · subst hn; omega
        · have := hb hn; omega
      · intro r hr'
        rcases List.mem_cons.1 hr' with rfl | hr'
        · exact ⟨by simp, by simpa using hc⟩
        · have := hm r hr'
          exact ⟨by omega, this.2⟩

/-- The parser reads only bytes inside the payload. -/
theorem parseRecords_congr {P Q : Nat → Byte} {p : Nat} (h : ∀ i < p, P i = Q i) (n c : Nat) :
    parseRecords P p n c = parseRecords Q p n c := by
  induction n generalizing c with
  | zero => rfl
  | succ n ih =>
    by_cases hc : c ≥ p
    · simp [parseRecords, hc]
    · simp only [parseRecords, hc, if_false, h c (by omega), ih]

/-- Writing the tag table changes the memory and nothing else. -/
theorem writeTags_eq (f : Fcd) (i : Nat) (recs : List (Nat × Nat)) :
    f.writeTags i recs = { f with mem := (f.writeTags i recs).mem } := by
  induction recs generalizing f i with
  | nil => rfl
  | cons r rest ih =>
    simp only [Fcd.writeTags]
    rw [ih, setBuf_eq, setBuf_eq]

theorem writeTags_memWf {f : Fcd} (i : Nat) (recs : List (Nat × Nat)) (h : memWf f.mem = true) :
    memWf (f.writeTags i recs).mem = true := by
  induction recs generalizing f i with
  | nil => exact h
  | cons r rest ih => exact ih _ (setBuf_memWf _ _ _ (setBuf_memWf _ _ _ h))

/-- The tag table keeps every other buffer byte. -/
theorem writeTags_outside (f : Fcd) (i : Nat) (recs : List (Nat × Nat)) {c : Buf} {j : Nat} (hj : j < bufSize c)
    (h : (c ≠ .tagOff ∧ c ≠ .tagWords) ∨ j < i ∨ i + recs.length ≤ j) :
    (f.writeTags i recs).buf c j = f.buf c j := by
  induction recs generalizing f i with
  | nil => rfl
  | cons r rest ih =>
    simp only [List.length_cons] at h
    have h' : (c ≠ .tagOff ∧ c ≠ .tagWords) ∨ j < i + 1 ∨ i + 1 + rest.length ≤ j := by
      rcases h with h | h | h
      · exact .inl h
      · exact .inr (.inl (by omega))
      · exact .inr (.inr (by omega))
    have hne : ∀ b, b = .tagOff ∨ b = .tagWords → ¬(c = b ∧ j = i) := by
      rintro b hb ⟨rfl, rfl⟩
      rcases h with h | h | h
      · rcases hb with rfl | rfl
        · exact h.1 rfl
        · exact h.2 rfl
      · omega
      · omega
    rw [Fcd.writeTags, ih _ _ h', buf_setBuf_other _ _ hj (hne _ (.inr rfl)),
      buf_setBuf_other _ _ hj (hne _ (.inl rfl))]

/-- The tag table holds the records written. -/
theorem writeTags_inside (f : Fcd) (i : Nat) (recs : List (Nat × Nat)) (h : i + recs.length ≤ 256) (k : Nat)
    (hk : k < recs.length) :
    (f.writeTags i recs).buf .tagOff (i + k) = BitVec.ofNat 8 recs[k].1 ∧
    (f.writeTags i recs).buf .tagWords (i + k) = BitVec.ofNat 8 recs[k].2 := by
  induction recs generalizing f i k with
  | nil => simp at hk
  | cons r rest ih =>
    simp only [List.length_cons] at h hk
    cases k with
    | zero =>
      simp only [Fcd.writeTags, Nat.add_zero, List.getElem_cons_zero]
      rw [writeTags_outside _ _ _ (by simp [bufSize]; omega) (.inr (.inl (by omega))),
        writeTags_outside _ _ _ (by simp [bufSize]; omega) (.inr (.inl (by omega))),
        buf_setBuf_other _ _ (by simp [bufSize]; omega) (by simp), buf_setBuf_same _ _ _ _ (by simp [bufSize]; omega),
        buf_setBuf_same _ _ _ _ (by simp [bufSize]; omega)]
      exact ⟨rfl, rfl⟩
    | succ k =>
      have := ih ((f.setBuf .tagOff i (BitVec.ofNat 8 r.1)).setBuf .tagWords i (BitVec.ofNat 8 r.2)) (i + 1) (by omega) k
        (by omega)
      simp only [Fcd.writeTags, List.getElem_cons_succ]
      rw [show i + (k + 1) = i + 1 + k by omega]
      exact this

end Sys2Proof.Laws
end

