-- ==== Sys2Proof/Laws/Engine.lean ====
section
/-! SUPPORT. What each engine and transport operation can answer, said once. -/

namespace Sys2Proof.Laws

open Sys2Proof.Machine

/-! ### Host accesses -/

/-- A start request answers one of two things. -/
theorem startOp_cases (f : Fcd) (op : BitVec 4) :
    (f.busy = true ∧ f.startOp op = { f with collide := true }) ∨ (f.busy = false ∧ f.startOp op = f.accept op) := by
  cases h : f.busy <;> simp [Fcd.startOp, h]

/-- What a host write can change: with BUSY = 1 only COLLIDE, DONE and IE; with BUSY = 0 a start, a register or one
byte of a writable buffer. -/
theorem writeLoc_busy (f : Fcd) (l : Loc) (v : Byte) (h : f.busy = true) :
    f.writeLoc l v = { f with
      collide := (f.writeLoc l v).collide, done := (f.writeLoc l v).done, ie := (f.writeLoc l v).ie } ∧
    ((f.writeLoc l v).done = true → f.done = true) := by
  have hbusy : ∀ g : Fcd, (if f.busy = true then f else g) = f := fun g => if_pos h
  have hstart : ∀ op, f.startOp op = { f with collide := true } := fun op => by simp [Fcd.startOp, h]
  cases l with
  | reg r =>
    cases r <;> simp only [Fcd.writeLoc, Fcd.writeCtrl, Fcd.writeStatus, hbusy, hstart] <;> (try split) <;>
      simp +contextual only [Bool.and_eq_true, implies_true, and_self]
  | buf b i => simp [Fcd.writeLoc, hbusy]
  | reserved => simp [Fcd.writeLoc, hbusy]

/-! ### Phase CHECK -/

/-- What the CHECK step of an operation with a wire command code can do: a local failure that writes nothing, or the
frame in FRAME_BUF and then the end of ENCODE, a closed transport, or phase TX. -/
theorem checkWire_cases (f : Fcd) (linkUp : Bool) (cmd : Byte) :
    (∃ x, (x = .invalidPassword ∨ x = .invalidPayloadSize) ∧ f.checkWire linkUp cmd = f.endOp x) ∨
    ∃ frame : List Byte, 4 ≤ frame.length ∧ frame.length ≤ 257 ∧
      let g := { f.setBufs .frame 0 frame with frameLen := BitVec.ofNat 9 frame.length }
      (f.ctrlOp = opEncode ∧ f.checkWire linkUp cmd = g.endOp .ok) ∨
      (f.ctrlOp ≠ opEncode ∧ linkUp = false ∧ f.checkWire linkUp cmd = g.endOp .transportError) ∨
      (f.ctrlOp ≠ opEncode ∧ linkUp = true ∧ f.checkWire linkUp cmd = { g with phase := .tx }) := by
  have hlen : ∀ {boot P F}, encodeFrame f.params boot cmd f.wantsAddressed f.addr P = some F →
      4 ≤ F.length ∧ F.length ≤ 257 := by
    intro boot P F h
    have := encodeFrame_length h
    have := headerBytes_le f.wantsAddressed
    omega
  unfold Fcd.checkWire
  split
  · rename_i hop
    unfold Fcd.checkEncode
    split
    · exact .inl ⟨_, .inr rfl, rfl⟩
    · rename_i F hF
      exact .inr ⟨F, (hlen hF).1, (hlen hF).2, .inl ⟨hop, rfl⟩⟩
  · rename_i hop
    have hpay : ∀ x, f.opPayload = .error x → x = .invalidPassword ∨ x = .invalidPayloadSize := by
      intro x hx
      simp only [Fcd.opPayload, Fcd.buildReadPayload, Fcd.buildWritePayload] at hx
      repeat' split at hx
      all_goals first | (cases hx; simp) | cases hx
    split
    · rename_i x hx
      exact .inl ⟨x, hpay x hx, rfl⟩
    · rename_i P hP
      unfold Fcd.dispatchStart
      split
      · exact .inl ⟨_, .inr rfl, rfl⟩
      · rename_i F hF
        refine .inr ⟨F, (hlen hF).1, (hlen hF).2, .inr ?_⟩
        cases linkUp
        · exact .inl ⟨hop, rfl, rfl⟩
        · exact .inr ⟨hop, rfl, rfl⟩

/-- An operation with a wire command code is a dispatch operation or ENCODE. -/
theorem opWireCode_some {f : Fcd} {c : Byte} (h : f.opWireCode = some c) :
    (f.ctrlOp = opSend ∧ c = f.cmdCode) ∨ (f.ctrlOp = opInventory ∧ c = 0xEE) ∨ (f.ctrlOp = opRead ∧ c = 0xEC) ∨
    (f.ctrlOp = opWrite ∧ c = 0xEB) ∨ (f.ctrlOp = opEncode ∧ c = f.cmdCode) := by
  simp only [Fcd.opWireCode] at h
  repeat' split at h
  all_goals simp_all

/-- What the CHECK step of DECODE can do. -/
theorem checkDecode_cases (f : Fcd) :
    (∃ x, (x = .truncatedFrame ∨ x = .malformedFrame) ∧ f.checkDecode = f.endOp x) ∨
    (∃ r c : Byte, f.checkDecode = ({ f with respCsum := r, calcCsum := c } : Fcd).endOp .checksumMismatch) ∨
    (∃ d : Fields, decodeFrame (f.buf .frame) f.frameLen.toNat f.wantsAddressed = .ok d ∧
      f.checkDecode = (f.writeFields d).endOp .ok) := by
  unfold Fcd.checkDecode
  cases h : decodeFrame (f.buf .frame) f.frameLen.toNat f.wantsAddressed with
  | truncated => exact .inl ⟨_, .inl rfl, rfl⟩
  | malformed => exact .inl ⟨_, .inr rfl, rfl⟩
  | mismatch r c => exact .inr (.inl ⟨r, c, rfl⟩)
  | ok d => exact .inr (.inr ⟨d, rfl, rfl⟩)

/-! ### Phase COMMIT -/

/-- What the classification of a failure response can do. -/
theorem classifyFailure_cases (f : Fcd) (d : Fields) :
    (d.payload = [] ∧ f.classifyFailure d = f.endOp .malformedFrame) ∨
    ∃ code rest, d.payload = code :: rest ∧
      let g := { f with errCode := code, errCat := errCatalog f.params code }
      (code = noTagCode ∧ f.isConsumer = true ∧ f.classifyFailure d = g.endOp .empty) ∨
      (¬(code = noTagCode ∧ f.isConsumer = true) ∧ f.classifyFailure d = g.endOp .deviceError) := by
  unfold Fcd.classifyFailure
  split
  · exact .inl ⟨by assumption, rfl⟩
  · rename_i code rest hp
    refine .inr ⟨code, rest, hp, ?_⟩
    by_cases h : code = noTagCode ∧ f.isConsumer = true
    · exact .inl ⟨h.1, h.2, by simp [h.1, h.2]⟩
    · refine .inr ⟨h, ?_⟩
      have : (f.isConsumer && code == noTagCode) = false := by
        rw [Bool.and_eq_false_iff]
        by_cases hc : f.isConsumer = true
        · exact .inr (by simp; exact fun he => h ⟨he, hc⟩)
        · exact .inl (by simpa using hc)
      simp [this]

/-- What the success handler of INVENTORY can do. -/
theorem finishInventory_cases (f : Fcd) :
    (parseInventory (f.buf .resp) f.respPlen.toNat = none ∧ f.finishInventory = f.endOp .malformedInventory) ∨
    ∃ recs, parseInventory (f.buf .resp) f.respPlen.toNat = some recs ∧
      f.finishInventory = ({ f.writeTags 0 recs with tagCount := BitVec.ofNat 8 recs.length } : Fcd).endOp .ok := by
  unfold Fcd.finishInventory
  cases h : parseInventory (f.buf .resp) f.respPlen.toNat with
  | none => exact .inl ⟨rfl, rfl⟩
  | some recs => exact .inr ⟨recs, rfl, rfl⟩

/-- What the COMMIT step can do. -/
theorem commitStep_cases (f : Fcd) :
    (∃ x, (x = .truncatedFrame ∨ x = .malformedFrame) ∧ f.commitStep = some (f.endOp x)) ∨
    (∃ r c : Byte, f.commitStep = some (({ f with respCsum := r, calcCsum := c } : Fcd).endOp .checksumMismatch)) ∨
    (∃ d : Fields, decodeFrame (f.buf .rxf) f.rxfCount.toNat f.addressed = .ok d ∧
      ((d.boot = failBoot ∧ f.commitStep = some ((f.writeFields d).classifyFailure d)) ∨
       (d.boot ≠ failBoot ∧ f.commitStep = (f.writeFields d).finishSuccess))) := by
  unfold Fcd.commitStep
  cases h : decodeFrame (f.buf .rxf) f.rxfCount.toNat f.addressed with
  | truncated => exact .inl ⟨_, .inl rfl, rfl⟩
  | malformed => exact .inl ⟨_, .inr rfl, rfl⟩
  | mismatch r c => exact .inr (.inl ⟨r, c, rfl⟩)
  | ok d =>
    refine .inr (.inr ⟨d, rfl, ?_⟩)
    by_cases hb : d.boot = failBoot
    · exact .inl ⟨hb, by simp [Fcd.commitDecode, hb]⟩
    · exact .inr ⟨hb, by simp [Fcd.commitDecode, hb]⟩

/-! ### The transport -/

/-- Outside TX and RX a transport clock changes nothing. -/
theorem transportStep_idle {s : State} (sig : Signals) (h : s.fcd.phase ≠ .tx) (h' : s.fcd.phase ≠ .rx) :
    transportStep sig s = .next s := by
  unfold transportStep
  split <;> first | rfl | contradiction

theorem transportStep_err {s : State} {sig : Signals} (h : sig.err = true)
    (hp : s.fcd.phase = .tx ∨ s.fcd.phase = .rx) : transportStep sig s = .next (transportErr s) := by
  rcases hp with hp | hp <;> simp [transportStep, hp, h]

/-- What a step of a transport clock can be: nothing, the Error, the Accept or the Deliver with the short read left for
the next step, or the Short step. -/
theorem transportStep_cases (sig : Signals) (s : State) :
    transportStep sig s = .next s ∨
    ((s.fcd.phase = .tx ∨ s.fcd.phase = .rx) ∧ sig.err = true ∧ transportStep sig s = .next (transportErr s)) ∨
    (s.fcd.phase = .tx ∧ sig.ready = true ∧ transportStep sig s = keepShort sig (acceptByte s)) ∨
    (s.fcd.phase = .rx ∧ sig.valid = true ∧ transportStep sig s = keepShort sig (deliverByte s)) ∨
    (s.fcd.phase = .rx ∧ sig.short = true ∧
      transportStep sig s = .next { s with fcd := { s.fcd with phase := .commit } }) := by
  cases hp : s.fcd.phase with
  | tx => cases he : sig.err <;> cases hr : sig.ready <;> simp [transportStep, hp, he, hr]
  | rx =>
    cases he : sig.err <;> cases hv : sig.valid <;> cases hs : sig.short <;>
      simp [transportStep, shortRead, hp, he, hv, hs]
  | idle => exact .inl (transportStep_idle sig (by simp [hp]) (by simp [hp]))
  | check => exact .inl (transportStep_idle sig (by simp [hp]) (by simp [hp]))
  | commit => exact .inl (transportStep_idle sig (by simp [hp]) (by simp [hp]))

/-- What is left of a clock after its handshake. -/
theorem keepShort_next {sig : Signals} {o : Out} {t : State} (h : keepShort sig o = .next t) :
    ∃ u, o = .next u ∧
      t = { u with turns := if sig.short then .transport shortOnly :: u.turns else u.turns } := by
  cases o with
  | next u =>
    refine ⟨u, rfl, ?_⟩
    simp only [keepShort, Host.Outcome.next.injEq] at h
    rw [← h]
    split <;> rfl
  | fault x => cases h
  | refused x => cases h

/-- An Accept step that is made. -/
theorem acceptByte_next {s : State} (h : s.fcd.txCount.toNat < bufSize .frame) :
    acceptByte s = .next { s with
      sent := s.sent ++ [s.fcd.txData]
      fcd := { s.fcd with
        txCount := s.fcd.txCount + 1
        phase := if s.fcd.txCount + 1 = s.fcd.frameLen then .rx else s.fcd.phase } } := by
  simp [acceptByte, h]

/-- What a Deliver step can do: nothing without a byte, or one byte into RXF_BUF and the phase. -/
theorem deliverByte_next {s : State} {b : Byte} {rest : List Byte} (hh : s.held = b :: rest)
    (h : s.fcd.rxfCount.toNat < bufSize .rxf) :
    ∃ p : Phase, (p = .commit ∨ p = s.fcd.phase) ∧
      (let f := { s.fcd.setBuf .rxf s.fcd.rxfCount.toNat b with rxfCount := s.fcd.rxfCount + 1 }
       (p = .commit ↔ f.frameComplete = true ∨ s.fcd.phase = .commit) ∧
       deliverByte s = .next { s with held := rest, fcd := { f with phase := p } }) := by
  refine ⟨if ({ s.fcd.setBuf .rxf s.fcd.rxfCount.toNat b with rxfCount := s.fcd.rxfCount + 1 } : Fcd).frameComplete
    then .commit else s.fcd.phase, ?_, ?_, ?_⟩
  · split <;> simp
  · split <;> simp_all
  · simp [deliverByte, hh, h]

end Sys2Proof.Laws
end

