-- ==== Sys2Proof/Laws/PerInstr.lean ====
section
/-! SUPPORT. Facts about every instruction as syntax, one lemma for each constructor. -/

namespace Sys2Proof.Laws

/-- How many bytes a slot of each format has (R100, R104, R106, R114). -/
def formatBytes : Format → Nat
  | .ctrl8 => 1
  | .htw21 => 3
  | .pseudo => 3
  | .wireFrame => 1

/-- An encoded instruction has as many bytes as its format. -/
def EncodedLength.Statement (i : Instr) : Prop := (encode i).bytes.length = formatBytes (encode i).fmt

theorem EncodedLength.send : EncodedLength.Statement .send := rfl
theorem EncodedLength.inventory : EncodedLength.Statement .inventory := rfl
theorem EncodedLength.read : EncodedLength.Statement .read := rfl
theorem EncodedLength.write : EncodedLength.Statement .write := rfl
theorem EncodedLength.encode : EncodedLength.Statement .encode := rfl
theorem EncodedLength.decode : EncodedLength.Statement .decode := rfl
theorem EncodedLength.illegalOp0 : EncodedLength.Statement .illegalOp0 := rfl
theorem EncodedLength.illegalOp7 : EncodedLength.Statement .illegalOp7 := rfl
theorem EncodedLength.illegalOpHigh (op : BitVec 4) : EncodedLength.Statement (.illegalOpHigh op) := rfl
theorem EncodedLength.ctrlNostart : EncodedLength.Statement .ctrlNostart := rfl
theorem EncodedLength.rd (a : HostAddr) : EncodedLength.Statement (.rd a) := rfl
theorem EncodedLength.wr (a : HostAddr) (d : Byte) : EncodedLength.Statement (.wr a d) := rfl
theorem EncodedLength.go (op : BitVec 4) : EncodedLength.Statement (.go op) := rfl
theorem EncodedLength.wait : EncodedLength.Statement .wait := rfl
theorem EncodedLength.clr : EncodedLength.Statement .clr := rfl
theorem EncodedLength.wireInventory : EncodedLength.Statement .wireInventory := rfl
theorem EncodedLength.wireRead : EncodedLength.Statement .wireRead := rfl
theorem EncodedLength.wireWrite : EncodedLength.Statement .wireWrite := rfl
theorem EncodedLength.wireOther (cmd : Byte) : EncodedLength.Statement (.wireOther cmd) := rfl

end Sys2Proof.Laws
end

