-- ==== Sys2Proof/Laws/Step.lean ====
section
/-! SUPPORT. What an instruction and a step can do, said once. -/

namespace Sys2Proof.Laws

open Sys2Proof.Machine

/-- What an instruction can make of the FCD: a host access, a start request, or the CHECK step with a command code. -/
inductive FcdMove (s : State) : Fcd → Prop where
  | same : FcdMove s s.fcd
  | write (l : Loc) (v : Byte) : FcdMove s (s.fcd.writeLoc l v)
  | start (op : BitVec 4) : FcdMove s (s.fcd.startOp op)
  | carry (c : Byte) (hp : s.fcd.phase = .check) (hc : s.fcd.opWireCode = some c) :
      FcdMove s (s.fcd.checkWire s.linkUp c)

theorem wireCode_some {f : Fcd} {c : Byte} (h : f.wireCode = some c) : f.phase = .check ∧ f.opWireCode = some c := by
  unfold Fcd.wireCode at h
  split at h
  · exact ⟨by assumption, h⟩
  · cases h

theorem carry_move (s : State) (c : Byte) : FcdMove s (s.carry c).fcd ∧ s.carry c = { s with fcd := (s.carry c).fcd } := by
  unfold State.carry
  split
  · rename_i h
    exact ⟨.carry c (wireCode_some h).1 (wireCode_some h).2, rfl⟩
  · exact ⟨.same, rfl⟩

/-- Every instruction answers a next state; it touches the FCD by one move, the host's read byte, draw index and
program, and nothing else. -/
theorem exec_cases (i : Instr) (s : State) :
    ∃ t, exec i s = .next t ∧ FcdMove s t.fcd ∧
      t = { s with fcd := t.fcd, hbRdata := t.hbRdata, draws := t.draws, program := t.program } := by
  have hstart : ∀ op, ∃ t, Host.Outcome.next (φ := Fault) (ρ := Refusal) (s.start op).retire = .next t ∧ FcdMove s t.fcd ∧
      t = { s with fcd := t.fcd, hbRdata := t.hbRdata, draws := t.draws, program := t.program } :=
    fun op => ⟨_, rfl, .start op, rfl⟩
  have hread : ∀ l, (s.readAt l).fcd = s.fcd ∧ s.readAt l = { s with
      hbRdata := (s.readAt l).hbRdata, draws := (s.readAt l).draws } := by
    intro l; unfold State.readAt; split <;> exact ⟨rfl, rfl⟩
  have hcarry : ∀ c, ∃ t, Host.Outcome.next (φ := Fault) (ρ := Refusal) (s.carry c) = .next t ∧ FcdMove s t.fcd ∧
      t = { s with fcd := t.fcd, hbRdata := t.hbRdata, draws := t.draws, program := t.program } :=
    fun c => ⟨_, rfl, (carry_move s c).1, by rw [(carry_move s c).2]⟩
  cases i with
  | send => exact hstart _
  | inventory => exact hstart _
  | read => exact hstart _
  | write => exact hstart _
  | encode => exact hstart _
  | decode => exact hstart _
  | illegalOp0 => exact hstart _
  | illegalOp7 => exact hstart _
  | illegalOpHigh op => exact hstart op
  | ctrlNostart => exact ⟨_, rfl, .same, rfl⟩
  | rd a =>
    refine ⟨_, rfl, ?_, ?_⟩
    · rw [State.retire, (hread _).1]; exact .same
    · rw [State.retire, (hread _).2]
  | wr a d => exact ⟨_, rfl, .write _ d, rfl⟩
  | go op => exact ⟨_, rfl, .write (.reg .ctrl) (ctrlByte op), rfl⟩
  | wait =>
    simp only [exec, execWait]
    split
    · refine ⟨_, rfl, ?_, ?_⟩
      · rw [State.retire, (hread _).1]; exact .same
      · rw [State.retire, (hread _).2]
    · refine ⟨_, rfl, ?_, ?_⟩
      · rw [(hread _).1]; exact .same
      · rw [(hread _).2]
  | clr => exact ⟨_, rfl, .write (.reg .status) 0x06, rfl⟩
  | wireInventory => exact hcarry _
  | wireRead => exact hcarry _
  | wireWrite => exact hcarry _
  | wireOther c => exact hcarry c

/-- What the host's move can answer. -/
theorem hostStep_next {s t : State} (h : hostStep s = .next t) :
    FcdMove s t.fcd ∧ t = { s with fcd := t.fcd, hbRdata := t.hbRdata, draws := t.draws, program := t.program } := by
  unfold hostStep at h
  split at h
  · cases h; exact ⟨.same, rfl⟩
  · rename_i i _
    obtain ⟨u, hu, hm, he⟩ := exec_cases i s
    rw [hu] at h
    cases h
    exact ⟨hm, he⟩
  · cases h

/-- The instruction that a command code decodes to carries that code. -/
theorem exec_decodeWire (c : Byte) (s : State) : exec (decodeWire c) s = .next (s.carry c) := by
  unfold decodeWire
  split
  · rename_i h; subst h; rfl
  · split
    · rename_i h; subst h; rfl
    · split
      · rename_i h; subst h; rfl
      · rfl

/-- What the engine's move does. -/
theorem engineTurn_cases (s : State) :
    (∃ c, s.fcd.phase = .check ∧ s.fcd.opWireCode = some c ∧
      engineTurn s = .next { s with fcd := s.fcd.checkWire s.linkUp c }) ∨
    (s.fcd.phase = .check ∧ s.fcd.opWireCode = none ∧ engineTurn s = .next { s with fcd := s.fcd.checkLocal }) ∨
    (s.fcd.phase = .commit ∧
      ((∃ g, s.fcd.commitStep = some g ∧ engineTurn s = .next { s with fcd := g }) ∨
       (s.fcd.commitStep = none ∧ engineTurn s = .fault .commitWithoutDispatch))) ∨
    ((s.fcd.phase = .idle ∨ s.fcd.phase = .tx ∨ s.fcd.phase = .rx) ∧ engineTurn s = .next s) := by
  cases hp : s.fcd.phase with
  | check =>
    cases hc : s.fcd.opWireCode with
    | none =>
      refine .inr (.inl ⟨rfl, rfl, ?_⟩)
      simp [engineTurn, fetchEngine, Fcd.wireCode, hp, hc, engineStep]
    | some c =>
      refine .inl ⟨c, rfl, rfl, ?_⟩
      have hw : s.fcd.wireCode = some c := by simp [Fcd.wireCode, hp, hc]
      simp only [engineTurn, fetchEngine, hw, Option.map_some, exec_decodeWire, State.carry, if_pos]
  | commit =>
    refine .inr (.inr (.inl ⟨rfl, ?_⟩))
    cases hg : s.fcd.commitStep with
    | none => exact .inr ⟨rfl, by simp [engineTurn, fetchEngine, Fcd.wireCode, hp, engineStep, hg]⟩
    | some g => exact .inl ⟨g, rfl, by simp [engineTurn, fetchEngine, Fcd.wireCode, hp, engineStep, hg]⟩
  | idle => exact .inr (.inr (.inr ⟨.inl rfl, by simp [engineTurn, fetchEngine, Fcd.wireCode, hp, engineStep]⟩))
  | tx => exact .inr (.inr (.inr ⟨.inr (.inl rfl), by simp [engineTurn, fetchEngine, Fcd.wireCode, hp, engineStep]⟩))
  | rx => exact .inr (.inr (.inr ⟨.inr (.inr rfl), by simp [engineTurn, fetchEngine, Fcd.wireCode, hp, engineStep]⟩))

/-- Every step that answers a next state is one of these moves. -/
theorem step_cases {s t : State} (h : step s = .next t) :
    (nextTurn s = .host ∧ hostStep s.popTurn = .next t) ∨
    (nextTurn s = .engine ∧ engineTurn s.popTurn = .next t) ∨
    (∃ sig, nextTurn s = .transport sig ∧ transportStep sig s.popTurn = .next t) ∨
    (∃ bytes, nextTurn s = .arrive bytes ∧ t = { s.popTurn with held := s.held ++ bytes }) ∨
    (nextTurn s = .drain ∧ t = { s.popTurn with held := [] }) ∨
    (∃ up, nextTurn s = .link up ∧ t = { s.popTurn with linkUp := up }) ∨
    (nextTurn s = .reset ∧ t = s.popTurn.resetFcd) := by
  unfold step at h
  split at h
  · exact .inl ⟨by assumption, h⟩
  · exact .inr (.inl ⟨by assumption, h⟩)
  · exact .inr (.inr (.inl ⟨_, by assumption, h⟩))
  · cases h; exact .inr (.inr (.inr (.inl ⟨_, by assumption, rfl⟩)))
  · cases h; exact .inr (.inr (.inr (.inr (.inl ⟨by assumption, rfl⟩))))
  · cases h; exact .inr (.inr (.inr (.inr (.inr (.inl ⟨_, by assumption, rfl⟩)))))
  · cases h; exact .inr (.inr (.inr (.inr (.inr (.inr ⟨by assumption, rfl⟩)))))

end Sys2Proof.Laws
end

