-- ==== Sys2Proof/Tests/Slice0.lean ====
section
/-! SUPPORT. The model's own tests: ill-formed terms, words written out from the encodings of 30_encoding.md, single
steps with results from 95_test_vectors.md, and for every statement with hypotheses a witness that meets them. -/

namespace Sys2Proof.Tests

open Sys2Proof.Machine

/-! ### Ill-formed terms -/

theorem test_wf_refuses_low_illegal_op : (Instr.illegalOpHigh 7).wf = false := by decide
theorem test_wf_refuses_named_wire_code :
    (Instr.wireOther 0xEE).wf = false ∧ (Instr.wireOther 0xEC).wf = false ∧ (Instr.wireOther 0xEB).wf = false := by
  decide

/-! ### Words, bit by bit from R31, R100, R104, R106 and R114 -/

/-- START, three ignored bits, OP. -/
theorem test_decode_ctrl_bytes :
    decode ⟨.ctrl8, [0b1_000_0001]⟩ = .ok .send ∧ decode ⟨.ctrl8, [0b1_000_0010]⟩ = .ok .inventory ∧
    decode ⟨.ctrl8, [0b1_111_0011]⟩ = .ok .read ∧ decode ⟨.ctrl8, [0b1_010_0100]⟩ = .ok .write ∧
    decode ⟨.ctrl8, [0b1_000_0101]⟩ = .ok .encode ∧ decode ⟨.ctrl8, [0b1_001_0110]⟩ = .ok .decode ∧
    decode ⟨.ctrl8, [0b1_000_0000]⟩ = .ok .illegalOp0 ∧ decode ⟨.ctrl8, [0b1_000_0111]⟩ = .ok .illegalOp7 ∧
    decode ⟨.ctrl8, [0b1_000_1000]⟩ = .ok (.illegalOpHigh 8) ∧
    decode ⟨.ctrl8, [0b1_100_1111]⟩ = .ok (.illegalOpHigh 15) ∧
    decode ⟨.ctrl8, [0b0_000_0111]⟩ = .ok .ctrlNostart := by decide

/-- W, twelve bits of A, eight bits of D. -/
theorem test_decode_transactions :
    decode ⟨.htw21, bytesOfWord 0b1_000000000100_00000101⟩ = .ok (.wr 0x004 0x05) ∧
    decode ⟨.htw21, bytesOfWord 0b0_010100011011_00000000⟩ = .ok (.rd 0x51B) ∧
    decode ⟨.htw21, bytesOfWord 0b0_111111111111_11111111⟩ = .ok (.rd 0xFFF) ∧
    decode ⟨.htw21, [0x00, 0x00, 0x20]⟩ = .error .notTransactionWord ∧
    decode ⟨.htw21, [0x00, 0x00]⟩ = .error .wrongLength := by decide

theorem test_decode_pseudo_instructions :
    decode ⟨.pseudo, bytesOfWord 0b1_000000000000_10000101⟩ = .ok (.go 5) ∧
    decode ⟨.pseudo, bytesOfWord 0b0_000000000001_00000000⟩ = .ok .wait ∧
    decode ⟨.pseudo, bytesOfWord 0b1_000000000001_00000110⟩ = .ok .clr ∧
    decode ⟨.pseudo, bytesOfWord 0b1_000000000001_00000010⟩ = .error .notPseudoInstruction := by decide

theorem test_decode_wire_codes :
    decode ⟨.wireFrame, [0b11101110]⟩ = .ok .wireInventory ∧ decode ⟨.wireFrame, [0b11101100]⟩ = .ok .wireRead ∧
    decode ⟨.wireFrame, [0b11101011]⟩ = .ok .wireWrite ∧ decode ⟨.wireFrame, [0b00100001]⟩ = .ok (.wireOther 0x21) := by
  decide

/-! ### Helpers -/

/-- The FCD after reset with these buffer bytes written. -/
def fcdWith (mem : List Host.Cell) : Fcd := { Fcd.reset defaultParams 0 with mem := mem }

/-- An operation in progress. -/
def busyIn (op : BitVec 4) (ph : Phase) (mem : List Host.Cell) : Fcd :=
  { fcdWith mem with ctrlOp := op, busy := true, phase := ph }

/-- A machine with this FCD and these turns to come. -/
def machine (f : Fcd) (turns : List Turn) : State := { State.reset with fcd := f, turns := turns }

/-- Bytes written from an address on. -/
def cells (a : Nat) (bytes : List Byte) : List Host.Cell := bytes.zipIdx.map fun p => (a + p.2, p.1)

/-- A property of the next state; false of a stop. -/
def nextHas (o : Out) (p : State → Bool) : Bool :=
  match o with
  | .next t => p t
  | .fault _ => false
  | .refused _ => false

/-- Phase COMMIT with this response received. -/
def committing (op : BitVec 4) (resp : List Byte) : Fcd :=
  { busyIn op .commit (cells 0xA00 resp) with rxfCount := BitVec.ofNat 9 resp.length }

/-! ### Single steps -/

/-- T-SEND-01: SEND is accepted. -/
theorem test_send_starts : nextHas (exec .send (machine (fcdWith []) [])) (fun t =>
    t.fcd.readReg .status == 0x01 && t.fcd.readReg .ctrl == 0x01 && t.fcd.phase == .check) = true := by decide

/-- T-EXC-14: a start during a SEND sets COLLIDE. -/
theorem test_inventory_collides : nextHas (exec .inventory (machine (busyIn 1 .tx []) [])) (fun t =>
    t.fcd.readReg .status == 0x05 && t.fcd.readReg .ctrl == 0x01 && t.fcd.phase == .tx) = true := by decide

/-- T-EXC-04: bits 6 to 4 of CTRL are ignored. -/
theorem test_read_starts : nextHas (exec (.wr 0x000 0xF3) (machine (fcdWith []) [])) (fun t =>
    t.fcd.readReg .ctrl == 0x03 && t.fcd.busy) = true := by decide

/-- R180: the accept of WRITE latches the shape from ADDR. -/
theorem test_write_latches_shape : nextHas (exec .write (machine { fcdWith [] with addr := 0x05 } [])) (fun t =>
    t.fcd.readReg .flags == 0x08 && t.fcd.readReg .ctrl == 0x04) = true := by decide

/-- R180: the accept of ENCODE clears DONE and the result. -/
theorem test_encode_clears : nextHas (exec .encode (machine { fcdWith [] with done := true, result := .ok } []))
    (fun t => t.fcd.readReg .status == 0x01 && t.fcd.readReg .result == 0x00) = true := by decide

/-- R180: the accept of DECODE clears the error outputs. -/
theorem test_decode_clears : nextHas (exec .decode (machine { fcdWith [] with errCode := 0x02, tagCount := 3 } []))
    (fun t => t.fcd.readReg .errCode == 0x00 && t.fcd.readReg .tagCount == 0x00) = true := by decide

/-- T-EXC-01: OP 0 reads back from CTRL. -/
theorem test_illegalOp0_starts : nextHas (exec .illegalOp0 (machine { fcdWith [] with ctrlOp := 5 } []))
    (fun t => t.fcd.readReg .ctrl == 0x00 && t.fcd.busy) = true := by decide

/-- T-EXC-02: OP 7 ends ILLEGAL_OP in one engine step; CTRL reads 07. -/
theorem test_illegalOp7_ends : nextHas (step (machine (busyIn 7 .check []) [.engine])) (fun t =>
    t.fcd.readReg .result == 0x0B && t.fcd.readReg .status == 0x02 && t.fcd.readReg .ctrl == 0x07) = true := by decide

/-- R264: OP 0xF. -/
theorem test_illegalOpHigh_ends : nextHas (step (machine (busyIn 15 .check []) [.engine])) (fun t =>
    t.fcd.readReg .result == 0x0B && t.fcd.readReg .ctrl == 0x0F) = true := by decide

/-- T-EXC-03: START = 0 changes nothing. -/
theorem test_ctrlNostart : nextHas (exec (.wr 0x000 0x07) (machine (fcdWith []) [])) (fun t =>
    decide (t.fcd = fcdWith [])) = true := by decide

/-- T-EXC-18: reserved addresses read 00. -/
theorem test_rd_reserved :
    nextHas (exec (.rd 0x01F) { machine (fcdWith []) [] with hbRdata := 0xAA }) (fun t => t.hbRdata == 0x00) = true ∧
    nextHas (exec (.rd 0xFFF) { machine (fcdWith []) [] with hbRdata := 0xAA }) (fun t => t.hbRdata == 0x00) = true := by
  decide

/-- P2, step 11: a byte of RESP_BUF. -/
theorem test_rd_respBuf : nextHas (exec (.rd 0x51B) (machine (fcdWith [(0x51B, 0xAC)]) []))
    (fun t => t.hbRdata == 0xAC) = true := by decide

/-- T-EXC-19: a write of FF to FRAME_LEN_HI reads back 01. -/
theorem test_wr_frameLenHi : nextHas (exec (.wr 0x00F 0xFF) (machine (fcdWith []) [])) (fun t =>
    t.fcd.readReg .frameLenHi == 0x01 && t.fcd.readReg .frameLenLo == 0x00) = true := by decide

/-- T-EXC-17: BUSY is read-only. -/
theorem test_wr_status_bit0 : nextHas (exec (.wr 0x001 0x01) (machine { fcdWith [] with done := true } [])) (fun t =>
    t.fcd.readReg .status == 0x02) = true := by decide

/-- P1, step 7. -/
theorem test_go_encode : nextHas (exec (.go 5) (machine (fcdWith []) [])) (fun t =>
    t.fcd.readReg .ctrl == 0x05 && t.fcd.readReg .status == 0x01) = true := by decide

/-- P5, step 14: the byte that lets the host go on. -/
theorem test_wait_done : nextHas (exec .wait { machine { fcdWith [] with done := true, collide := true } [] with
    program := [.word (encode .wait)] }) (fun t => t.hbRdata == 0x06 && decide (t.program = [])) = true := by decide

/-- R106: WAIT reads STATUS again while DONE = 0. -/
theorem test_wait_busy : nextHas (exec .wait { machine (busyIn 1 .rx []) [] with program := [.word (encode .wait)] })
    (fun t => t.hbRdata == 0x01 && t.program.length == 1) = true := by decide

/-- P5, steps 18 and 19. -/
theorem test_clr : nextHas (exec .clr (machine { fcdWith [] with done := true, collide := true } [])) (fun t =>
    t.fcd.readReg .status == 0x00) = true := by decide

/-- The request of INVENTORY with no payload (2.6). -/
theorem test_wireInventory_request : nextHas (exec .wireInventory (machine (busyIn 2 .check []) [])) (fun t =>
    t.fcd.slice .frame 4 == [0x40, 0x02, 0xEE, 0xD0] && t.fcd.frameLen == 4 && t.fcd.phase == .tx) = true := by decide

/-- T-ENC-03: ENCODE with command code EE. -/
theorem test_wireInventory_encode : nextHas (exec .wireInventory (machine
    { busyIn 5 .check (cells 0x100 [0x01, 0x02, 0x03]) with
      boot := 0x40, cmdCode := 0xEE, addr := 0x05, payloadLen := 3 } [])) (fun t =>
    t.fcd.slice .frame 8 == [0x40, 0x06, 0xEE, 0x05, 0x01, 0x02, 0x03, 0xC1] && t.fcd.frameLen == 8 &&
      t.fcd.readReg .result == 0x01 && t.fcd.phase == .idle) = true := by decide

/-- T-RD-05. -/
theorem test_wireRead_request : nextHas (exec .wireRead (machine
    { busyIn 3 .check (cells 0x200 [0xAB, 0xCD] ++ cells 0x400 [0x12, 0x34, 0x56, 0x78]) with
      tidLen := 2, bank := 1, startWord := 2, wordCount := 6, pwLen := 4 } [])) (fun t =>
    t.fcd.slice .frame 14 ==
      [0x40, 0x0C, 0xEC, 0x01, 0xAB, 0xCD, 0x01, 0x02, 0x06, 0x12, 0x34, 0x56, 0x78, 0x32]) = true := by decide

/-- T-RD-14: the password length is checked first. -/
theorem test_wireRead_password : nextHas (exec .wireRead (machine
    { busyIn 3 .check [] with tidLen := 3, pwLen := 3 } [])) (fun t => t.fcd.readReg .result == 0x08) = true := by decide

/-- T-WR-05. -/
theorem test_wireWrite_request : nextHas (exec .wireWrite (machine
    { busyIn 4 .check (cells 0x400 [0x12, 0x34, 0x56, 0x78]) with bank := 3, wordCount := 0x99, pwLen := 4 } []))
    (fun t => t.fcd.slice .frame 12 ==
      [0x40, 0x0A, 0xEB, 0x00, 0x03, 0x00, 0x00, 0x12, 0x34, 0x56, 0x78, 0xB4]) = true := by decide

/-- T-WR-06: odd data. -/
theorem test_wireWrite_odd_data : nextHas (exec .wireWrite (machine
    { busyIn 4 .check [] with dataLen := 7, pwLen := 4 } [])) (fun t => t.fcd.readReg .result == 0x07) = true := by decide

/-- T-EXC-05: SEND with the transport closed. -/
theorem test_wireOther_link_down : nextHas (exec (.wireOther 0x21) { machine
    { busyIn 1 .check [] with cmdCode := 0x21 } [] with linkUp := false }) (fun t =>
    t.fcd.slice .frame 4 == [0x40, 0x02, 0x21, 0x9D] && t.fcd.frameLen == 4 && t.fcd.txCount == 0 &&
      t.fcd.readReg .result == 0x06) = true := by decide

/-- T-DEC-12: a flip of the length field that decodes. -/
theorem test_decode_length_flip : nextHas (step (machine
    { busyIn 6 .check (cells 0x600 [0x40, 0x04, 0xEE, 0x00, 0x00, 0xCE, 0xFF]) with frameLen := 7 } [.engine])) (fun t =>
    t.fcd.readReg .result == 0x01 && t.fcd.respPlen == 2 && t.fcd.respCsum == 0xCE && t.fcd.calcCsum == 0xCE &&
      t.fcd.readReg .flags == 0x01) = true := by decide

/-- T-DEC-06. -/
theorem test_decode_mismatch : nextHas (step (machine
    { busyIn 6 .check (cells 0x600 [0x40, 0x05, 0xEE, 0x01, 0x02, 0x03, 0xC6]) with frameLen := 7 } [.engine])) (fun t =>
    t.fcd.readReg .result == 0x04 && t.fcd.respCsum == 0xC6 && t.fcd.calcCsum == 0xC7 &&
      t.fcd.readReg .flags == 0x00) = true := by decide

/-- T-INV-10. -/
theorem test_inventory_commit : nextHas (step (machine
    (committing 2 [0x40, 0x08, 0xEE, 0x02, 0x00, 0x00, 0x01, 0x11, 0x22, 0x94]) [.engine])) (fun t =>
    t.fcd.readReg .result == 0x01 && t.fcd.tagCount == 2 && t.fcd.slice .tagOff 2 == [0x02, 0x04] &&
      t.fcd.slice .tagWords 2 == [0x00, 0x01]) = true := by decide

/-- T-SEND-02: error code 02 is no empty result of SEND. -/
theorem test_send_device_error : nextHas (step (machine
    (committing 1 [0xF4, 0x03, 0x21, 0x02, 0xE6]) [.engine])) (fun t =>
    t.fcd.readReg .result == 0x03 && t.fcd.readReg .errCode == 0x02 && t.fcd.readReg .errCat == 0x02) = true := by decide

/-- T-RD-03. -/
theorem test_read_empty : nextHas (step (machine (committing 3 [0xF4, 0x03, 0xEC, 0x02, 0x1B]) [.engine])) (fun t =>
    t.fcd.readReg .result == 0x02 && t.fcd.readReg .flags == 0x01) = true := by decide

/-- T-WR-01. -/
theorem test_write_commit : nextHas (step (machine (committing 4 [0x40, 0x02, 0xEB, 0xD3]) [.engine])) (fun t =>
    t.fcd.readReg .result == 0x01 && t.fcd.readReg .flags == 0x05) = true := by decide

/-- T-EXC-11: the last byte and a short read in one clock: the Deliver step first, the short read left for the next. -/
theorem test_deliver_before_short : nextHas (step { machine
    { busyIn 1 .rx (cells 0xA00 [0x40, 0x04, 0x21, 0x01, 0x02]) with rxfCount := 5 }
    [.transport ⟨false, false, true, true⟩] with held := [0x98] }) (fun t =>
    t.fcd.phase == .commit && t.fcd.rxfCount == 6 && t.fcd.buf .rxf 5 == 0x98 &&
      t.turns == [.transport ⟨false, false, false, true⟩]) = true := by decide

/-- R24, R187 and R189: a short read in the clock of the last Accept is taken after it, in phase RX. -/
theorem test_short_after_last_accept :
    nextHas (step (machine { busyIn 1 .tx (cells 0x600 [0x40, 0x02, 0x21, 0x9D]) with frameLen := 4, txCount := 3 }
      [.transport ⟨false, true, false, true⟩])) (fun t =>
        t.fcd.phase == .rx && t.fcd.txCount == 4 && nextHas (step t) (fun u => u.fcd.phase == .commit)) = true := by
  decide

/-! ### Witnesses: for every statement of Certificates/Slice0/Obligations.lean with hypotheses, states and operands that
meet them, each clause at a boundary of its range -/

theorem witness_DecodeEncodeRoundTrip :
    (Instr.illegalOpHigh 8).wf = true ∧ (Instr.illegalOpHigh 15).wf = true ∧ (Instr.wireOther 0xFF).wf = true ∧
    (Instr.wr 0xFFF 0xFF).wf = true := by decide

theorem witness_DecodedInstrIsWellFormed :
    decode ⟨.ctrl8, [0x88]⟩ = .ok (.illegalOpHigh 8) ∧ decode ⟨.wireFrame, [0xED]⟩ = .ok (.wireOther 0xED) := by decide

theorem witness_CtrlBytesFollowTableRows :
    (0xF1 : Byte) &&& 0x8F = 0x81 ∧ (0xF2 : Byte) &&& 0x8F = 0x82 ∧ (0x93 : Byte) &&& 0x8F = 0x83 ∧
    (0x84 : Byte) &&& 0x8F = 0x84 ∧ (0xA5 : Byte) &&& 0x8F = 0x85 ∧ (0x86 : Byte) &&& 0x8F = 0x86 ∧
    (0xC0 : Byte) &&& 0x8F = 0x80 ∧ (0xF7 : Byte) &&& 0x8F = 0x87 ∧ (0xFF : Byte) &&& 0x88 = 0x88 ∧
    (0x7F : Byte) &&& 0x80 = 0x00 := by decide

theorem witness_TransactionWordFields :
    (0x1FFFFF#24).toNat < 2 ^ 21 ∧ (0x1FFFFF#24).toNat / 2 ^ 20 = 1 ∧ (0x0FFFFF#24).toNat / 2 ^ 20 ≠ 1 := by decide

/-- SEND at the head of the host's program, with the host's turn. -/
def hostSend : State := { machine (fcdWith []) [.host] with program := [.word (encode .send)] }

theorem witness_StepRunsHostInstr :
    nextTurn hostSend = .host ∧ hostSend.program = .word ⟨.ctrl8, [0x81]⟩ :: [] ∧ Format.ctrl8 ≠ .wireFrame ∧
    decode ⟨.ctrl8, [0x81]⟩ = .ok .send := by decide

/-- Phase CHECK of INVENTORY, with the engine's turn. -/
def checkInventory : State := machine (busyIn 2 .check []) [.engine]

theorem witness_StepRunsWireCode :
    (nextTurn checkInventory = .engine ∧ checkInventory.fcd.phase = .check ∧
      checkInventory.fcd.opWireCode = some 0xEE ∧ decode ⟨.wireFrame, [0xEE]⟩ = .ok .wireInventory) ∧
    ¬(hostSend.fcd.phase = .check ∧ hostSend.fcd.opWireCode = some 0xEE) ∧
    ¬(checkInventory.fcd.phase = .check ∧ checkInventory.fcd.opWireCode = some 0xEC) := by decide

theorem witness_PlacedWordRuns :
    decodeTableWord 8 0xEE = some .wireInventory ∧ decodeTableWord 8 0x00 = some .ctrlNostart ∧
    decodeTableWord 24 0x1FFFFF = some (.wr 0xFFF 0xFF) := by decide

theorem witness_RegistersReadAtTheirAddresses :
    State.reset.fcd.busy = false ∧ State.reset.fcd.result = .none ∧ State.reset.fcd.errCat = .commandSuccess ∧
    (let s := machine { fcdWith [] with result := .illegalOp, errCat := .unrecognizedError, done := true } []
     s.fcd.busy = false ∧ s.fcd.result = .illegalOp ∧ s.fcd.errCat = .unrecognizedError) := by decide

/-- The nine buffers of R70. -/
def bufferMap : List (Buf × Nat × Nat) :=
  [(Buf.payload, 0x100, 256), (.tid, 0x200, 256), (.data, 0x300, 256), (.pw, 0x400, 4), (.resp, 0x500, 256),
    (.frame, 0x600, 257), (.tagOff, 0x800, 256), (.tagWords, 0x900, 256), (.rxf, 0xA00, 257)]

theorem witness_BuffersReadAtTheirAddresses :
    State.reset.fcd.busy = false ∧ (.payload, 0x100, 256) ∈ bufferMap ∧ 0 < 256 ∧ (.pw, 0x400, 4) ∈ bufferMap ∧ 3 < 4 ∧
    (.rxf, 0xA00, 257) ∈ bufferMap ∧ 256 < 257 := by decide

/-- An operation in phase RX. -/
def receiving : State := machine (busyIn 1 .rx []) []

theorem witness_BusyReadsOfOutputsAreFree :
    let free := fun n : Nat => n = 0x002 ∨ (0x00E ≤ n ∧ n ≤ 0x01A) ∨ (0x500 ≤ n ∧ n ≤ 0x5FF) ∨
      (0x600 ≤ n ∧ n ≤ 0x700) ∨ (0x800 ≤ n ∧ n ≤ 0x9FF) ∨ (0xA00 ≤ n ∧ n ≤ 0xB00)
    receiving.fcd.busy = true ∧
    (∀ a ∈ ([0x002, 0x00E, 0x01A, 0x500, 0x5FF, 0x600, 0x700, 0x800, 0x9FF, 0xA00, 0xB00] : List HostAddr),
      free a.toNat) ∧
    (∀ a ∈ ([0x000, 0x001, 0x003, 0x00D, 0x01B, 0x01E, 0x100, 0x403, 0x4FF, 0x701, 0x7FF, 0xB01] : List HostAddr),
      ¬free a.toNat) := by
  simp [receiving, machine, busyIn]

theorem witness_ReservedReadsZeroIgnoresWrites :
    (∀ a ∈ ([0x01F, 0x0FF] : List HostAddr), 0x01F ≤ a.toNat ∧ a.toNat ≤ 0x0FF) ∧
    (∀ a ∈ ([0x404, 0x4FF] : List HostAddr), 0x404 ≤ a.toNat ∧ a.toNat ≤ 0x4FF) ∧
    (∀ a ∈ ([0x701, 0x7FF] : List HostAddr), 0x701 ≤ a.toNat ∧ a.toNat ≤ 0x7FF) ∧
    (∀ a ∈ ([0xB01, 0xFFF] : List HostAddr), 0xB01 ≤ a.toNat) := by simp

theorem witness_BusyWritesAreIgnored :
    checkInventory.fcd.busy = true ∧ nextTurn checkInventory ≠ .reset ∧ (∃ t, step checkInventory = .next t) ∧
    255 < bufSize .payload ∧ 3 < bufSize .pw := ⟨by decide, by decide, ⟨_, rfl⟩, by decide, by decide⟩

theorem witness_IdleRegisterWrites :
    State.reset.fcd.busy = false ∧ 0x010 ≤ (0x010 : HostAddr).toNat ∧ (0x010 : HostAddr).toNat ≤ 0x01E ∧
    0x010 ≤ (0x01E : HostAddr).toNat ∧ (0x01E : HostAddr).toNat ≤ 0x01E := by decide

theorem witness_IdleBufferWrites :
    let rows := bufferMap.map fun r => (r.1, r.2.1, r.2.2, bufHostWritable r.1)
    rows = [(Buf.payload, 0x100, 256, true), (.tid, 0x200, 256, true), (.data, 0x300, 256, true), (.pw, 0x400, 4, true),
      (.resp, 0x500, 256, false), (.frame, 0x600, 257, true), (.tagOff, 0x800, 256, false),
      (.tagWords, 0x900, 256, false), (.rxf, 0xA00, 257, false)] ∧
    State.reset.fcd.busy = false ∧ (.pw, 0x400, 4, true) ∈ rows ∧ 3 < 4 ∧ (.frame, 0x600, 257, true) ∈ rows ∧
    256 < 257 ∧ (.resp, 0x500, 256, false) ∈ rows := by decide

theorem witness_CountersSplitLittleEndian : State.reset.fcd.busy = false := by decide

theorem witness_FillAndSetLenExpand :
    State.reset.fcd.busy = false ∧ (Buf.pw, 0x400, 4) ∈ bufferMap ∧
    ([0x12, 0x34, 0x56, 0x78] : List Byte).length ≤ 4 ∧ (Buf.frame, 0x600, 257) ∈ bufferMap ∧ 511 < 512 := by decide

theorem witness_StartAcceptedWhenIdle :
    State.reset.fcd.busy = false ∧ 8 ≤ (8#4).toNat ∧ 8 ≤ (15#4).toNat := by decide

theorem witness_StartRefusedWhenBusy : receiving.fcd.busy = true ∧ 8 ≤ (8#4).toNat := by decide

theorem witness_CtrlWriteIsStartRequest :
    (0x80 : Byte).getLsbD 7 = true ∧ (0xFF : Byte).getLsbD 7 = true ∧ receiving.fcd.busy = true ∧
    State.reset.fcd.busy = false := by decide

theorem witness_CtrlWriteRunsItsByte :
    decode ⟨.ctrl8, [0x00]⟩ = .ok .ctrlNostart ∧ decode ⟨.ctrl8, [0xFF]⟩ = .ok (.illegalOpHigh 15) := by decide

theorem witness_IrqIsDoneAndEnabled :
    (0x02 : Byte).getLsbD 1 = true ∧ (0xFE : Byte).getLsbD 0 = false ∧
    (∃ t, exec (.wr 0x001 0x02) receiving = .next t) ∧ ∃ t, exec (.wr 0x00D 0xFE) receiving = .next t :=
  ⟨by decide, by decide, ⟨_, rfl⟩, ⟨_, rfl⟩⟩

/-- Inputs of READ and WRITE: one word of identifier, one of data, a password. -/
def blockInputs (op : BitVec 4) : Fcd :=
  { busyIn op .check (cells 0x200 [0xAB, 0xCD] ++ cells 0x300 [0x11, 0x22] ++ cells 0x400 [0x12, 0x34, 0x56, 0x78])
    with tidLen := 2, dataLen := 2, bank := 1, startWord := 2, wordCount := 6, pwLen := 4 }

theorem witness_WordBlockPayloadLayout :
    (blockInputs 3).buildReadPayload = .ok [0x01, 0xAB, 0xCD, 0x01, 0x02, 0x06, 0x12, 0x34, 0x56, 0x78] ∧
    (blockInputs 4).buildWritePayload =
      .ok [0x01, 0xAB, 0xCD, 0x01, 0x02, 0x01, 0x11, 0x22, 0x12, 0x34, 0x56, 0x78] := by decide

/-- Phase CHECK of READ or WRITE with these lengths, at the engine's turn. -/
def checkBlock (op : BitVec 4) (tid data pw : Byte) (up : Bool) : State :=
  { machine { blockInputs op with tidLen := tid, dataLen := data, pwLen := pw } [.engine] with linkUp := up }

/-- The premises of every clause: the password length, the parities, and the payload at the limit and above it, with the
transport closed and open. -/
theorem witness_WordBlockChecksInOrder :
    (∀ op ∈ ([3, 4] : List (BitVec 4)), ∀ up ∈ [false, true],
      let s := checkBlock op 244 0 4 up
      nextTurn s = .engine ∧ s.fcd.phase = .check ∧ s.fcd.ctrlOp = op ∧ s.fcd.addr = 0 ∧ s.linkUp = up ∧
      s.fcd.params.maxPayloadUnaddr.val = 252) ∧
    (checkBlock 3 2 2 3 true).fcd.pwLen ≠ 4 ∧ (checkBlock 4 2 2 5 true).fcd.pwLen ≠ 4 ∧
    (checkBlock 3 1 2 4 true).fcd.pwLen = 4 ∧ (checkBlock 3 1 2 4 true).fcd.tidLen.toNat % 2 = 1 ∧
    (checkBlock 4 2 255 4 true).fcd.tidLen.toNat % 2 = 0 ∧ (checkBlock 4 2 255 4 true).fcd.dataLen.toNat % 2 = 1 ∧
    (checkBlock 3 244 0 4 true).fcd.tidLen.toNat % 2 = 0 ∧ 8 + (checkBlock 3 244 0 4 true).fcd.tidLen.toNat = 252 ∧
    252 < 8 + (checkBlock 3 246 0 4 true).fcd.tidLen.toNat ∧
    (let f := (checkBlock 4 12 232 4 true).fcd
     f.pwLen = 4 ∧ f.tidLen.toNat % 2 = 0 ∧ f.dataLen.toNat % 2 = 0 ∧ 8 + f.tidLen.toNat + f.dataLen.toNat = 252) ∧
    (let f := (checkBlock 4 12 234 4 true).fcd
     f.tidLen.toNat % 2 = 0 ∧ f.dataLen.toNat % 2 = 0 ∧ 252 < 8 + f.tidLen.toNat + f.dataLen.toNat) := by decide

/-- Phase CHECK with the largest unaddressed payload of the default parameters. -/
def checkFull (op : BitVec 4) (cmd : Byte) : State :=
  machine { busyIn op .check [] with cmdCode := cmd, payloadLen := 252 } [.engine]

/-- The premises of every clause: SEND and INVENTORY with the largest raw payload, READ and WRITE with the largest
payload of their own. -/
theorem witness_WireCodeStartsItsRequest :
    (∀ c ∈ ([0x21, 0xEE, 0xEC, 0xEB] : List Byte),
      let s := checkFull 1 c
      s.fcd.phase = .check ∧ s.linkUp = true ∧ s.fcd.ctrlOp = 1 ∧ s.fcd.cmdCode = c) ∧
    ((checkFull 2 0x00).fcd.phase = .check ∧ (checkFull 2 0x00).linkUp = true ∧ (checkFull 2 0x00).fcd.ctrlOp = 2) ∧
    (∀ op ∈ ([1, 2] : List (BitVec 4)),
      (checkFull op 0x21).fcd.addr = 0 ∧
      (checkFull op 0x21).fcd.payloadLen.toNat = (checkFull op 0x21).fcd.params.maxPayloadUnaddr.val) ∧
    (let s := checkBlock 3 244 0 4 true
     s.fcd.phase = .check ∧ s.linkUp = true ∧ s.fcd.ctrlOp = 3 ∧ s.fcd.pwLen = 4 ∧ s.fcd.tidLen.toNat % 2 = 0 ∧
     8 + s.fcd.tidLen.toNat = s.fcd.params.maxPayloadUnaddr.val) ∧
    (let s := checkBlock 4 12 232 4 true
     s.fcd.phase = .check ∧ s.linkUp = true ∧ s.fcd.ctrlOp = 4 ∧ s.fcd.pwLen = 4 ∧ s.fcd.tidLen.toNat % 2 = 0 ∧
     s.fcd.dataLen.toNat % 2 = 0 ∧
     8 + s.fcd.tidLen.toNat + s.fcd.dataLen.toNat = s.fcd.params.maxPayloadUnaddr.val) := by decide

theorem witness_RawDispatchTurnedAway :
    (checkFull 1 0x21).fcd.opWireCode = some 0x21 ∧ decode ⟨.wireFrame, [0x21]⟩ = .ok (.wireOther 0x21) ∧
    (checkFull 2 0x21).fcd.opWireCode = some 0xEE ∧ decode ⟨.wireFrame, [0xEE]⟩ = .ok .wireInventory ∧
    (checkFull 1 0x21).fcd.phase = .check ∧ (checkFull 1 0x21).fcd.addr = 0 ∧
    (checkFull 1 0x21).fcd.payloadLen.toNat ≤ defaultParams.maxPayloadUnaddr.val ∧
    defaultParams.maxPayloadUnaddr.val < (253 : Byte).toNat ∧
    ({ checkFull 1 0x21 with linkUp := false } : State).linkUp = false := by decide

theorem witness_EncodeBuildsFrame :
    (checkFull 5 0x10).fcd.phase = .check ∧ (checkFull 5 0x10).fcd.ctrlOp = 5 ∧
    decode ⟨.wireFrame, [(checkFull 5 0x10).fcd.cmdCode]⟩ = .ok (.wireOther 0x10) ∧
    (checkFull 5 0x10).fcd.payloadLen.toNat = defaultParams.maxPayloadUnaddr.val ∧
    defaultParams.maxPayloadUnaddr.val < (253 : Byte).toNat := by decide

theorem witness_ReservedOpEndsIllegal : ∀ op ∈ ([0, 7, 8, 15] : List (BitVec 4)),
    let s := machine (busyIn op .check []) [.engine]
    nextTurn s = .engine ∧ s.fcd.phase = .check ∧ (s.fcd.ctrlOp = 0 ∨ 7 ≤ s.fcd.ctrlOp.toNat) := by decide

/-- Phase CHECK of DECODE with these bytes in FRAME_BUF. -/
def decoding (frame : List Byte) : State :=
  machine { busyIn 6 .check (cells 0x600 frame) with frameLen := BitVec.ofNat 9 frame.length } [.engine]

/-- The outcome that DECODE writes. -/
def decodingOutcome (frame : List Byte) : Decoded :=
  decodeFrame ((decoding frame).fcd.buf .frame) (decoding frame).fcd.frameLen.toNat
    (decide ((decoding frame).fcd.addr ≠ 0))

theorem witness_DecodeWritesOutcome :
    nextTurn (decoding []) = .engine ∧ (decoding []).fcd.phase = .check ∧ (decoding []).fcd.ctrlOp = 6 ∧
    decodingOutcome [0x40] = .truncated ∧ decodingOutcome [0x40, 0x01, 0xBF] = .malformed ∧
    decodingOutcome [0x40, 0x02, 0xEE, 0xD1] = .mismatch 0xD1 0xD0 ∧
    decodingOutcome [0xF0, 0x02, 0xEE, 0x20] = .ok ⟨0xF0, 0x02, 0xEE, 0x00, 0, [], 0x20, 0x20⟩ := by decide

/-- T-ENC-02 and T-ENC-03. -/
theorem witness_EncodedFrameShape :
    encodeFrame defaultParams 0x40 0xEE false 0 [0x01, 0x02, 0x03] =
      some [0x40, 0x05, 0xEE, 0x01, 0x02, 0x03, 0xC7] ∧
    encodeFrame defaultParams 0x40 0xEE true 0x05 [0x01, 0x02, 0x03] =
      some [0x40, 0x06, 0xEE, 0x05, 0x01, 0x02, 0x03, 0xC1] := by decide

theorem encodes {p : Params} {boot cmd addr : Byte} {a : Bool} {P : List Byte} (h : ¬P.length > payloadLimit p a) :
    ∃ F, encodeFrame p boot cmd a addr P = some F := ⟨_, if_neg h⟩

/-- T-ENC-08 to T-ENC-11: the largest payloads, and one byte more. -/
theorem witness_PayloadLimitDecides :
    (∃ F, encodeFrame defaultParams 0x40 0x10 false 0 (List.replicate 252 0) = some F) ∧
    encodeFrame defaultParams 0x40 0x10 false 0 (List.replicate 253 0) = none ∧
    (∃ F, encodeFrame defaultParams 0x40 0x10 true 0x01 (List.replicate 251 0) = some F) ∧
    encodeFrame defaultParams 0x40 0x10 true 0x01 (List.replicate 252 0) = none :=
  ⟨encodes (by rw [List.length_replicate]; decide), if_pos (by rw [List.length_replicate]; decide),
    encodes (by rw [List.length_replicate]; decide), if_pos (by rw [List.length_replicate]; decide)⟩

/-- T-DEC-04 and T-DEC-14. -/
theorem witness_DecodedFieldsSplit :
    (let F := fun i : Nat => ([0xF0, 0x02, 0xEE, 0x20] : List Byte).getD i 0
     2 + (F 1).toNat ≤ 4 ∧ 1 + 1 ≤ (F 1).toNat ∧
      F ((F 1).toNat + 1) = csum8 ((List.range ((F 1).toNat + 1)).map F)) ∧
    (let F := fun i : Nat => ([0x40, 0x06, 0xEE, 0x05, 0x01, 0x02, 0x03, 0xC1] : List Byte).getD i 0
     2 + (F 1).toNat ≤ 8 ∧ 2 + 1 ≤ (F 1).toNat ∧
      F ((F 1).toNat + 1) = csum8 ((List.range ((F 1).toNat + 1)).map F)) := by decide

theorem witness_CodecRoundTrip : encodeFrame defaultParams 0x40 0xEE false 0 [] = some [0x40, 0x02, 0xEE, 0xD0] := by
  decide

/-- T-DEC-07 to T-DEC-12: the flips of a payload bit, of length bits 1, 2 and 0, and the frame whose flip decodes. -/
theorem witness_SingleBitFlip :
    let F : List Byte := [0x40, 0x05, 0xEE, 0x01, 0x02, 0x03, 0xC7]
    let H : List Byte := [0x40, 0x05, 0xEE, 0x00, 0x00, 0xCE, 0xFF]
    encodeFrame defaultParams 0x40 0xEE false 0 [0x01, 0x02, 0x03] = some F ∧
    encodeFrame defaultParams 0x40 0xEE false 0 [0x00, 0x00, 0xCE] = some H ∧
    (3 < F.length ∧ 6 < F.length ∧ 7 < 8) ∧ 5 < (0x05 ^^^ BitVec.twoPow 8 1 : Byte).toNat ∧
    (0x05 ^^^ BitVec.twoPow 8 2 : Byte).toNat < 2 ∧ (0x05 ^^^ BitVec.twoPow 8 0 : Byte).toNat = 4 ∧
    sum8 ((F.set 1 0x04).take 6) ≠ 0 ∧ sum8 ((H.set 1 0x04).take 6) = 0 := by decide

/-- Phase TX at the last byte of T-SEND-01's request. -/
def sending (turns : List Turn) : State :=
  machine { busyIn 1 .tx (cells 0x600 [0x40, 0x02, 0x21, 0x9D]) with frameLen := 4, txCount := 3 } turns

theorem witness_AcceptStepSendsOneByte :
    let s := sending [.transport ⟨false, true, false, false⟩]
    nextTurn s = .transport ⟨false, true, false, false⟩ ∧ s.fcd.phase = .tx ∧
    s.fcd.txCount.toNat < bufSize .frame := by decide

/-- Phase RX with these bytes received, and this one on its way. -/
def receivingAt (got : List Byte) (n : Nat) (b : Byte) (turns : List Turn) : State :=
  { machine { busyIn 1 .rx (cells 0xA00 got) with rxfCount := BitVec.ofNat 9 n } turns with held := [b] }

theorem inv_receivingAt_start : (receivingAt [] 0 0x40 []).fcd.Inv := by
  constructor <;> decide

theorem safe_receivingAt_start (turns : List Turn) : Safe (receivingAt [] 0 0x40 turns) := inv_receivingAt_start

/-- The last byte that RXF_BUF holds: a length field of 255 asks for 257 bytes. -/
theorem inv_receivingAt_end : (receivingAt [0x40, 0xFF] 256 0x00 []).fcd.Inv := by
  constructor <;> decide

theorem safe_receivingAt_end (turns : List Turn) : Safe (receivingAt [0x40, 0xFF] 256 0x00 turns) :=
  inv_receivingAt_end

theorem witness_DeliverStepTakesOneByte :
    let sig : Signals := ⟨false, false, true, false⟩
    let s := receivingAt [0x40, 0xFF] 256 0x00 [.transport sig]
    Safe s ∧ nextTurn s = .transport sig ∧ sig.err = false ∧ sig.valid = true ∧ sig.short = false ∧
    s.fcd.phase = .rx ∧ s.held = 0x00 :: [] :=
  ⟨safe_receivingAt_end _, by decide⟩

theorem witness_ShortReadEndsTruncated :
    let sig : Signals := ⟨false, false, false, true⟩
    let turns : List Turn := [.transport sig, .engine]
    Safe (receivingAt [] 0 0x40 turns) ∧ Safe (receivingAt [0x40, 0xFF] 256 0x00 turns) ∧
    (receivingAt [] 0 0x40 turns).turns = .transport sig :: .engine :: [] ∧ sig.err = false ∧ sig.valid = false ∧
    sig.short = true ∧ (receivingAt [] 0 0x40 turns).fcd.phase = .rx :=
  ⟨safe_receivingAt_start _, safe_receivingAt_end _, by decide⟩

theorem witness_TransportErrorEndsOperation :
    let sig : Signals := ⟨true, true, true, true⟩
    nextTurn (sending [.transport sig]) = .transport sig ∧ sig.err = true ∧ (sending []).fcd.phase = .tx ∧
    nextTurn (receivingAt [] 0 0x40 [.transport sig]) = .transport sig ∧
    (receivingAt [] 0 0x40 []).fcd.phase = .rx := by decide

/-- The premises of every clause; of the last one, at the last Accept and at the last Deliver of a frame. -/
theorem witness_SignalsCountInTheirPhase :
    let quiet : Signals := ⟨false, false, false, false⟩
    let all : Signals := ⟨true, true, true, true⟩
    let noError : Signals := ⟨false, true, true, true⟩
    (∀ sig ∈ [quiet, all, noError, shortOnly], nextTurn (sending [.transport sig]) = .transport sig ∧
      nextTurn (receivingAt [] 0 0x40 [.transport sig]) = .transport sig) ∧
    (∀ ph ∈ [Phase.idle, .check, .commit], (busyIn 1 ph []).phase = ph) ∧
    ((sending []).fcd.phase = .tx ∧ (receivingAt [] 0 0x40 []).fcd.phase = .rx ∧ noError = { all with err := false }) ∧
    (∃ t, step (sending [.transport { noError with short := false }]) = .next t ∧ t.fcd.phase = .rx) ∧
    ∃ t, step (receivingAt [0x40, 0xFF] 256 0x00 [.transport { noError with short := false }]) = .next t ∧
      t.fcd.phase = .commit := by
  refine ⟨?_, ?_, ?_, ⟨_, rfl, rfl⟩, _, rfl, rfl⟩ <;> decide

theorem witness_StreamsMoveOnlyInTheirPhases :
    (∃ t, step (sending [.transport ⟨false, true, false, false⟩]) = .next t) ∧
    (∃ t, step (receivingAt [] 0 0x40 [.transport ⟨false, false, true, false⟩]) = .next t) ∧
    (∃ t, step (sending [.arrive [0x40]]) = .next t) ∧
    (∃ t, step (sending [.link false]) = .next t ∧ nextTurn (sending [.link false]) = .link false) ∧
    ∀ up : Bool, nextTurn (sending [.reset]) ≠ .link up :=
  ⟨⟨_, rfl⟩, ⟨_, rfl⟩, ⟨_, rfl⟩, ⟨_, rfl, rfl⟩, fun _ h => nomatch h⟩

/-- Phase COMMIT with this response, at the engine's turn. -/
def commitTurn (op : BitVec 4) (resp : List Byte) : State := machine (committing op resp) [.engine]

/-- The outcome of decoding that response. -/
def responseOutcome (op : BitVec 4) (resp : List Byte) : Decoded :=
  decodeFrame ((commitTurn op resp).fcd.buf .rxf) (commitTurn op resp).fcd.rxfCount.toNat
    (commitTurn op resp).fcd.addressed

/-- T-EXC-08, T-EXC-12 and T-RD-08's kind, on a short frame. -/
theorem witness_CommitOfBadFrame :
    nextTurn (commitTurn 1 []) = .engine ∧ (commitTurn 1 []).fcd.phase = .commit ∧
    responseOutcome 1 [0x40] = .truncated ∧ responseOutcome 1 [0x40, 0x00] = .malformed ∧
    responseOutcome 1 [0x40, 0x02, 0xEC, 0xD3] = .mismatch 0xD3 0xD2 := by decide

/-- Phase COMMIT with T-SEND-03's response, and with T-INV-3's. -/
theorem inv_commit_failure : (committing 1 [0xF4, 0x02, 0x21, 0xE9]).Inv ∧ (committing 2 [0xF4, 0x03, 0xEE, 0x02, 0x19]).Inv :=
  ⟨by constructor <;> decide, by constructor <;> decide⟩

/-- T-SEND-03, T-INV-3. -/
theorem witness_FailureResponseClassified :
    Safe (commitTurn 1 [0xF4, 0x02, 0x21, 0xE9]) ∧ Safe (commitTurn 2 [0xF4, 0x03, 0xEE, 0x02, 0x19]) ∧
    nextTurn (commitTurn 2 []) = .engine ∧ (commitTurn 2 []).fcd.phase = .commit ∧
    responseOutcome 1 [0xF4, 0x02, 0x21, 0xE9] = .ok ⟨0xF4, 0x02, 0x21, 0x00, 0, [], 0xE9, 0xE9⟩ ∧
    responseOutcome 2 [0xF4, 0x03, 0xEE, 0x02, 0x19] = .ok ⟨0xF4, 0x03, 0xEE, 0x00, 1, [0x02], 0x19, 0x19⟩ ∧
    ([0x02] : List Byte)[0]? = some 0x02 :=
  ⟨inv_commit_failure.1, inv_commit_failure.2, by decide⟩

/-- T-RD-06, T-WR-01 and T-SEND-11. -/
theorem witness_SuccessResponseHandled :
    nextTurn (commitTurn 3 []) = .engine ∧ (commitTurn 3 []).fcd.phase = .commit ∧
    (∀ op ∈ ([1, 3, 4] : List (BitVec 4)), (commitTurn op []).fcd.ctrlOp = op) ∧
    responseOutcome 3 [0x40, 0x02, 0xEC, 0xD2] = .ok ⟨0x40, 0x02, 0xEC, 0x00, 0, [], 0xD2, 0xD2⟩ ∧
    responseOutcome 4 [0x40, 0x02, 0xEB, 0xD3] = .ok ⟨0x40, 0x02, 0xEB, 0x00, 0, [], 0xD3, 0xD3⟩ ∧
    responseOutcome 1 [0xF0, 0x02, 0x21, 0xED] = .ok ⟨0xF0, 0x02, 0x21, 0x00, 0, [], 0xED, 0xED⟩ := by decide

/-- T-INV-7 and T-INV-10. -/
theorem witness_InventoryResponseHandled :
    nextTurn (commitTurn 2 []) = .engine ∧ (commitTurn 2 []).fcd.phase = .commit ∧ (commitTurn 2 []).fcd.ctrlOp = 2 ∧
    responseOutcome 2 [0x40, 0x02, 0xEE, 0xD0] = .ok ⟨0x40, 0x02, 0xEE, 0x00, 0, [], 0xD0, 0xD0⟩ ∧
    parseInventory (fun i => ([] : List Byte).getD i 0) 0 = none ∧
    responseOutcome 2 [0x40, 0x08, 0xEE, 0x02, 0x00, 0x00, 0x01, 0x11, 0x22, 0x94] =
      .ok ⟨0x40, 0x08, 0xEE, 0x00, 6, [0x02, 0x00, 0x00, 0x01, 0x11, 0x22], 0x94, 0x94⟩ ∧
    parseInventory (fun i => ([0x02, 0x00, 0x00, 0x01, 0x11, 0x22] : List Byte).getD i 0) 6 = some [(2, 0), (4, 1)] := by
  decide

/-- T-INV-10 is Good; T-INV-7 (empty), T-INV-8 (a wordCount byte at the end) and T-INV-9 (an identifier past the end) are
Bad. -/
theorem witness_InventoryRecordsInOrder :
    parseInventory (fun i => ([0x02, 0x00, 0x00, 0x01, 0x11, 0x22] : List Byte).getD i 0) 6 = some [(2, 0), (4, 1)] ∧
    ([(2, 0), (4, 1)] : List (Nat × Nat))[0]? = some (2, 0) ∧
    ([(2, 0), (4, 1)] : List (Nat × Nat))[0 + 1]? = some (4, 1) ∧
    parseInventory (fun _ => 0x00) 0 = none ∧
    parseInventory (fun i => ([0x02, 0x01, 0xAA, 0xBB] : List Byte).getD i 0) 4 = none ∧
    parseInventory (fun i => ([0x01, 0x02, 0xAA, 0xBB, 0xCC] : List Byte).getD i 0) 5 = none := by decide

/-- The same payload with another separator and another identifier. -/
theorem witness_ParserReadsOnlyCounts :
    let P := fun i : Nat => ([0x02, 0x00, 0x00, 0x01, 0x11, 0x22] : List Byte).getD i 0
    let Q := fun i : Nat => ([0x02, 0x00, 0x55, 0x01, 0x33, 0x44] : List Byte).getD i 0
    parseInventory P 6 = some [(2, 0), (4, 1)] ∧ Q 0 = P 0 ∧
    ∀ r ∈ ([(2, 0), (4, 1)] : List (Nat × Nat)), Q (r.1 - 1) = P (r.1 - 1) := by decide

/-- One identifier of 125 words in 253 bytes, and 127 declared tags (T-INV-14). -/
theorem witness_InventoryBounds :
    253 ≤ 253 ∧
    (let P := fun i : Nat => if i = 0 then (0x01 : Byte) else if i = 1 then 0x7D else 0x00
     parseInventory P 253 = some [(2, 125)]) ∧
    ((fun i : Nat => if i = 0 then (0x7F : Byte) else 0x00) 0).toNat > 126 := by decide

theorem witness_ResetState : nextTurn (sending [.reset]) = .reset := by decide

theorem witness_BufferDrawsStable :
    nextTurn (sending [.reset]) = .reset ∧ 256 < bufSize .rxf ∧ nextTurn (sending [.engine]) ≠ .reset ∧
    ∃ t, step (sending [.engine]) = .next t := ⟨by decide, by decide, by decide, ⟨_, rfl⟩⟩

theorem inv_sending : (sending []).fcd.Inv := by
  constructor <;> decide

theorem safe_sending (turns : List Turn) : Safe (sending turns) := inv_sending

theorem safe_hostSend : Safe hostSend := by
  constructor <;> decide

theorem witness_StepKeepsSafe :
    Safe (sending [.transport ⟨false, true, false, false⟩]) ∧
    ∃ t, step (sending [.transport ⟨false, true, false, false⟩]) = .next t := ⟨safe_sending _, ⟨_, rfl⟩⟩

theorem witness_SafeNeverFaults : Safe hostSend := safe_hostSend

theorem witness_EveryEndHasAResult :
    let s := sending [.transport ⟨true, false, false, false⟩]
    Safe s ∧ nextTurn s ≠ .reset ∧ s.fcd.busy = true ∧ ∃ t, step s = .next t ∧ t.fcd.busy = false :=
  ⟨safe_sending _, by decide, by decide, ⟨_, rfl, rfl⟩⟩

theorem witness_OnlyTheHostStarts :
    (Safe hostSend ∧ hostSend.fcd.phase = .idle ∧ ∃ t, step hostSend = .next t ∧ t.fcd.phase = .check) ∧
    (let s := sending [.transport ⟨true, false, false, false⟩]
     Safe s ∧ s.fcd.done = false ∧ ∃ t, step s = .next t ∧ t.fcd.done = true) :=
  ⟨⟨safe_hostSend, by decide, ⟨_, rfl, rfl⟩⟩, ⟨safe_sending _, by decide, ⟨_, rfl, rfl⟩⟩⟩

/-- T-SEND-10: a whole exchange, with a byte that stays in the transport. -/
def exchange : State :=
  { machine { busyIn 1 .tx (cells 0x600 [0x40, 0x02, 0x21, 0x9D]) with frameLen := 4 }
      (List.replicate 4 (.transport ⟨false, true, false, false⟩) ++
        List.replicate 6 (.transport ⟨false, false, true, false⟩) ++ [.engine]) with
    held := [0x40, 0x04, 0x21, 0x01, 0x02, 0x98, 0xAA] }

theorem inv_exchange : exchange.fcd.Inv := by
  constructor <;> decide

theorem witness_WholeExchange :
    let resp : List Byte := [0x40, 0x04, 0x21, 0x01, 0x02, 0x98]
    Safe exchange ∧ exchange.fcd.phase = .tx ∧ exchange.fcd.txCount = 0 ∧ 2 ≤ resp.length ∧
    resp.length = 2 + (resp.getD 1 0).toNat ∧ exchange.held = resp ++ [0xAA] ∧
    exchange.turns = List.replicate exchange.fcd.frameLen.toNat (.transport ⟨false, true, false, false⟩) ++
      List.replicate resp.length (.transport ⟨false, false, true, false⟩) ++ .engine :: [] :=
  ⟨inv_exchange, by decide⟩

theorem witness_EncodeThenDecodeRecovers :
    let s : State := { machine { fcdWith [] with payloadLen := 252 } [.host, .engine, .host, .engine] with
      program := [.word (encode .encode), .word (encode .decode)] }
    s.fcd.busy = false ∧ s.program = .word (encode .encode) :: .word (encode .decode) :: [] ∧
    s.turns = [.host, .engine, .host, .engine] ++ [] ∧ s.fcd.addr = 0 ∧
    s.fcd.payloadLen.toNat ≤ s.fcd.params.maxPayloadUnaddr.val := by decide

end Sys2Proof.Tests
end

/-! PROOF. The statements of 00_scope.md: which transport signals count in which phase (R7, R24, R187 to R189), and
that only the host starts an operation and only an operation's end raises DONE (R6, R275, R276). -/

namespace Sys2Proof.Proofs

open Sys2Proof.Machine Sys2Proof.Laws

/-! ### One clock of the transport -/

theorem step_transport {s : State} {sig : Signals} (h : nextTurn s = .transport sig) :
    step s = transportStep sig s.popTurn := by
  simp [step, h]

/-- In TX a clock is the Error, the Accept, or nothing. -/
theorem transportStep_tx {s : State} (h : s.fcd.phase = .tx) (sig : Signals) :
    transportStep sig s =
      if sig.err then .next (transportErr s) else if sig.ready then keepShort sig (acceptByte s) else .next s := by
  simp [transportStep, h]

/-- In RX a clock is the Error, the Deliver, the Short step, or nothing. -/
theorem transportStep_rx {s : State} (h : s.fcd.phase = .rx) (sig : Signals) :
    transportStep sig s =
      if sig.err then .next (transportErr s)
      else if sig.valid then keepShort sig (deliverByte s)
      else if sig.short then .next (shortRead s)
      else .next s := by
  simp [transportStep, h]

/-- The rest of a clock depends on its short read alone. -/
theorem keepShort_congr {sig sig' : Signals} (h : sig.short = sig'.short) (o : Out) :
    keepShort sig o = keepShort sig' o := by
  cases o <;> simp [keepShort, h]

theorem transportStep_tx_ignores_valid {s : State} (h : s.fcd.phase = .tx) (sig : Signals) :
    transportStep sig s = transportStep { sig with valid := false } s := by
  rw [transportStep_tx h, transportStep_tx h, keepShort_congr (sig := sig) (sig' := { sig with valid := false }) rfl]

theorem transportStep_rx_ignores_ready {s : State} (h : s.fcd.phase = .rx) (sig : Signals) :
    transportStep sig s = transportStep { sig with ready := false } s := by
  rw [transportStep_rx h, transportStep_rx h, keepShort_congr (sig := sig) (sig' := { sig with ready := false }) rfl]

/-- A clock whose phase enables its handshake makes that handshake, and the short read only decides what is left. -/
theorem transportStep_handshake {s : State} {sig : Signals} (he : sig.err = false)
    (h : (s.fcd.phase = .tx ∧ sig.ready = true) ∨ (s.fcd.phase = .rx ∧ sig.valid = true)) :
    ∃ o : Out, ∀ short : Bool,
      transportStep { sig with short := short } s = keepShort { sig with short := short } o := by
  obtain ⟨hp, hr⟩ | ⟨hp, hv⟩ := h
  · exact ⟨acceptByte s, fun short => by simp [transportStep_tx hp, he, hr]⟩
  · exact ⟨deliverByte s, fun short => by simp [transportStep_rx hp, he, hv]⟩

/-- With a handshake, asserting the short read as well leaves it as the next turn and changes nothing else. -/
theorem transportStep_handshake_short {s t : State} {sig : Signals} (he : sig.err = false) (hs : sig.short = true)
    (h : (s.fcd.phase = .tx ∧ sig.ready = true) ∨ (s.fcd.phase = .rx ∧ sig.valid = true))
    (ht : transportStep { sig with short := false } s = .next t) :
    transportStep sig s = .next { t with turns := .transport shortOnly :: t.turns } := by
  obtain ⟨o, ho⟩ := transportStep_handshake he h
  obtain ⟨u, rfl, rfl⟩ := keepShort_next ((ho false).symm.trans ht)
  have hsig : { sig with short := true } = sig := by rw [← hs]
  simpa [hsig, keepShort, hs] using ho true

/-- A short read alone is the Short step in RX and nothing elsewhere. -/
theorem step_shortOnly (t : State) :
    step { t with turns := .transport shortOnly :: t.turns } = .next (shortRead t) := by
  change transportStep shortOnly t = _
  by_cases hr : t.fcd.phase = .rx
  · simp [transportStep_rx hr, shortOnly]
  · rw [shortRead, if_neg hr]
    by_cases ht : t.fcd.phase = .tx
    · simp [transportStep_tx ht, shortOnly]
    · exact transportStep_idle _ ht hr

/-- Settles O42: each clause is the transport's step in one phase, and the last is the handshake with the short read as
the turn after it. -/
theorem signalsCountInTheirPhase : Obligations.SignalsCountInTheirPhase := by
  intro s sig hturn withSignals shortTurn
  have hstep : step s = transportStep sig s.popTurn := step_transport hturn
  have hwith : ∀ x, step (withSignals x) = transportStep x s.popTurn := fun x => rfl
  simp only [hstep, hwith]
  refine ⟨fun hp => ?outside, fun hp he hr => ?txNothing,
    fun hp => transportStep_tx_ignores_valid (s := s.popTurn) hp sig,
    fun hp => transportStep_rx_ignores_ready (s := s.popTurn) hp sig,
    fun hp he => ?error, fun hp he hv hs => ?rxNothing, fun hp he hv hs => ?rxShort,
    fun t he hs hh ht => ⟨transportStep_handshake_short he hs hh ht, ?shortAfter⟩⟩
  case outside =>
    refine transportStep_idle (s := s.popTurn) sig ?_ ?_ <;> rcases hp with hp | hp | hp <;> simp [hp]
  case txNothing => rw [transportStep_tx (s := s.popTurn) hp]; simp [he, hr, State.popTurn]
  case error => rw [transportStep_err (s := s.popTurn) he hp, transportStep_err (s := s.popTurn) rfl hp]
  case rxNothing => rw [transportStep_rx (s := s.popTurn) hp]; simp [he, hv, hs, State.popTurn]
  case rxShort => rw [transportStep_rx (s := s.popTurn) hp]; simp [he, hv, hs, shortRead, hp, State.popTurn]
  case shortAfter =>
    rw [show shortTurn = .transport shortOnly from rfl, step_shortOnly, shortRead]

/-! ### What starts an operation, and what raises DONE -/

theorem writeReg_phase_done (f : Fcd) (r : Reg) (v : Byte) :
    (f.writeReg r v).phase = f.phase ∧ (f.writeReg r v).done = f.done := by
  cases r <;> exact ⟨rfl, rfl⟩

theorem writeIdle_phase_done (f : Fcd) (l : Loc) (v : Byte) :
    (f.writeIdle l v).phase = f.phase ∧ (f.writeIdle l v).done = f.done := by
  cases l with
  | reg r => exact writeReg_phase_done f r v
  | buf b i => by_cases h : bufHostWritable b <;> simp [Fcd.writeIdle, h]
  | reserved => exact ⟨rfl, rfl⟩

/-- A start request accepts in CHECK or leaves the phase, and raises no DONE. -/
theorem startOp_phase_done (f : Fcd) (op : BitVec 4) :
    ((f.startOp op).phase = f.phase ∨ (f.startOp op).phase = .check) ∧
      ((f.startOp op).done = true → f.done = true) := by
  obtain ⟨-, h⟩ | ⟨-, h⟩ := startOp_cases f op <;> simp [h]

/-- A host write starts an operation or leaves the phase, and raises no DONE. -/
theorem writeLoc_phase_done (f : Fcd) (l : Loc) (v : Byte) :
    ((f.writeLoc l v).phase = f.phase ∨ (f.writeLoc l v).phase = .check) ∧
      ((f.writeLoc l v).done = true → f.done = true) := by
  cases hb : f.busy with
  | true =>
    obtain ⟨heq, hdone⟩ := writeLoc_busy f l v hb
    exact ⟨.inl (by rw [heq]), hdone⟩
  | false =>
    have hidle := writeIdle_phase_done f l v
    unfold Fcd.writeLoc
    split
    · unfold Fcd.writeCtrl
      split
      · exact startOp_phase_done f _
      · exact ⟨.inl rfl, id⟩
    · exact ⟨.inl rfl, by simp +contextual [Fcd.writeStatus]⟩
    · exact ⟨.inl rfl, id⟩
    · simp [hb, hidle]

/-- The CHECK step of an operation with a wire command code ends it, or leaves DONE. -/
theorem checkWire_done (f : Fcd) (linkUp : Bool) (cmd : Byte) :
    (f.checkWire linkUp cmd).done = f.done ∨ (f.checkWire linkUp cmd).busy = false := by
  obtain ⟨x, -, h⟩ | ⟨frame, -, -, ⟨-, h⟩ | ⟨-, -, h⟩ | ⟨-, -, h⟩⟩ := checkWire_cases f linkUp cmd <;> simp [h]

theorem checkLocal_busy (f : Fcd) : f.checkLocal.busy = false := by
  unfold Fcd.checkLocal
  split
  · obtain ⟨x, -, h⟩ | ⟨r, c, h⟩ | ⟨d, -, h⟩ := checkDecode_cases f <;> simp [h]
  · rfl

theorem finishSuccess_busy {f g : Fcd} (h : f.finishSuccess = some g) : g.busy = false := by
  have hinv : f.finishInventory.busy = false := by
    obtain ⟨-, h⟩ | ⟨recs, -, h⟩ := finishInventory_cases f <;> simp [h]
  unfold Fcd.finishSuccess at h
  repeat' split at h
  all_goals cases h
  · rfl
  · exact hinv
  · rfl
  · rfl

theorem classifyFailure_busy (f : Fcd) (d : Fields) : (f.classifyFailure d).busy = false := by
  obtain ⟨-, h⟩ | ⟨code, rest, -, ⟨-, -, h⟩ | ⟨-, h⟩⟩ := classifyFailure_cases f d <;> simp [h]

theorem commitStep_busy {f g : Fcd} (h : f.commitStep = some g) : g.busy = false := by
  obtain ⟨x, -, hc⟩ | ⟨r, c, hc⟩ | ⟨d, -, ⟨-, hc⟩ | ⟨-, hc⟩⟩ := commitStep_cases f <;> rw [hc] at h
  · cases h; rfl
  · cases h; rfl
  · cases h; exact classifyFailure_busy _ d
  · exact finishSuccess_busy h

theorem acceptByte_done {s t : State} (h : acceptByte s = .next t) : t.fcd.done = s.fcd.done := by
  simp only [acceptByte] at h
  split at h <;> cases h
  rfl

theorem deliverByte_done {s t : State} (h : deliverByte s = .next t) : t.fcd.done = s.fcd.done := by
  simp only [deliverByte] at h
  split at h
  · cases h; rfl
  · split at h <;> cases h
    simp

/-- From `f` to `g` DONE rises only as an operation in progress ends (R262). -/
def DoneRisesAtEnd (f g : Fcd) : Prop := f.done = false → g.done = true → f.phase ≠ .idle ∧ g.busy = false

theorem DoneRisesAtEnd.of_kept {f g : Fcd} (h : g.done = true → f.done = true) : DoneRisesAtEnd f g :=
  fun hf hg => absurd (h hg) (by simp [hf])

theorem DoneRisesAtEnd.of_kept_or_ended {f g : Fcd} (hp : f.phase ≠ .idle)
    (h : g.done = f.done ∨ g.busy = false) : DoneRisesAtEnd f g := by
  obtain h | h := h
  · exact .of_kept (h ▸ id)
  · exact fun _ _ => ⟨hp, h⟩

theorem fcdMove_doneRisesAtEnd {s : State} {g : Fcd} (h : FcdMove s g) : DoneRisesAtEnd s.fcd g := by
  cases h with
  | same => exact .of_kept id
  | write l v => exact .of_kept (writeLoc_phase_done s.fcd l v).2
  | start op => exact .of_kept (startOp_phase_done s.fcd op).2
  | carry c hp => exact .of_kept_or_ended (by simp [hp]) (checkWire_done ..)

theorem engineTurn_doneRisesAtEnd {s t : State} (h : engineTurn s = .next t) : DoneRisesAtEnd s.fcd t.fcd := by
  obtain ⟨c, hp, -, he⟩ | ⟨hp, -, he⟩ | ⟨hp, ⟨g, hg, he⟩ | ⟨-, he⟩⟩ | ⟨-, he⟩ := engineTurn_cases s <;>
    rw [he] at h <;> cases h
  · exact .of_kept_or_ended (by simp [hp]) (checkWire_done ..)
  · exact .of_kept_or_ended (by simp [hp]) (.inr (checkLocal_busy _))
  · exact .of_kept_or_ended (by simp [hp]) (.inr (commitStep_busy hg))
  · exact .of_kept id

theorem transportStep_doneRisesAtEnd {s t : State} {sig : Signals} (h : transportStep sig s = .next t) :
    DoneRisesAtEnd s.fcd t.fcd := by
  obtain he | ⟨hp, -, he⟩ | ⟨-, -, he⟩ | ⟨-, -, he⟩ | ⟨-, -, he⟩ := transportStep_cases sig s <;> rw [he] at h
  · cases h; exact .of_kept id
  · cases h; exact .of_kept_or_ended (by rcases hp with hp | hp <;> simp [hp]) (.inr rfl)
  · obtain ⟨u, hu, ht⟩ := keepShort_next h
    exact .of_kept (by simp [ht, acceptByte_done hu])
  · obtain ⟨u, hu, ht⟩ := keepShort_next h
    exact .of_kept (by simp [ht, deliverByte_done hu])
  · cases h; exact .of_kept id

/-- From IDLE a move of the host stays there or goes to CHECK. -/
theorem fcdMove_phase_of_idle {s : State} {g : Fcd} (h : FcdMove s g) (hp : s.fcd.phase = .idle) :
    g.phase = .idle ∨ g.phase = .check := by
  cases h with
  | same => exact .inl hp
  | write l v => exact hp ▸ (writeLoc_phase_done s.fcd l v).1
  | start op => exact hp ▸ (startOp_phase_done s.fcd op).1
  | carry c hc => simp [hp] at hc

theorem engineTurn_idle {s : State} (hp : s.fcd.phase = .idle) : engineTurn s = .next s := by
  obtain ⟨c, hc, -⟩ | ⟨hc, -⟩ | ⟨hc, -⟩ | ⟨-, he⟩ := engineTurn_cases s
  · simp [hp] at hc
  · simp [hp] at hc
  · simp [hp] at hc
  · exact he

/-- A step from IDLE stays there, or is the host's and goes to CHECK. -/
theorem step_phase_of_idle {s t : State} (h : step s = .next t) (hp : s.fcd.phase = .idle) :
    t.fcd.phase = .idle ∨ (nextTurn s = .host ∧ t.fcd.phase = .check) := by
  obtain ⟨hturn, hm⟩ | ⟨-, hm⟩ | ⟨sig, -, hm⟩ | ⟨_, -, rfl⟩ | ⟨-, rfl⟩ | ⟨_, -, rfl⟩ | ⟨-, rfl⟩ := step_cases h
  · exact (fcdMove_phase_of_idle (hostStep_next hm).1 hp).imp_right fun hc => ⟨hturn, hc⟩
  · rw [engineTurn_idle (s := s.popTurn) hp] at hm
    cases hm; exact .inl hp
  · rw [transportStep_idle (s := s.popTurn) sig (by simp [hp]) (by simp [hp])] at hm
    cases hm; exact .inl hp
  · exact .inl hp
  · exact .inl hp
  · exact .inl hp
  · exact .inl rfl

theorem step_doneRisesAtEnd {s t : State} (h : step s = .next t) : DoneRisesAtEnd s.fcd t.fcd := by
  obtain ⟨-, hm⟩ | ⟨-, hm⟩ | ⟨sig, -, hm⟩ | ⟨_, -, rfl⟩ | ⟨-, rfl⟩ | ⟨_, -, rfl⟩ | ⟨-, rfl⟩ := step_cases h
  · exact fcdMove_doneRisesAtEnd (s := s.popTurn) (hostStep_next hm).1
  · exact engineTurn_doneRisesAtEnd (s := s.popTurn) hm
  · exact transportStep_doneRisesAtEnd (s := s.popTurn) hm
  · exact .of_kept id
  · exact .of_kept id
  · exact .of_kept id
  · exact .of_kept (by simp [State.resetFcd, Fcd.reset])

/-- Settles O58: by the agents' moves from IDLE, and by the moves that raise DONE; in a safe state a phase outside IDLE
is an operation in progress. -/
theorem onlyTheHostStarts : Obligations.OnlyTheHostStarts := by
  intro s t hsafe h
  refine ⟨fun hp ht => (step_phase_of_idle h hp).resolve_left ht, fun hs ht => ?_⟩
  obtain ⟨hp, hend⟩ := step_doneRisesAtEnd h hs ht
  exact ⟨hsafe.busy_iff.mpr hp, hend⟩

end Sys2Proof.Proofs

/-! PROOF. The statements of 10_state.md about safe states: every step keeps the invariant (R32, R33, R43, R44, R46,
R50, R184, R186, R193, R248), the state after reset has it, and no step from a safe state faults (R261). -/

namespace Sys2Proof.Proofs

open Sys2Proof.Machine Sys2Proof.Laws

/-! ### Safe states: reset, and the start of an operation -/

theorem inv_reset (p : Params) (epoch : Nat) : (Fcd.reset p epoch).Inv := by
  constructor <;> simp [Fcd.reset, memWf, memRising, Phase.exchanging]

/-- An accept needs only the memory's canonical form: it sets every field that the invariant speaks of (R180). -/
theorem inv_accept {f : Fcd} (hmem : memWf f.mem = true) (op : BitVec 4) : (f.accept op).Inv where
  mem_wf := hmem
  busy_iff := by simp
  not_busy_and_done := by simp
  busy_result := by simp
  done_result := by simp
  busy_shape _ := rfl
  busy_respValid := by simp
  busy_cleared := by simp
  valid_sums := by simp
  writeOk_iff := by simp
  readPresent_iff := by simp
  tags_only_ok := by simp
  empty_code := by simp
  exchanging_op := by simp [Phase.exchanging]
  check_counts := by simp
  tx_bounds := by simp
  rx_bounds := by simp
  rxf_le := by simp

theorem inv_startOp {f : Fcd} (h : f.Inv) (op : BitVec 4) : (f.startOp op).Inv := by
  obtain ⟨-, hs⟩ | ⟨-, hs⟩ := startOp_cases f op <;> rw [hs]
  · exact { h with }
  · exact inv_accept h.mem_wf op

/-! ### Safe states: host writes -/

/-- A write to a register while BUSY = 0 changes a parameter register or FRAME_LEN. -/
theorem writeReg_eq (f : Fcd) (r : Reg) (v : Byte) :
    let g := f.writeReg r v
    g = { f with
      cmdCode := g.cmdCode, addr := g.addr, boot := g.boot, payloadLen := g.payloadLen, tidLen := g.tidLen,
      dataLen := g.dataLen, pwLen := g.pwLen, bank := g.bank, startWord := g.startWord, wordCount := g.wordCount,
      frameLen := g.frameLen } := by
  cases r <;> rfl

theorem inv_writeReg {f : Fcd} (h : f.Inv) (hb : f.busy = false) (r : Reg) (v : Byte) : (f.writeReg r v).Inv := by
  have hidle : f.phase = .idle := by simpa [hb] using h.busy_iff
  rw [writeReg_eq]
  exact { h with
    busy_shape := by simp [hb]
    tx_bounds := by simp [hidle]
    rx_bounds := by simp [hidle] }

theorem inv_setBuf_idle {f : Fcd} (h : f.Inv) (hb : f.busy = false) (b : Buf) (i : Nat) (v : Byte) :
    (f.setBuf b i v).Inv := by
  have hidle : f.phase = .idle := by simpa [hb] using h.busy_iff
  rw [setBuf_eq]
  exact { h with
    mem_wf := setBuf_memWf b i v h.mem_wf
    rx_bounds := by simp [hidle] }

theorem inv_writeIdle {f : Fcd} (h : f.Inv) (hb : f.busy = false) (l : Loc) (v : Byte) : (f.writeIdle l v).Inv := by
  cases l with
  | reg r => exact inv_writeReg h hb r v
  | buf b i =>
    rw [Fcd.writeIdle]
    split
    · exact inv_setBuf_idle h hb b i v
    · exact h
  | reserved => exact h

/-- COLLIDE and IE are no part of the invariant, and DONE may fall. -/
theorem inv_setStatus {f : Fcd} (h : f.Inv) (collide ie : Bool) {done : Bool} (hd : done = true → f.done = true) :
    ({ f with collide := collide, done := done, ie := ie } : Fcd).Inv :=
  { h with
    not_busy_and_done := fun hbd => h.not_busy_and_done ⟨hbd.1, hd hbd.2⟩
    done_result := fun hdone => h.done_result (hd hdone) }

theorem inv_writeStatus {f : Fcd} (h : f.Inv) (v : Byte) : (f.writeStatus v).Inv :=
  inv_setStatus (ie := f.ie) h _ (by simp +contextual)

theorem inv_writeLoc {f : Fcd} (h : f.Inv) (l : Loc) (v : Byte) : (f.writeLoc l v).Inv := by
  cases hb : f.busy with
  | true =>
    obtain ⟨heq, hd⟩ := writeLoc_busy f l v hb
    rw [heq]
    exact inv_setStatus h _ _ hd
  | false =>
    unfold Fcd.writeLoc
    split
    · unfold Fcd.writeCtrl
      split
      · exact inv_startOp h _
      · exact h
    · exact inv_writeStatus h v
    · exact inv_setStatus (collide := f.collide) h _ id
    · simpa [hb] using inv_writeIdle h hb _ v

/-! ### Safe states: the end of an operation -/

/-- The end of an operation is safe when the outputs agree with its result: the phase and BUSY then bind nothing. -/
theorem inv_endOp {f : Fcd} {x : ResultCode} (hmem : memWf f.mem = true) (hx : x ≠ .none)
    (hsums : f.respValid = true → f.respCsum = f.calcCsum)
    (hwrite : f.writeOk = true ↔ f.ctrlOp = opWrite ∧ x = .ok)
    (hread : f.readPresent = true ↔ f.ctrlOp = opRead ∧ x = .ok)
    (htags : f.tagCount ≠ 0 → f.ctrlOp = opInventory ∧ x = .ok)
    (hempty : x = .empty → f.errCode = noTagCode) (hrxf : f.rxfCount.toNat ≤ 257) : (f.endOp x).Inv where
  mem_wf := hmem
  busy_iff := by simp
  not_busy_and_done := by simp
  busy_result := by simp
  done_result _ := hx
  busy_shape := by simp
  busy_respValid := by simp
  busy_cleared := by simp
  valid_sums := hsums
  writeOk_iff := hwrite
  readPresent_iff := hread
  tags_only_ok := htags
  empty_code := hempty
  exchanging_op := by simp [Phase.exchanging]
  check_counts := by simp
  tx_bounds := by simp
  rx_bounds := by simp
  rxf_le := hrxf

/-- What an operation in progress hands to its end: the outputs that a result sets are as the accept cleared them. -/
structure Pending (f : Fcd) : Prop where
  mem_wf : memWf f.mem = true
  valid_sums : f.respValid = true → f.respCsum = f.calcCsum
  writeOk : f.writeOk = false
  readPresent : f.readPresent = false
  tagCount : f.tagCount = 0
  rxf_le : f.rxfCount.toNat ≤ 257

theorem pending_of_inv {f : Fcd} (h : f.Inv) (hb : f.busy = true) : Pending f where
  mem_wf := h.mem_wf
  valid_sums := h.valid_sums
  writeOk := by simpa [h.busy_result hb] using h.writeOk_iff
  readPresent := by simpa [h.busy_result hb] using h.readPresent_iff
  tagCount := by
    obtain ⟨-, -, htags, -⟩ := h.busy_cleared hb
    exact htags
  rxf_le := h.rxf_le

theorem Pending.setFrame {f : Fcd} (h : Pending f) (frame : List Byte) (n : Count) :
    Pending { f.setBufs .frame 0 frame with frameLen := n } := by
  rw [setBufs_eq]
  exact { h with mem_wf := setBufs_memWf _ _ _ h.mem_wf }

theorem Pending.writeFields {f : Fcd} (h : Pending f) {d : Fields} (hd : d.calcSum = d.recvSum) :
    Pending (f.writeFields d) := by
  rw [writeFields_eq]
  exact { h with
    mem_wf := setBufs_memWf .resp 0 d.payload h.mem_wf
    valid_sums := fun _ => hd.symm }

theorem Pending.inv_notOk {f : Fcd} (h : Pending f) {x : ResultCode} (hx : x ≠ .none) (hok : x ≠ .ok)
    (hempty : x = .empty → f.errCode = noTagCode) : (f.endOp x).Inv :=
  inv_endOp h.mem_wf hx h.valid_sums (by simp [h.writeOk, hok]) (by simp [h.readPresent, hok]) (by simp [h.tagCount])
    hempty h.rxf_le

/-- An end with a result that is none of NONE, OK and EMPTY. -/
theorem Pending.inv_fail {f : Fcd} (h : Pending f) {x : ResultCode} (hx : x ∉ [.none, .ok, .empty]) :
    (f.endOp x).Inv := by
  simp only [List.mem_cons, List.not_mem_nil, or_false, not_or] at hx
  obtain ⟨hnone, hok, hempty⟩ := hx
  exact h.inv_notOk hnone hok (absurd · hempty)

/-- The OK of an operation other than READ and WRITE sets no output of its own. -/
theorem Pending.inv_ok {f : Fcd} (h : Pending f) (hwrite : f.ctrlOp ≠ opWrite) (hread : f.ctrlOp ≠ opRead) :
    (f.endOp .ok).Inv :=
  inv_endOp h.mem_wf (by decide) h.valid_sums (by simp [h.writeOk, hwrite]) (by simp [h.readPresent, hread])
    (by simp [h.tagCount]) nofun h.rxf_le

/-! ### Safe states: the CHECK step -/

theorem isDispatchOp_of_opWireCode {f : Fcd} {c : Byte} (h : f.opWireCode = some c) (hne : f.ctrlOp ≠ opEncode) :
    isDispatchOp f.ctrlOp = true := by
  obtain ⟨hop, -⟩ | ⟨hop, -⟩ | ⟨hop, -⟩ | ⟨hop, -⟩ | ⟨hop, -⟩ := opWireCode_some h
  · simp [hop, isDispatchOp]
  · simp [hop, isDispatchOp]
  · simp [hop, isDispatchOp]
  · simp [hop, isDispatchOp]
  · exact absurd hop hne

/-- From CHECK to TX with a frame in FRAME_BUF (R181, R184). -/
theorem inv_enterTx {f : Fcd} (h : f.Inv) (hp : f.phase = .check) (hop : isDispatchOp f.ctrlOp = true)
    {frame : List Byte} (hlo : 4 ≤ frame.length) (hhi : frame.length ≤ 257) :
    ({ f.setBufs .frame 0 frame with frameLen := BitVec.ofNat 9 frame.length, phase := .tx } : Fcd).Inv := by
  obtain ⟨htx, hrx⟩ := h.check_counts hp
  have hlen : (BitVec.ofNat 9 frame.length).toNat = frame.length := by simp; omega
  rw [setBufs_eq]
  exact { h with
    mem_wf := setBufs_memWf _ _ _ h.mem_wf
    busy_iff := by simpa [hp] using h.busy_iff
    exchanging_op := fun _ => hop
    check_counts := by simp
    tx_bounds := fun _ => by
      rw [hlen, htx]
      exact ⟨by simp; omega, hhi, hrx⟩
    rx_bounds := by simp }

theorem inv_checkWire {f : Fcd} (h : f.Inv) (hp : f.phase = .check) {c : Byte} (hc : f.opWireCode = some c)
    (linkUp : Bool) : (f.checkWire linkUp c).Inv := by
  have hpend : Pending f := pending_of_inv h (h.busy_iff.2 (by simp [hp]))
  obtain ⟨x, hx, heq⟩ | ⟨frame, hlo, hhi, ⟨hop, heq⟩ | ⟨-, -, heq⟩ | ⟨hop, -, heq⟩⟩ := checkWire_cases f linkUp c <;>
    rw [heq]
  · exact hpend.inv_fail (by rcases hx with rfl | rfl <;> decide)
  · exact (hpend.setFrame ..).inv_ok (by simp [hop, opEncode, opWrite]) (by simp [hop, opEncode, opRead])
  · exact (hpend.setFrame ..).inv_fail (by decide)
  · exact inv_enterTx h hp (isDispatchOp_of_opWireCode hc hop) hlo hhi

theorem inv_mismatch {f : Fcd} (h : f.Inv) (hb : f.busy = true) (r c : Byte) :
    (({ f with respCsum := r, calcCsum := c } : Fcd).endOp .checksumMismatch).Inv := by
  have hpend : Pending { f with respCsum := r, calcCsum := c } :=
    { pending_of_inv h hb with valid_sums := by simp [h.busy_respValid hb] }
  exact hpend.inv_fail (by decide)

theorem inv_checkDecode {f : Fcd} (h : f.Inv) (hb : f.busy = true) (hop : f.ctrlOp = opDecode) :
    f.checkDecode.Inv := by
  have hpend := pending_of_inv h hb
  obtain ⟨x, hx, heq⟩ | ⟨r, c, heq⟩ | ⟨d, hd, heq⟩ := checkDecode_cases f <;> rw [heq]
  · exact hpend.inv_fail (by rcases hx with rfl | rfl <;> decide)
  · exact inv_mismatch h hb r c
  · obtain ⟨-, hsum, -⟩ := decodeFrame_ok hd
    refine (hpend.writeFields hsum).inv_ok ?_ ?_ <;> rw [writeFields_eq, hop] <;> decide

theorem inv_checkLocal {f : Fcd} (h : f.Inv) (hb : f.busy = true) : f.checkLocal.Inv := by
  unfold Fcd.checkLocal
  split
  · exact inv_checkDecode h hb ‹_›
  · exact (pending_of_inv h hb).inv_fail (by decide)

/-! ### Safe states: the COMMIT step -/

theorem inv_classifyFailure {f : Fcd} (h : Pending f) (d : Fields) : (f.classifyFailure d).Inv := by
  have hpend : ∀ code cat, Pending { f with errCode := code, errCat := cat } := fun _ _ => { h with }
  obtain ⟨-, heq⟩ | ⟨code, rest, -, ⟨hcode, -, heq⟩ | ⟨-, heq⟩⟩ := classifyFailure_cases f d <;> rw [heq]
  · exact h.inv_fail (by decide)
  · exact (hpend ..).inv_notOk (by decide) (by decide) (fun _ => hcode)
  · exact (hpend ..).inv_fail (by decide)

theorem inv_finishInventory {f : Fcd} (h : Pending f) (hop : f.ctrlOp = opInventory) : f.finishInventory.Inv := by
  obtain ⟨-, heq⟩ | ⟨recs, -, heq⟩ := finishInventory_cases f <;> rw [heq]
  · exact h.inv_fail (by decide)
  · have hmem := writeTags_memWf 0 recs h.mem_wf
    rw [writeTags_eq]
    refine inv_endOp hmem (by decide) h.valid_sums ?_ ?_ (fun _ => ⟨hop, rfl⟩) nofun h.rxf_le
    · simp [h.writeOk, hop, opInventory, opWrite]
    · simp [h.readPresent, hop, opInventory, opRead]

theorem inv_finishRead {f : Fcd} (h : Pending f) (hop : f.ctrlOp = opRead) : f.finishRead.Inv :=
  inv_endOp h.mem_wf (by decide) h.valid_sums (by simp [h.writeOk, hop, opRead, opWrite]) (by simp [hop])
    (by simp [h.tagCount]) nofun h.rxf_le

theorem inv_finishWrite {f : Fcd} (h : Pending f) (hop : f.ctrlOp = opWrite) : f.finishWrite.Inv :=
  inv_endOp h.mem_wf (by decide) h.valid_sums (by simp [hop]) (by simp [h.readPresent, hop, opRead, opWrite])
    (by simp [h.tagCount]) nofun h.rxf_le

/-- What the success handler of the latched operation is, and that only a dispatch operation has one. -/
theorem finishSuccess_cases (f : Fcd) :
    (f.ctrlOp = opSend ∧ f.finishSuccess = some (f.endOp .ok)) ∨
    (f.ctrlOp = opInventory ∧ f.finishSuccess = some f.finishInventory) ∨
    (f.ctrlOp = opRead ∧ f.finishSuccess = some f.finishRead) ∨
    (f.ctrlOp = opWrite ∧ f.finishSuccess = some f.finishWrite) ∨
    (isDispatchOp f.ctrlOp = false ∧ f.finishSuccess = none) := by
  by_cases hs : f.ctrlOp = opSend
  · exact .inl ⟨hs, by simp [Fcd.finishSuccess, hs]⟩
  by_cases hi : f.ctrlOp = opInventory
  · exact .inr (.inl ⟨hi, by simp [Fcd.finishSuccess, hi, opInventory, opSend]⟩)
  by_cases hr : f.ctrlOp = opRead
  · exact .inr (.inr (.inl ⟨hr, by simp [Fcd.finishSuccess, hr, opInventory, opSend, opRead]⟩))
  by_cases hw : f.ctrlOp = opWrite
  · exact .inr (.inr (.inr (.inl ⟨hw, by simp [Fcd.finishSuccess, hw, opInventory, opSend, opRead, opWrite]⟩)))
  · exact .inr (.inr (.inr (.inr ⟨by simp [isDispatchOp, hs, hi, hr, hw],
      by simp [Fcd.finishSuccess, hs, hi, hr, hw]⟩)))

theorem inv_finishSuccess {f g : Fcd} (h : Pending f) (hg : f.finishSuccess = some g) : g.Inv := by
  obtain ⟨hop, he⟩ | ⟨hop, he⟩ | ⟨hop, he⟩ | ⟨hop, he⟩ | ⟨-, he⟩ := finishSuccess_cases f <;>
    rw [he] at hg <;> cases hg
  · exact h.inv_ok (by simp [hop, opSend, opWrite]) (by simp [hop, opSend, opRead])
  · exact inv_finishInventory h hop
  · exact inv_finishRead h hop
  · exact inv_finishWrite h hop

theorem inv_commitStep {f g : Fcd} (h : f.Inv) (hb : f.busy = true) (hg : f.commitStep = some g) : g.Inv := by
  have hpend := pending_of_inv h hb
  obtain ⟨x, hx, heq⟩ | ⟨r, c, heq⟩ | ⟨d, hd, ⟨-, heq⟩ | ⟨-, heq⟩⟩ := commitStep_cases f <;> rw [heq] at hg
  · cases hg
    exact hpend.inv_fail (by rcases hx with rfl | rfl <;> decide)
  · cases hg
    exact inv_mismatch h hb r c
  · cases hg
    exact inv_classifyFailure (hpend.writeFields (decodeFrame_ok hd).2.1) d
  · exact inv_finishSuccess (hpend.writeFields (decodeFrame_ok hd).2.1) hg

/-! ### Safe states: the agents' moves -/

theorem inv_fcdMove {s : State} {g : Fcd} (h : s.fcd.Inv) (hm : FcdMove s g) : g.Inv := by
  cases hm with
  | same => exact h
  | write l v => exact inv_writeLoc h l v
  | start op => exact inv_startOp h op
  | carry c hp hc => exact inv_checkWire h hp hc s.linkUp

theorem inv_engineTurn {s t : State} (h : s.fcd.Inv) (ht : engineTurn s = .next t) : t.fcd.Inv := by
  obtain ⟨c, hp, hc, he⟩ | ⟨hp, -, he⟩ | ⟨hp, ⟨g, hg, he⟩ | ⟨-, he⟩⟩ | ⟨-, he⟩ := engineTurn_cases s <;>
    rw [he] at ht <;> cases ht
  · exact inv_checkWire h hp hc s.linkUp
  · exact inv_checkLocal h (h.busy_iff.2 (by simp [hp]))
  · exact inv_commitStep h (h.busy_iff.2 (by simp [hp])) hg
  · exact h

/-- In TX of a safe state the offered byte lies inside FRAME_BUF (R184). -/
theorem txCount_lt_of_inv {f : Fcd} (h : f.Inv) (hp : f.phase = .tx) : f.txCount.toNat < bufSize .frame := by
  obtain ⟨hlt, hle, -⟩ := h.tx_bounds hp
  exact hlt.trans_le hle

/-- In RX of a safe state the next byte lies inside RXF_BUF (R186). -/
theorem rxfCount_lt_of_inv {f : Fcd} (h : f.Inv) (hp : f.phase = .rx) : f.rxfCount.toNat < bufSize .rxf := by
  obtain ⟨hlt, -⟩ := h.rx_bounds hp
  have hbyte := (f.buf .rxf 1).isLt
  have hneed : f.need ≤ 257 := by unfold Fcd.need; split <;> omega
  exact hlt.trans_le hneed

theorem toNat_succ_count {n : Count} (h : n.toNat < 257) : (n + 1).toNat = n.toNat + 1 := by
  rw [BitVec.toNat_add]
  simp
  omega

theorem inv_acceptByte {s t : State} (h : s.fcd.Inv) (hp : s.fcd.phase = .tx) (ht : acceptByte s = .next t) :
    t.fcd.Inv := by
  have hlt := txCount_lt_of_inv h hp
  obtain ⟨htx, hlen, hrx⟩ := h.tx_bounds hp
  have hsucc : (s.fcd.txCount + 1).toNat = s.fcd.txCount.toNat + 1 := toNat_succ_count hlt
  have hop := h.exchanging_op (by simp [hp, Phase.exchanging])
  have hbusy := h.busy_iff.2 (by simp [hp])
  rw [acceptByte_next hlt] at ht
  cases ht
  by_cases hlast : s.fcd.txCount + 1 = s.fcd.frameLen
  · simp only [hlast, if_true]
    exact { h with
      busy_iff := by simp [hbusy]
      exchanging_op := fun _ => hop
      check_counts := by simp
      tx_bounds := by simp
      rx_bounds := fun _ => ⟨by simp [Fcd.need, hrx], rfl⟩ }
  · simp only [hlast, if_false]
    have hne : (s.fcd.txCount + 1).toNat ≠ s.fcd.frameLen.toNat := fun he => hlast (BitVec.eq_of_toNat_eq he)
    exact { h with
      check_counts := by simp [hp]
      tx_bounds := fun _ => ⟨by simp only [hsucc] at hne ⊢; omega, hlen, hrx⟩
      rx_bounds := by simp [hp] }

/-- From RX to COMMIT, with the response complete or cut short (R186, R187). -/
theorem inv_enterCommit {f : Fcd} (h : f.Inv) (hp : f.phase = .rx) : ({ f with phase := .commit } : Fcd).Inv :=
  { h with
    busy_iff := by simpa [hp] using h.busy_iff
    exchanging_op := fun _ => h.exchanging_op (by simp [hp, Phase.exchanging])
    check_counts := by simp
    tx_bounds := by simp
    rx_bounds := by simp }

/-- After a Deliver step that does not complete the frame a byte is still to come (R52, R186). -/
theorem rxfCount_lt_need_of_not_complete {f : Fcd} (h : f.rxfCount.toNat < f.need) (hle : f.rxfCount.toNat < 257)
    (b : Byte) :
    let g : Fcd := { f.setBuf .rxf f.rxfCount.toNat b with rxfCount := f.rxfCount + 1 }
    g.frameComplete = false → g.rxfCount.toNat < g.need := by
  intro g hg
  have hcount : g.rxfCount.toNat = f.rxfCount.toNat + 1 := toNat_succ_count hle
  simp only [Fcd.frameComplete, Fcd.need, hcount, Bool.and_eq_false_iff, decide_eq_false_iff_not] at hg ⊢
  by_cases htwo : f.rxfCount.toNat < 2
  · split <;> omega
  · have hlen : g.buf .rxf 1 = f.buf .rxf 1 := by
      refine (buf_congr (g := f.setBuf .rxf f.rxfCount.toNat b) rfl rfl .rxf 1).trans ?_
      exact buf_setBuf_other f b (by decide) (by omega)
    rw [hlen] at hg ⊢
    simp only [Fcd.need, htwo, if_false] at h
    rw [if_neg (by omega)]
    omega

theorem inv_deliverByte {s t : State} (h : s.fcd.Inv) (hp : s.fcd.phase = .rx) (ht : deliverByte s = .next t) :
    t.fcd.Inv := by
  cases hheld : s.held with
  | nil =>
    simp only [deliverByte, hheld] at ht
    cases ht
    exact h
  | cons b rest =>
    have hlt : s.fcd.rxfCount.toNat < 257 := rxfCount_lt_of_inv h hp
    obtain ⟨hneed, htx⟩ := h.rx_bounds hp
    obtain ⟨p, hpc, hcommit, he⟩ := deliverByte_next hheld hlt
    rw [he] at ht
    cases ht
    rw [hp] at hpc
    have hphase : p ≠ .idle ∧ p ≠ .check ∧ p ≠ .tx := by rcases hpc with rfl | rfl <;> decide
    have hmore : p = .rx → _ := fun hrx =>
      rxfCount_lt_need_of_not_complete hneed hlt b (by simpa [hp, hrx] using hcommit)
    rw [setBuf_eq] at hmore ⊢
    exact { h with
      mem_wf := setBuf_memWf _ _ _ h.mem_wf
      busy_iff := by simpa [hp, hphase] using h.busy_iff
      exchanging_op := fun _ => h.exchanging_op (by simp [hp, Phase.exchanging])
      check_counts := by simp [hphase]
      tx_bounds := by simp [hphase]
      rx_bounds := fun hrx => ⟨hmore hrx, htx⟩
      rxf_le := by rw [toNat_succ_count hlt]; omega }

theorem inv_transportStep {s t : State} {sig : Signals} (h : s.fcd.Inv) (ht : transportStep sig s = .next t) :
    t.fcd.Inv := by
  obtain he | ⟨hp, -, he⟩ | ⟨hp, -, he⟩ | ⟨hp, -, he⟩ | ⟨hp, -, he⟩ := transportStep_cases sig s <;> rw [he] at ht
  · cases ht
    exact h
  · cases ht
    have hbusy : s.fcd.busy = true := h.busy_iff.2 (by rcases hp with hp | hp <;> simp [hp])
    exact (pending_of_inv h hbusy).inv_fail (by decide)
  · obtain ⟨u, hu, rfl⟩ := keepShort_next ht
    exact inv_acceptByte (t := u) h hp hu
  · obtain ⟨u, hu, rfl⟩ := keepShort_next ht
    exact inv_deliverByte (t := u) h hp hu
  · cases ht
    exact inv_enterCommit h hp

/-- Settles O55: each agent's move keeps the invariant, the outside world's turns do not touch the FCD, and a reset
establishes it. -/
theorem stepKeepsSafe : Obligations.StepKeepsSafe := by
  intro s t hsafe h
  obtain ⟨-, hm⟩ | ⟨-, hm⟩ | ⟨sig, -, hm⟩ | ⟨_, -, rfl⟩ | ⟨-, rfl⟩ | ⟨_, -, rfl⟩ | ⟨-, rfl⟩ := step_cases h
  · exact inv_fcdMove (s := s.popTurn) hsafe (hostStep_next hm).1
  · exact inv_engineTurn (s := s.popTurn) hsafe hm
  · exact inv_transportStep (s := s.popTurn) hsafe hm
  · exact hsafe
  · exact hsafe
  · exact hsafe
  · exact inv_reset _ _

/-- Settles O54: the state after reset is one of the reset states. -/
theorem safeAtReset : Obligations.SafeAtReset := inv_reset _ _

/-! ### No step from a safe state faults -/

/-- What the host's move answers: a next state, but for a line that is no host instruction. -/
theorem hostStep_answers (s : State) :
    (∃ t, hostStep s = .next t) ∨
    (∃ (a : HostAddr) (d : Byte) (rest : List HostItem),
      s.program = .bothStrobes a d :: rest ∧ hostStep s = .refused .bothStrobes) ∨
    (∃ (sl : Slot) (rest : List HostItem), s.program = .word sl :: rest ∧
      ((sl.fmt = .wireFrame ∧ hostStep s = .refused .wireCodeOnHostBus) ∨
        ∃ e : DecodeError, decode sl = .error e ∧ hostStep s = .refused (.undecodable e))) := by
  cases hprog : s.program with
  | nil => exact .inl ⟨s, by simp [hostStep, fetchHost, hprog]⟩
  | cons item rest =>
    cases item with
    | bothStrobes a d => exact .inr (.inl ⟨a, d, rest, rfl, by simp [hostStep, fetchHost, hprog]⟩)
    | word sl =>
      by_cases hwire : sl.fmt = .wireFrame
      · exact .inr (.inr ⟨sl, rest, rfl, .inl ⟨hwire, by simp [hostStep, fetchHost, hprog, hwire]⟩⟩)
      cases hdec : decode sl with
      | error e => exact .inr (.inr ⟨sl, rest, rfl, .inr ⟨e, hdec, by simp [hostStep, fetchHost, hprog, hwire, hdec]⟩⟩)
      | ok i =>
        obtain ⟨t, ht, -⟩ := exec_cases i s
        exact .inl ⟨t, by simp [hostStep, fetchHost, hprog, hwire, hdec, ht]⟩

/-- The COMMIT step has an answer for a dispatch operation (R190). -/
theorem commitStep_of_dispatch {f : Fcd} (hop : isDispatchOp f.ctrlOp = true) : ∃ g, f.commitStep = some g := by
  obtain ⟨x, -, he⟩ | ⟨r, c, he⟩ | ⟨d, -, ⟨-, he⟩ | ⟨-, he⟩⟩ := commitStep_cases f
  · exact ⟨_, he⟩
  · exact ⟨_, he⟩
  · exact ⟨_, he⟩
  · have hop' : (f.writeFields d).ctrlOp = f.ctrlOp := by rw [writeFields_eq]
    obtain ⟨-, hs⟩ | ⟨-, hs⟩ | ⟨-, hs⟩ | ⟨-, hs⟩ | ⟨hno, -⟩ := finishSuccess_cases (f.writeFields d)
    · exact ⟨_, he.trans hs⟩
    · exact ⟨_, he.trans hs⟩
    · exact ⟨_, he.trans hs⟩
    · exact ⟨_, he.trans hs⟩
    · rw [hop', hop] at hno
      cases hno

theorem engineTurn_answers {s : State} (h : s.fcd.Inv) : ∃ t, engineTurn s = .next t := by
  obtain ⟨c, -, -, he⟩ | ⟨-, -, he⟩ | ⟨hp, ⟨g, -, he⟩ | ⟨hnone, -⟩⟩ | ⟨-, he⟩ := engineTurn_cases s
  · exact ⟨_, he⟩
  · exact ⟨_, he⟩
  · exact ⟨_, he⟩
  · obtain ⟨g, hg⟩ := commitStep_of_dispatch (h.exchanging_op (by simp [hp, Phase.exchanging]))
    rw [hnone] at hg
    cases hg
  · exact ⟨_, he⟩

theorem deliverByte_answers {s : State} (h : s.fcd.Inv) (hp : s.fcd.phase = .rx) : ∃ t, deliverByte s = .next t := by
  cases hheld : s.held with
  | nil => exact ⟨s, by simp [deliverByte, hheld]⟩
  | cons b rest =>
    obtain ⟨p, -, -, he⟩ := deliverByte_next hheld (rxfCount_lt_of_inv h hp)
    exact ⟨_, he⟩

theorem transportStep_answers {s : State} (h : s.fcd.Inv) (sig : Signals) : ∃ t, transportStep sig s = .next t := by
  obtain he | ⟨-, -, he⟩ | ⟨hp, -, he⟩ | ⟨hp, -, he⟩ | ⟨-, -, he⟩ := transportStep_cases sig s
  · exact ⟨_, he⟩
  · exact ⟨_, he⟩
  · exact ⟨_, he.trans (by rw [acceptByte_next (txCount_lt_of_inv h hp)]; rfl)⟩
  · obtain ⟨t, ht⟩ := deliverByte_answers h hp
    exact ⟨_, he.trans (by rw [ht]; rfl)⟩
  · exact ⟨_, he⟩

/-- Settles O56: by whose turn it is; only the host's line can be refused, and the two indexes and the latched operation
of a safe state rule out the faults. -/
theorem safeNeverFaults : Obligations.SafeNeverFaults := by
  intro s hsafe
  cases hturn : nextTurn s with
  | host =>
    rw [show step s = hostStep s.popTurn by simp [step, hturn]]
    exact (hostStep_answers s.popTurn).imp_right fun hrefused => ⟨rfl, hrefused⟩
  | engine =>
    obtain ⟨t, ht⟩ := engineTurn_answers (s := s.popTurn) hsafe
    exact .inl ⟨t, by simp [step, hturn, ht]⟩
  | transport sig =>
    obtain ⟨t, ht⟩ := transportStep_answers (s := s.popTurn) hsafe sig
    exact .inl ⟨t, (step_transport hturn).trans ht⟩
  | arrive bytes => exact .inl ⟨{ s.popTurn with held := s.held ++ bytes }, by simp [step, hturn]⟩
  | drain => exact .inl ⟨{ s.popTurn with held := [] }, by simp [step, hturn]⟩
  | link up => exact .inl ⟨{ s.popTurn with linkUp := up }, by simp [step, hturn]⟩
  | reset => exact .inl ⟨s.popTurn.resetFcd, by simp [step, hturn]⟩

end Sys2Proof.Proofs

/-! PROOF. The statements of 10_state.md about every step: the two byte streams and `link_up` (R23, R72, R87, R88), and
the reset draws of the buffers (R57). -/

namespace Sys2Proof.Proofs

open Sys2Proof.Machine Sys2Proof.Laws

/-! ### The byte streams -/

/-- The request stream is kept, or grows by the offered byte in TX (R72, R184). -/
def SentMove (s t : State) : Prop :=
  t.sent = s.sent ∨
    s.fcd.phase = .tx ∧ t.sent = s.sent ++ [s.fcd.buf .frame s.fcd.txCount.toNat] ∧ t.fcd.txCount = s.fcd.txCount + 1

/-- The bytes the transport holds are kept, or lose the oldest one in RX (R87, R186). -/
def HeldMove (s t : State) : Prop :=
  t.held = s.held ∨ s.fcd.phase = .rx ∧ (∃ b : Byte, s.held = b :: t.held) ∧ t.fcd.rxfCount = s.fcd.rxfCount + 1

theorem engineTurn_frame {s t : State} (h : engineTurn s = .next t) : t = { s with fcd := t.fcd } := by
  obtain ⟨c, -, -, he⟩ | ⟨-, -, he⟩ | ⟨-, ⟨g, -, he⟩ | ⟨-, he⟩⟩ | ⟨-, he⟩ := engineTurn_cases s <;>
    rw [he] at h <;> cases h <;> rfl

/-- An Accept step that answers has passed the offered byte on (R184). -/
theorem eq_of_acceptByte {s t : State} (h : acceptByte s = .next t) :
    t = { s with
      sent := s.sent ++ [s.fcd.txData]
      fcd := { s.fcd with
        txCount := s.fcd.txCount + 1
        phase := if s.fcd.txCount + 1 = s.fcd.frameLen then .rx else s.fcd.phase } } := by
  simp only [acceptByte] at h
  split at h <;> cases h
  rfl

/-- A Deliver step that answers: nothing without a byte held, else the oldest one goes to RXF_BUF. -/
theorem cases_of_deliverByte {s t : State} (h : deliverByte s = .next t) :
    t = s ∨ ∃ (b : Byte) (rest : List Byte) (p : Phase), s.held = b :: rest ∧
      t = { s with
        held := rest
        fcd := { s.fcd.setBuf .rxf s.fcd.rxfCount.toNat b with rxfCount := s.fcd.rxfCount + 1, phase := p } } := by
  unfold deliverByte at h
  split at h
  · cases h
    exact .inl rfl
  · rename_i b rest hheld
    simp only at h
    split at h <;> cases h
    exact .inr ⟨b, rest, _, hheld, rfl⟩

theorem acceptByte_streams {s t : State} (hp : s.fcd.phase = .tx) (h : acceptByte s = .next t) :
    SentMove s t ∧ HeldMove s t ∧ t.linkUp = s.linkUp := by
  rw [eq_of_acceptByte h]
  exact ⟨.inr ⟨hp, rfl, rfl⟩, .inl rfl, rfl⟩

theorem deliverByte_streams {s t : State} (hp : s.fcd.phase = .rx) (h : deliverByte s = .next t) :
    SentMove s t ∧ HeldMove s t ∧ t.linkUp = s.linkUp := by
  obtain rfl | ⟨b, rest, p, hheld, rfl⟩ := cases_of_deliverByte h
  · exact ⟨.inl rfl, .inl rfl, rfl⟩
  · exact ⟨.inl rfl, .inr ⟨hp, ⟨b, hheld⟩, rfl⟩, rfl⟩

theorem transportStep_streams {s t : State} {sig : Signals} (h : transportStep sig s = .next t) :
    SentMove s t ∧ HeldMove s t ∧ t.linkUp = s.linkUp := by
  obtain he | ⟨-, -, he⟩ | ⟨hp, -, he⟩ | ⟨hp, -, he⟩ | ⟨-, -, he⟩ := transportStep_cases sig s <;> rw [he] at h
  · cases h
    exact ⟨.inl rfl, .inl rfl, rfl⟩
  · cases h
    exact ⟨.inl rfl, .inl rfl, rfl⟩
  · obtain ⟨u, hu, rfl⟩ := keepShort_next h
    exact acceptByte_streams (t := u) hp hu
  · obtain ⟨u, hu, rfl⟩ := keepShort_next h
    exact deliverByte_streams (t := u) hp hu
  · cases h
    exact ⟨.inl rfl, .inl rfl, rfl⟩

/-- Settles O43: host and engine leave the transport's fields alone, a transport clock moves a byte in its phase, and
each turn of the outside world changes the one field it names. -/
theorem streamsMoveOnlyInTheirPhases : Obligations.StreamsMoveOnlyInTheirPhases := by
  intro s t h
  obtain ⟨hturn, hm⟩ | ⟨hturn, hm⟩ | ⟨sig, hturn, hm⟩ | ⟨bytes, hturn, rfl⟩ | ⟨hturn, rfl⟩ | ⟨up, hturn, rfl⟩ |
    ⟨hturn, rfl⟩ := step_cases h <;> simp only [hturn]
  · rw [(hostStep_next hm).2]
    exact ⟨.inl rfl, .inl rfl, nofun, fun _ => rfl⟩
  · rw [engineTurn_frame hm]
    exact ⟨.inl rfl, .inl rfl, nofun, fun _ => rfl⟩
  · obtain ⟨hsent, hheld, hlink⟩ := transportStep_streams (s := s.popTurn) hm
    exact ⟨hsent, hheld.imp_right fun hrx => .inr (.inr hrx), nofun, fun _ => hlink⟩
  · exact ⟨.inl rfl, .inr (.inl ⟨bytes, rfl, rfl⟩), nofun, fun _ => rfl⟩
  · exact ⟨.inl rfl, .inr (.inr (.inl ⟨trivial, trivial⟩)), nofun, fun _ => rfl⟩
  · refine ⟨.inl rfl, .inl rfl, ?_, fun hno => absurd rfl (hno up)⟩
    rintro _ ⟨⟩
    rfl
  · exact ⟨.inl rfl, .inl rfl, nofun, fun _ => rfl⟩

/-! ### The reset draws -/

theorem writeReg_epoch (f : Fcd) (r : Reg) (v : Byte) : (f.writeReg r v).epoch = f.epoch := by rw [writeReg_eq]

theorem writeIdle_epoch (f : Fcd) (l : Loc) (v : Byte) : (f.writeIdle l v).epoch = f.epoch := by
  cases l with
  | reg r => exact writeReg_epoch f r v
  | buf b i => by_cases h : bufHostWritable b <;> simp [Fcd.writeIdle, h]
  | reserved => rfl

theorem startOp_epoch (f : Fcd) (op : BitVec 4) : (f.startOp op).epoch = f.epoch := by
  obtain ⟨-, h⟩ | ⟨-, h⟩ := startOp_cases f op <;> simp [h]

theorem writeLoc_epoch (f : Fcd) (l : Loc) (v : Byte) : (f.writeLoc l v).epoch = f.epoch := by
  unfold Fcd.writeLoc
  split
  · unfold Fcd.writeCtrl
    split
    · exact startOp_epoch f _
    · rfl
  · rfl
  · rfl
  · split
    · rfl
    · exact writeIdle_epoch f _ v

theorem checkWire_epoch (f : Fcd) (linkUp : Bool) (cmd : Byte) : (f.checkWire linkUp cmd).epoch = f.epoch := by
  obtain ⟨x, -, h⟩ | ⟨frame, -, -, ⟨-, h⟩ | ⟨-, -, h⟩ | ⟨-, -, h⟩⟩ := checkWire_cases f linkUp cmd <;> simp [h]

theorem writeFields_epoch (f : Fcd) (d : Fields) : (f.writeFields d).epoch = f.epoch := by rw [writeFields_eq]

theorem checkLocal_epoch (f : Fcd) : f.checkLocal.epoch = f.epoch := by
  unfold Fcd.checkLocal
  split
  · obtain ⟨x, -, h⟩ | ⟨r, c, h⟩ | ⟨d, -, h⟩ := checkDecode_cases f <;> simp [h, writeFields_epoch]
  · rfl

theorem finishInventory_epoch (f : Fcd) : f.finishInventory.epoch = f.epoch := by
  obtain ⟨-, h⟩ | ⟨recs, -, h⟩ := finishInventory_cases f <;> rw [h]
  · rfl
  · rw [writeTags_eq]
    rfl

theorem finishSuccess_epoch {f g : Fcd} (h : f.finishSuccess = some g) : g.epoch = f.epoch := by
  obtain ⟨-, he⟩ | ⟨-, he⟩ | ⟨-, he⟩ | ⟨-, he⟩ | ⟨-, he⟩ := finishSuccess_cases f <;> rw [he] at h <;> cases h
  · rfl
  · exact finishInventory_epoch f
  · rfl
  · rfl

theorem classifyFailure_epoch (f : Fcd) (d : Fields) : (f.classifyFailure d).epoch = f.epoch := by
  obtain ⟨-, h⟩ | ⟨code, rest, -, ⟨-, -, h⟩ | ⟨-, h⟩⟩ := classifyFailure_cases f d <;> simp [h]

theorem commitStep_epoch {f g : Fcd} (h : f.commitStep = some g) : g.epoch = f.epoch := by
  obtain ⟨x, -, he⟩ | ⟨r, c, he⟩ | ⟨d, -, ⟨-, he⟩ | ⟨-, he⟩⟩ := commitStep_cases f <;> rw [he] at h
  · cases h; rfl
  · cases h; rfl
  · cases h; exact (classifyFailure_epoch _ d).trans (writeFields_epoch f d)
  · exact (finishSuccess_epoch h).trans (writeFields_epoch f d)

theorem fcdMove_epoch {s : State} {g : Fcd} (h : FcdMove s g) : g.epoch = s.fcd.epoch := by
  cases h with
  | same => rfl
  | write l v => exact writeLoc_epoch s.fcd l v
  | start op => exact startOp_epoch s.fcd op
  | carry c => exact checkWire_epoch s.fcd s.linkUp c

theorem engineTurn_epoch {s t : State} (h : engineTurn s = .next t) : t.fcd.epoch = s.fcd.epoch := by
  obtain ⟨c, -, -, he⟩ | ⟨-, -, he⟩ | ⟨-, ⟨g, hg, he⟩ | ⟨-, he⟩⟩ | ⟨-, he⟩ := engineTurn_cases s <;>
    rw [he] at h <;> cases h
  · exact checkWire_epoch s.fcd s.linkUp c
  · exact checkLocal_epoch s.fcd
  · exact commitStep_epoch hg
  · rfl

theorem deliverByte_epoch {s t : State} (h : deliverByte s = .next t) : t.fcd.epoch = s.fcd.epoch := by
  obtain rfl | ⟨b, rest, p, -, rfl⟩ := cases_of_deliverByte h
  · rfl
  · exact setBuf_epoch s.fcd .rxf _ b

theorem transportStep_epoch {s t : State} {sig : Signals} (h : transportStep sig s = .next t) :
    t.fcd.epoch = s.fcd.epoch := by
  obtain he | ⟨-, -, he⟩ | ⟨-, -, he⟩ | ⟨-, -, he⟩ | ⟨-, -, he⟩ := transportStep_cases sig s <;> rw [he] at h
  · cases h; rfl
  · cases h; rfl
  · obtain ⟨u, hu, rfl⟩ := keepShort_next h
    rw [eq_of_acceptByte hu]
  · obtain ⟨u, hu, rfl⟩ := keepShort_next h
    exact deliverByte_epoch (t := u) hu
  · cases h; rfl

theorem step_epoch {s t : State} (h : step s = .next t) (hturn : nextTurn s ≠ .reset) :
    t.fcd.epoch = s.fcd.epoch := by
  obtain ⟨-, hm⟩ | ⟨-, hm⟩ | ⟨sig, -, hm⟩ | ⟨_, -, rfl⟩ | ⟨-, rfl⟩ | ⟨_, -, rfl⟩ | ⟨hr, -⟩ := step_cases h
  · exact fcdMove_epoch (s := s.popTurn) (hostStep_next hm).1
  · exact engineTurn_epoch (s := s.popTurn) hm
  · exact transportStep_epoch (s := s.popTurn) hm
  · rfl
  · rfl
  · rfl
  · exact absurd hr hturn

theorem step_reset {s : State} (h : nextTurn s = .reset) : step s = .next s.popTurn.resetFcd := by
  simp [step, h]

/-- After a reset no byte is written, so each reads as its draw (R57). -/
theorem buf_reset (p : Params) (epoch : Nat) (b : Buf) (j : Nat) :
    (Fcd.reset p epoch).buf b j = Config.resetDraw epoch (bufBase b + j) := rfl

/-- Settles O53: a reset empties the buffer memory under a new draw number, which no other move changes. -/
theorem bufferDrawsStable : Obligations.BufferDrawsStable :=
  ⟨fun s hturn => ⟨_, step_reset hturn, fun b j _ => buf_reset s.fcd.params (s.fcd.epoch + 1) b j⟩,
    fun _ _ h hturn => step_epoch h hturn⟩

end Sys2Proof.Proofs

/-! PROOF. The statements of 10_state.md about single accesses: the registers at their addresses (R30, R70, R71, R74),
the CTRL byte and the start of an operation (R31, R100, R180), CLR and WAIT (R106), the interrupt (R22), and reset
(R56). -/

namespace Sys2Proof.Proofs

open Sys2Proof.Machine Sys2Proof.Laws

/-! ### The registers' bytes -/

theorem eq_ofNat_of_toNat {w n : Nat} {x : BitVec w} (h : x.toNat = n) : x = BitVec.ofNat w n := by simp [← h]

/-- An append as a number: its higher part times its lower part's range, plus the lower part. -/
theorem toNat_append_eq {m n : Nat} (x : BitVec m) (y : BitVec n) : (x ++ y).toNat = x.toNat * 2 ^ n + y.toNat := by
  rw [BitVec.toNat_append, ← Nat.shiftLeft_add_eq_or_of_lt y.isLt, Nat.shiftLeft_eq]

/-- CTRL as read is its OP field (R31). -/
theorem ctrlRead_eq (f : Fcd) : ctrlRead f = BitVec.ofNat 8 f.ctrlOp.toNat := by
  have happend : (ctrlRead f).toNat = _ := toNat_append_eq 0#4 f.ctrlOp
  exact eq_ofNat_of_toNat (by simpa using happend)

theorem countLo_eq (c : Count) : countLo c = BitVec.ofNat 8 (c.toNat % 256) :=
  eq_ofNat_of_toNat (by simp [countLo])

theorem bit8_eq (c : Count) : (c.extractLsb' 8 1).toNat = c.toNat / 256 := by
  have hc := c.isLt
  simp [Nat.shiftRight_eq_div_pow]
  omega

theorem countHi_eq (c : Count) : countHi c = BitVec.ofNat 8 (c.toNat / 256) := by
  have happend : (countHi c).toNat = _ := toNat_append_eq 0#7 (c.extractLsb' 8 1)
  exact eq_ofNat_of_toNat (by rw [happend, bit8_eq]; simp)

theorem setCountLo_eq (c : Count) (v : Byte) :
    setCountLo c v = BitVec.ofNat 9 (c.toNat / 256 * 256 + v.toNat) := by
  have happend : (setCountLo c v).toNat = (c.extractLsb' 8 1).toNat * 256 + v.toNat := toNat_append_eq _ v
  exact eq_ofNat_of_toNat (by rw [happend, bit8_eq])

theorem setCountHi_eq (c : Count) (v : Byte) :
    setCountHi c v = BitVec.ofNat 9 (v.toNat % 2 * 256 + c.toNat % 256) := by
  have happend : (setCountHi c v).toNat = _ := toNat_append_eq (v.extractLsb' 0 1) (c.extractLsb' 0 8)
  exact eq_ofNat_of_toNat (by simpa using happend)

theorem statusByte_bit1 (f : Fcd) : (statusByte f).getLsbD 1 = f.done := by
  cases hc : f.collide <;> cases hd : f.done <;> cases hb : f.busy <;> simp [statusByte, hc, hd, hb]

theorem intenByte_bit0 (f : Fcd) : (intenByte f).getLsbD 0 = f.ie := by
  cases h : f.ie <;> simp [intenByte, h]

/-- No register holds a 1 in a reserved bit (R30, R71). -/
theorem ctrlRead_reserved (f : Fcd) : ctrlRead f &&& 0x70 = 0 := by
  have key : ∀ op : BitVec 4, (0#4 ++ op) &&& 0x70#8 = 0 := by decide
  exact key f.ctrlOp

theorem statusByte_reserved (f : Fcd) : statusByte f &&& 0xF8 = 0 := by
  cases hc : f.collide <;> cases hd : f.done <;> cases hb : f.busy <;> simp [statusByte, hc, hd, hb]

theorem resultByte_reserved (x : ResultCode) : resultByte x &&& 0xF0 = 0 := by cases x <;> decide

theorem intenByte_reserved (f : Fcd) : intenByte f &&& 0xFE = 0 := by
  cases h : f.ie <;> simp [intenByte, h]

theorem countHi_reserved (c : Count) : countHi c &&& 0xFE = 0 := by
  have key : ∀ b : BitVec 1, (0#7 ++ b) &&& 0xFE#8 = 0 := by decide
  exact key _

theorem flagsByte_reserved (f : Fcd) : flagsByte f &&& 0xF0 = 0 := by
  cases ha : f.addressed <;> cases hw : f.writeOk <;> cases hr : f.readPresent <;> cases hv : f.respValid <;>
    simp [flagsByte, ha, hw, hr, hv]

/-! ### The address map -/

/-- A host address of no register and no buffer is reserved (R70). -/
theorem locate_reserved {n : Nat}
    (h : (0x01F ≤ n ∧ n ≤ 0x0FF) ∨ (0x404 ≤ n ∧ n ≤ 0x4FF) ∨ (0x701 ≤ n ∧ n ≤ 0x7FF) ∨ 0xB01 ≤ n) :
    locate n = .reserved := by
  have hreg : allRegs[n]? = none := by
    rw [List.getElem?_eq_none_iff]
    simp only [allRegs, List.length_append, List.length_cons, List.length_nil]
    omega
  have hbuf : ∀ b : Buf, ¬(bufBase b ≤ n ∧ n < bufBase b + bufSize b) := by
    intro b
    cases b <;> simp only [bufBase, bufSize] <;> omega
  simp only [locate, hreg, allBufs, locateBuf, hbuf, if_false]

/-- The registers that a host write never changes (R74). -/
theorem writeLoc_readOnly {n : Nat} (h : n = 0x002 ∨ (0x010 ≤ n ∧ n ≤ 0x01E)) (f : Fcd) (v : Byte) :
    f.writeLoc (locate n) v = f := by
  obtain rfl | ⟨hlo, hhi⟩ := h
  · exact ite_self f
  · interval_cases n <;> exact ite_self f

/-! ### Host accesses -/

theorem exec_wr (a : HostAddr) (d : Byte) (s : State) :
    exec (.wr a d) s = .next { s with program := s.program.tail, fcd := s.fcd.writeLoc (locate a.toNat) d } := rfl

theorem readIsFree_idle {f : Fcd} (h : f.busy = false) (l : Loc) : f.readIsFree l = false := by
  cases l <;> simp [Fcd.readIsFree, h]

/-- A read of a location whose byte is not free returns that byte. -/
theorem exec_rd {s : State} {a : HostAddr} (h : s.fcd.readIsFree (locate a.toNat) = false) :
    exec (.rd a) s =
      .next { s with hbRdata := s.fcd.readLoc (locate a.toNat), program := s.program.tail } := by
  simp [exec, execRd, State.readAt, State.retire, h]

/-- Settles O9: with BUSY = 0 no read is free, and each register's byte is the number the rules give. -/
theorem registersReadAtTheirAddresses : Obligations.RegistersReadAtTheirAddresses := by
  intro s hidle reads f
  have hnum : ∀ (a : HostAddr) (r : Reg) (n : Nat), locate a.toNat = .reg r → f.readReg r = BitVec.ofNat 8 n →
      reads a n := by
    intro a r n hloc hbyte
    simp only [reads]
    rw [exec_rd (readIsFree_idle hidle _), hloc, Fcd.readLoc, hbyte]
  have hbyte : ∀ (a : HostAddr) (r : Reg) (v : Byte), locate a.toNat = .reg r → f.readReg r = v → reads a v.toNat :=
    fun a r v hloc hv => hnum a r _ hloc (by simp [hv])
  refine ⟨hnum _ .ctrl _ rfl (ctrlRead_eq f), hnum _ .status _ rfl (by simp [Fcd.readReg, statusByte, f, hidle]),
    ?result, hbyte _ .cmdCode _ rfl rfl, hbyte _ .addr _ rfl rfl, hbyte _ .boot _ rfl rfl,
    hbyte _ .payloadLen _ rfl rfl, hbyte _ .tidLen _ rfl rfl, hbyte _ .dataLen _ rfl rfl, hbyte _ .pwLen _ rfl rfl,
    hbyte _ .bank _ rfl rfl, hbyte _ .startWord _ rfl rfl, hbyte _ .wordCount _ rfl rfl, hnum _ .inten _ rfl rfl,
    hnum _ .frameLenLo _ rfl (countLo_eq _), hnum _ .frameLenHi _ rfl (countHi_eq _), hbyte _ .respBoot _ rfl rfl,
    hbyte _ .respLfield _ rfl rfl, hbyte _ .respCmd _ rfl rfl, hbyte _ .respAddr _ rfl rfl,
    hbyte _ .respPlen _ rfl rfl, hbyte _ .respCsum _ rfl rfl, hbyte _ .calcCsum _ rfl rfl, hnum _ .flags _ rfl rfl,
    hbyte _ .errCode _ rfl rfl, ?category, hbyte _ .tagCount _ rfl rfl, hnum _ .rxfCountLo _ rfl (countLo_eq _),
    hnum _ .rxfCountHi _ rfl (countHi_eq _), hnum _ .txCountLo _ rfl (countLo_eq _),
    hnum _ .txCountHi _ rfl (countHi_eq _)⟩
  case result =>
    intro c hc hres
    refine hnum _ .result _ rfl ?_
    rw [Fcd.readReg, hres]
    clear hres
    revert c
    decide
  case category =>
    intro c hc hcat
    refine hnum _ .errCat _ rfl ?_
    rw [Fcd.readReg, hcat]
    clear hcat
    revert c
    decide

/-! ### The CTRL byte -/

/-- START is bit 7 and OP bits 3 to 0, so bits 6 to 4 do not count (R31). -/
theorem ctrlStart_mask (v : Byte) : ctrlStart (v &&& 0x8F) = ctrlStart v := by
  simp [ctrlStart]

theorem ctrlOpField_mask (v : Byte) : ctrlOpField (v &&& 0x8F) = ctrlOpField v := by
  ext i hi
  interval_cases i <;> simp [ctrlOpField]

theorem decodeCtrl_mask (v : Byte) : decodeCtrl (v &&& 0x8F) = decodeCtrl v := by
  rw [decodeCtrl, decodeCtrl, ctrlStart_mask, ctrlOpField_mask]

theorem writeCtrl_mask (f : Fcd) (v : Byte) : f.writeCtrl (v &&& 0x8F) = f.writeCtrl v := by
  rw [Fcd.writeCtrl, Fcd.writeCtrl, ctrlStart_mask, ctrlOpField_mask]

theorem setCountHi_mask (c : Count) (v : Byte) : setCountHi c (v &&& 0x01) = setCountHi c v := by
  simp [setCountHi_eq]

theorem ctrlStart_ctrlByte (op : BitVec 4) : ctrlStart (ctrlByte op) = true := by revert op; decide

theorem ctrlOpField_ctrlByte (op : BitVec 4) : ctrlOpField (ctrlByte op) = op := by revert op; decide

theorem decodeOp_high {op : BitVec 4} (h : op.getLsbD 3 = true) : decodeOp op = .illegalOpHigh op := by
  revert op; decide

theorem ctrlOpField_eq (v : Byte) : ctrlOpField v = v.setWidth 4 := (BitVec.setWidth_eq_extractLsb' (by decide)).symm

/-- Settles O3: masking a byte by 0x8F keeps its START and OP, on which alone the decoder depends; the masks of the last
two rows give START and bit 3 of OP. -/
theorem ctrlBytesFollowTableRows : Obligations.CtrlBytesFollowTableRows := by
  intro v
  have hrow : ∀ m : Byte, v &&& 0x8F = m → decode ⟨.ctrl8, [v]⟩ = .ok (decodeCtrl m) := by
    rintro m rfl
    rw [decodeCtrl_mask]
    rfl
  refine ⟨hrow _, hrow _, hrow _, hrow _, hrow _, hrow _, hrow _, hrow _, fun hmask => ?high, fun hmask => ?nostart⟩
  case high =>
    have hbits : ∀ k, (v.getLsbD k && (0x88#8).getLsbD k) = (0x88#8).getLsbD k := fun k => by
      rw [← BitVec.getLsbD_and]
      exact congrArg (·.getLsbD k) hmask
    have hstart : ctrlStart v = true := by simpa [ctrlStart] using hbits 7
    have hop : (ctrlOpField v).getLsbD 3 = true := by simpa [ctrlOpField_eq] using hbits 3
    rw [← ctrlOpField_eq, ← decodeOp_high hop]
    change Except.ok (decodeCtrl v) = _
    rw [decodeCtrl, hstart, if_pos rfl]
  case nostart =>
    have hstart : ctrlStart v = false := by simpa [ctrlStart] using congrArg (·.getLsbD 7) hmask
    change Except.ok (decodeCtrl v) = _
    rw [decodeCtrl, hstart]
    rfl

/-- Settles O12: the address map, the bytes of the registers with fields, and the fields that a write reads. -/
theorem reservedReadsZeroIgnoresWrites : Obligations.ReservedReadsZeroIgnoresWrites := by
  refine ⟨fun s a d ha => ?reserved, fun f => ⟨ctrlRead_reserved f, statusByte_reserved f, resultByte_reserved f.result,
    intenByte_reserved f, countHi_reserved f.frameLen, flagsByte_reserved f, countHi_reserved f.rxfCount,
    countHi_reserved f.txCount⟩, fun s d => ?bits⟩
  case reserved =>
    have hloc := locate_reserved ha
    rw [exec_rd (by rw [hloc]; rfl), exec_wr, hloc]
    simp [Fcd.readLoc, Fcd.writeLoc, Fcd.writeIdle]
  case bits =>
    have hsame : ∀ (a : HostAddr) (e : Byte), s.fcd.writeLoc (locate a.toNat) d = s.fcd.writeLoc (locate a.toNat) e →
        exec (.wr a d) s = exec (.wr a e) s := by
      intro a e he
      rw [exec_wr, exec_wr, he]
    refine ⟨hsame _ _ (writeCtrl_mask s.fcd d).symm, hsame _ _ ?_, hsame _ _ ?_, hsame _ _ ?_, fun a ha => ?_⟩
    · change s.fcd.writeStatus d = s.fcd.writeStatus (d &&& 0x07)
      simp [Fcd.writeStatus]
    · change ({ s.fcd with ie := d.getLsbD 0 } : Fcd) = { s.fcd with ie := (d &&& 0x01).getLsbD 0 }
      simp
    · change (if s.fcd.busy then s.fcd else { s.fcd with frameLen := setCountHi s.fcd.frameLen d }) =
        if s.fcd.busy then s.fcd else { s.fcd with frameLen := setCountHi s.fcd.frameLen (d &&& 0x01) }
      rw [setCountHi_mask]
    · have hread : a.toNat = 0x002 ∨ (0x010 ≤ a.toNat ∧ a.toNat ≤ 0x01E) := by
        rcases ha with rfl | rfl | rfl | rfl <;> decide
      rw [exec_wr, writeLoc_readOnly hread]

/-- Settles O14: one register's write for each address, and none for the read-only ones. -/
theorem idleRegisterWrites : Obligations.IdleRegisterWrites := by
  intro s d hidle writes f
  have hwrite : ∀ (a : HostAddr) (g : Fcd), f.writeLoc (locate a.toNat) d = g → writes a g := by
    rintro a g rfl
    exact exec_wr a d s
  have hreg : ∀ (a : HostAddr) (g : Fcd), f.writeLoc (locate a.toNat) d = (if f.busy then f else g) → writes a g := by
    intro a g hg
    exact hwrite a g (by rw [hg, hidle]; rfl)
  refine ⟨hwrite _ _ rfl, hreg _ _ rfl, hreg _ _ rfl, hreg _ _ rfl, hreg _ _ rfl, hreg _ _ rfl, hreg _ _ rfl,
    hreg _ _ rfl, hreg _ _ rfl, hreg _ _ rfl, hreg _ _ rfl, hwrite _ _ rfl, ?frameLenLo, ?frameLenHi,
    fun a ha => hwrite a f (writeLoc_readOnly (ha.imp_left (congrArg BitVec.toNat)) f d)⟩
  case frameLenLo =>
    rw [← setCountLo_eq]
    exact hreg _ _ rfl
  case frameLenHi =>
    rw [← setCountHi_eq]
    exact hreg _ _ rfl

/-! ### The CTRL byte: the start of an operation -/

theorem startOp_idle {f : Fcd} (h : f.busy = false) (op : BitVec 4) : f.startOp op = f.accept op := by
  simp [Fcd.startOp, h]

theorem writeCtrl_ctrlByte (f : Fcd) (op : BitVec 4) : f.writeCtrl (ctrlByte op) = f.startOp op := by
  rw [Fcd.writeCtrl, ctrlStart_ctrlByte, ctrlOpField_ctrlByte]
  rfl

/-- Settles O18: every start instruction is a start request, which BUSY = 0 accepts. -/
theorem startAcceptedWhenIdle : Obligations.StartAcceptedWhenIdle := by
  intro s hidle accepts
  have hstart : ∀ (i : Instr) (op : BitVec 4), exec i s = .next (s.start op).retire → accepts i op := by
    intro i op hi
    have hacc : (s.start op).retire = { s with program := s.program.tail, fcd := s.fcd.accept op } := by
      rw [← startOp_idle hidle]
      rfl
    exact hi.trans (congrArg _ hacc)
  refine ⟨hstart _ _ rfl, hstart _ _ rfl, hstart _ _ rfl, hstart _ _ rfl, hstart _ _ rfl, hstart _ _ rfl,
    hstart _ _ rfl, hstart _ _ rfl, fun op _ => hstart _ op rfl, fun op => hstart _ op ?_⟩
  change Host.Outcome.next { s with program := s.program.tail, fcd := s.fcd.writeCtrl (ctrlByte op) } = _
  rw [writeCtrl_ctrlByte]
  rfl

/-- The instruction that an OP decodes to is a start request with that OP. -/
theorem exec_decodeOp (op : BitVec 4) (s : State) : exec (decodeOp op) s = .next (s.start op).retire := by
  unfold decodeOp
  repeat' split
  all_goals subst_vars; rfl

/-- Settles O21: a byte with START = 1 is a start request with its OP on both sides, and the others do nothing. -/
theorem ctrlWriteRunsItsByte : Obligations.CtrlWriteRunsItsByte := by
  intro s v i hdec
  obtain rfl : decodeCtrl v = i := Except.ok.inj hdec
  change Host.Outcome.next { s with program := s.program.tail, fcd := s.fcd.writeCtrl v } = _
  by_cases hstart : ctrlStart v = true
  · simp only [Fcd.writeCtrl, decodeCtrl, hstart, if_true, exec_decodeOp]
    rfl
  · simp only [Fcd.writeCtrl, decodeCtrl, hstart]
    rfl

/-! ### CLR, WAIT, and the interrupt -/

/-- Settles O22: CLR is the STATUS write of both bits, and WAIT the STATUS read, whose bit 1 is DONE. -/
theorem noStartClearAndWait : Obligations.NoStartClearAndWait := by
  intro s
  refine ⟨rfl, ?clr, rfl, ?wait⟩
  case clr =>
    change Host.Outcome.next { s with program := s.program.tail, fcd := s.fcd.writeStatus 0x06 } = _
    simp [Fcd.writeStatus]
  case wait =>
    have hread : s.readAt (.reg .status) = { s with hbRdata := statusByte s.fcd } := by
      simp [State.readAt, Fcd.readIsFree, regFreeWhileBusy, Fcd.readLoc, Fcd.readReg]
    simp only [exec, execWait, hread, statusByte_bit1]
    cases hd : s.fcd.done <;> simp [State.retire, statusByte, hd]

/-- Settles O23: bit 1 of STATUS is DONE and bit 0 of INTEN is IE, and each clause sets one of the two. -/
theorem irqIsDoneAndEnabled : Obligations.IrqIsDoneAndEnabled := by
  refine ⟨fun f => ?bits, fun f x => by simp [irq], ?status, ?inten, fun f op => by simp [irq], fun s => rfl⟩
  case bits =>
    rw [Fcd.readReg, Fcd.readReg, statusByte_bit1, intenByte_bit0, irq, Bool.and_eq_true]
  case status =>
    rintro s t d hd ⟨⟩
    change irq (s.fcd.writeStatus d) = false
    simp [irq, Fcd.writeStatus, hd]
  case inten =>
    rintro s t d hd ⟨⟩
    change irq { s.fcd with ie := d.getLsbD 0 } = false
    simp only [irq, hd, Bool.and_false]

/-! ### Reset -/

theorem readReg_reset (p : Params) (epoch : Nat) (r : Reg) :
    (Fcd.reset p epoch).readReg r = if r = .boot then 0x40 else 0 := by
  cases r <;> simp [Fcd.readReg, Fcd.reset, ctrlRead_eq, countLo_eq, countHi_eq, statusByte, flagsByte, intenByte,
    resultByte, categoryByte]

/-- Settles O52: the start state and the state after a reset clock both hold the FCD's reset registers. -/
theorem resetState : Obligations.ResetState := by
  unfold Obligations.ResetState
  intro isReset
  have hreset : ∀ p epoch, isReset (Fcd.reset p epoch) := fun p epoch =>
    ⟨readReg_reset p epoch, rfl, rfl, rfl, rfl, rfl, rfl, rfl, rfl, rfl, rfl, rfl⟩
  exact ⟨hreset _ _, fun s hturn => ⟨_, step_reset hturn, hreset _ _, rfl, rfl⟩⟩

end Sys2Proof.Proofs

/-! PROOF. The statements of 20_memory.md about single accesses: the buffers at their addresses (R70, R74), reads and
writes during an operation (R75, R76), the split counters (R78), and the host's turn (R81). -/

namespace Sys2Proof.Proofs

open Sys2Proof.Machine Sys2Proof.Laws

/-! ### The host's turn -/

theorem fetchHost_word {s : State} {sl : Slot} {rest : List HostItem} {i : Instr} (hprog : s.program = .word sl :: rest)
    (hfmt : sl.fmt ≠ .wireFrame) (hdec : decode sl = .ok i) : fetchHost s = .instr i := by
  simp [fetchHost, hprog, hfmt, hdec]

/-- Settles O6: the line that decodes is what the host fetches. -/
theorem stepRunsHostInstr : Obligations.StepRunsHostInstr := by
  intro s sl rest i hturn hprog hfmt hdec
  have hfetch : fetchHost s.popTurn = .instr i := fetchHost_word hprog hfmt hdec
  calc step s = hostStep s.popTurn := by simp [step, hturn]
    _ = exec i s.popTurn := by simp [hostStep, hfetch]

/-! ### The buffers in the address map -/

/-- Each buffer of a list stands at its own addresses: no buffer before it in the list has them. -/
theorem locateBuf_of_mem {bufs : List Buf} {b : Buf} {i : Nat} (hb : b ∈ bufs) (hi : i < bufSize b) :
    locateBuf bufs (bufBase b + i) = .buf b i := by
  induction bufs with
  | nil => simp at hb
  | cons c rest ih =>
    simp only [locateBuf]
    split
    · rename_i hc
      obtain ⟨rfl, hindex⟩ := bufBase_add_inj (c := c) (j := bufBase b + i - bufBase c) hi (by omega) (by omega)
      rw [← hindex]
    · rename_i hc
      refine ih ((List.mem_cons.1 hb).resolve_left ?_)
      rintro rfl
      exact hc ⟨by omega, by omega⟩

theorem mem_allBufs (b : Buf) : b ∈ allBufs := by cases b <;> decide

theorem bufBase_ge (b : Buf) : 0x100 ≤ bufBase b := by cases b <;> decide

/-- Byte `i` of a buffer stands at its base plus `i` (R70). -/
theorem locate_buf {b : Buf} {i : Nat} (hi : i < bufSize b) : locate (bufBase b + i) = .buf b i := by
  have hbase := bufBase_ge b
  have hreg : allRegs[bufBase b + i]? = none :=
    List.getElem?_eq_none (le_trans (by decide : allRegs.length ≤ 0x100) (by omega))
  rw [locate, hreg]
  exact locateBuf_of_mem (mem_allBufs b) hi

theorem bufBase_add_lt {b : Buf} {i : Nat} (hi : i < bufSize b) : bufBase b + i < 0x1000 := by
  cases b <;> simp only [bufBase, bufSize] at hi ⊢ <;> omega

/-- The host address of byte `i` of a buffer. -/
theorem locate_bufAddr {b : Buf} {i : Nat} (hi : i < bufSize b) :
    locate (BitVec.ofNat 12 (bufBase b + i)).toNat = .buf b i := by
  rw [BitVec.toNat_ofNat, Nat.mod_eq_of_lt (bufBase_add_lt hi), locate_buf hi]

/-- Settles O10: with BUSY = 0 no read is free, and the address map sends the base plus `i` to byte `i`. -/
theorem buffersReadAtTheirAddresses : Obligations.BuffersReadAtTheirAddresses := by
  intro b base size hrow
  change (b, base, size) ∈ allBufs.map fun c => (c, bufBase c, bufSize c) at hrow
  obtain ⟨_, -, ⟨⟩⟩ := List.mem_map.1 hrow
  refine ⟨rfl, rfl, fun s i hidle hi => ?_⟩
  rw [exec_rd (readIsFree_idle hidle _), locate_bufAddr hi, Fcd.readLoc]

/-- Settles O15: the address map sends the write to its byte, and a write to one byte leaves the others. -/
theorem idleBufferWrites : Obligations.IdleBufferWrites := by
  intro b base size writable hrow
  change (b, base, size, writable) ∈ allBufs.map fun c => (c, bufBase c, bufSize c, bufHostWritable c) at hrow
  obtain ⟨_, -, ⟨⟩⟩ := List.mem_map.1 hrow
  intro s i d hidle hi
  have hwrite : s.fcd.writeLoc (.buf b i) d = if bufHostWritable b then s.fcd.setBuf b i d else s.fcd := by
    simp [Fcd.writeLoc, Fcd.writeIdle, hidle]
  refine ⟨_, exec_wr _ d s, ?_⟩
  rw [locate_bufAddr hi, hwrite]
  cases bufHostWritable b with
  | false => exact ⟨rfl, rfl, fun _ _ _ _ => rfl⟩
  | true =>
    refine ⟨?_, buf_setBuf_same s.fcd b i d hi, fun c j hj hne => buf_setBuf_other s.fcd d hj hne⟩
    exact congrArg (fun f => { s with program := s.program.tail, fcd := f }) (setBuf_eq s.fcd b i d)

/-! ### Reads during an operation -/

/-- The bytes that an operation leaves unspecified to the host's reads (R76). -/
def freeWhileBusy : Loc → Bool
  | .reg r => regFreeWhileBusy r
  | .buf b _ => bufFreeWhileBusy b
  | .reserved => false

theorem readIsFree_busy {f : Fcd} (h : f.busy = true) (l : Loc) : f.readIsFree l = freeWhileBusy l := by
  cases l <;> simp [Fcd.readIsFree, freeWhileBusy, h]

/-- The addresses that R76 lists, as numbers (R70). -/
def IsOutputAddr (n : Nat) : Prop :=
  n = 0x002 ∨ (0x00E ≤ n ∧ n ≤ 0x01A) ∨ (0x500 ≤ n ∧ n ≤ 0x5FF) ∨ (0x600 ≤ n ∧ n ≤ 0x700) ∨
    (0x800 ≤ n ∧ n ≤ 0x9FF) ∨ (0xA00 ≤ n ∧ n ≤ 0xB00)

/-- A host address is a register's, a buffer byte's or reserved (R70). -/
theorem address_cases (n : Nat) :
    n < 31 ∨ (∃ (b : Buf) (i : Nat), i < bufSize b ∧ n = bufBase b + i) ∨
    ((0x01F ≤ n ∧ n ≤ 0x0FF) ∨ (0x404 ≤ n ∧ n ≤ 0x4FF) ∨ (0x701 ≤ n ∧ n ≤ 0x7FF) ∨ 0xB01 ≤ n) := by
  by_cases hbuf : ∃ b : Buf, bufBase b ≤ n ∧ n < bufBase b + bufSize b
  · obtain ⟨b, hlo, hhi⟩ := hbuf
    exact .inr (.inl ⟨b, n - bufBase b, by omega, by omega⟩)
  · have hout : ∀ b, n < bufBase b ∨ bufBase b + bufSize b ≤ n := by
      intro b
      have := not_exists.1 hbuf b
      omega
    have hall : ∀ b ∈ allBufs, n < bufBase b ∨ bufBase b + bufSize b ≤ n := fun b _ => hout b
    simp only [allBufs, List.forall_mem_cons, bufBase, bufSize] at hall
    omega

theorem freeWhileBusy_iff (n : Nat) : freeWhileBusy (locate n) = true ↔ IsOutputAddr n := by
  unfold IsOutputAddr
  obtain hreg | ⟨b, i, hi, rfl⟩ | hres := address_cases n
  · have hregs : ∀ m < 31, freeWhileBusy (locate m) = decide (m = 0x002 ∨ (0x00E ≤ m ∧ m ≤ 0x01A)) := by decide
    rw [hregs n hreg, decide_eq_true_eq]
    omega
  · rw [locate_buf hi, freeWhileBusy]
    cases b <;> simp [bufBase, bufSize, bufFreeWhileBusy] at hi ⊢ <;> omega
  · rw [locate_reserved hres, freeWhileBusy]
    simp
    omega

/-- A read of a location whose byte is free returns the next draw. -/
theorem exec_rd_free {s : State} {a : HostAddr} (h : s.fcd.readIsFree (locate a.toNat) = true) :
    exec (.rd a) s =
      .next { s with hbRdata := Config.busyDraw s.draws, draws := s.draws + 1, program := s.program.tail } := by
  simp [exec, execRd, State.readAt, State.retire, h]

/-- Settles O11: the addresses of R76 are those at which the byte is free while BUSY = 1. -/
theorem busyReadsOfOutputsAreFree : Obligations.BusyReadsOfOutputsAreFree := by
  intro s a hbusy n free
  have hfree : s.fcd.readIsFree (locate n) = true ↔ free := by
    rw [readIsFree_busy hbusy]
    exact freeWhileBusy_iff n
  exact ⟨fun h => exec_rd_free (hfree.2 h), fun h => exec_rd (by simpa using hfree.not.2 h)⟩

/-! ### The split counters -/

/-- A counter is its lower byte plus 256 times its higher one (R78). -/
theorem toNat_count_eq (c : Count) : c.toNat = (countLo c).toNat + 256 * (countHi c).toNat := by
  have hc := c.isLt
  rw [countLo_eq, countHi_eq, BitVec.toNat_ofNat, BitVec.toNat_ofNat]
  omega

/-- Writing the lower byte and then the higher one leaves nothing of the counter. -/
theorem setCountHi_setCountLo (c : Count) (lo hi : Byte) :
    setCountHi (setCountLo c lo) hi = BitVec.ofNat 9 (lo.toNat + 256 * (hi.toNat % 2)) := by
  have hlo := lo.isLt
  have hc := c.isLt
  rw [setCountHi_eq, setCountLo_eq, BitVec.toNat_ofNat]
  congr 1
  omega

/-- The two writes of FRAME_LEN while BUSY = 0 (R74, R78). -/
theorem writeLoc_frameLen {f : Fcd} (h : f.busy = false) (v : Byte) :
    f.writeLoc (.reg .frameLenLo) v = { f with frameLen := setCountLo f.frameLen v } ∧
    f.writeLoc (.reg .frameLenHi) v = { f with frameLen := setCountHi f.frameLen v } := by
  simp [Fcd.writeLoc, Fcd.writeIdle, Fcd.writeReg, h]

/-- Settles O16: each half is a byte of its own, and the second write keeps what the first one stored. -/
theorem countersSplitLittleEndian : Obligations.CountersSplitLittleEndian := by
  refine ⟨fun f => ⟨toNat_count_eq f.frameLen, toNat_count_eq f.rxfCount, toNat_count_eq f.txCount⟩,
    fun s lo hi hidle => ⟨_, rfl, ?_⟩⟩
  have hlo := (writeLoc_frameLen hidle lo).1
  have hhi := (writeLoc_frameLen (f := { s.fcd with frameLen := setCountLo s.fcd.frameLen lo }) hidle hi).2
  change (s.fcd.writeLoc (.reg .frameLenLo) lo).writeLoc (.reg .frameLenHi) hi = _
  rw [hlo, hhi, setCountHi_setCountLo]

end Sys2Proof.Proofs

/-! PROOF. The statement of 20_memory.md about an operation in progress: a host write has no effect but at CTRL, STATUS
and INTEN, and no step but a reset changes an operand (R75). -/

namespace Sys2Proof.Proofs

open Sys2Proof.Machine Sys2Proof.Laws

/-! ### What a write does while BUSY = 1 -/

/-- A write to CTRL while BUSY = 1 sets COLLIDE if it asks for a start (R31, R180). -/
theorem writeCtrl_busy {f : Fcd} (h : f.busy = true) (v : Byte) :
    f.writeCtrl v = { f with collide := f.collide || v.getLsbD 7 } := by
  rw [Fcd.writeCtrl, ctrlStart]
  cases v.getLsbD 7 with
  | false => simp
  | true => simp [Fcd.startOp, h]

/-- A write to any location but CTRL, STATUS and INTEN is ignored while BUSY = 1 (R75). -/
theorem writeLoc_busy_ignored {f : Fcd} (h : f.busy = true) {l : Loc}
    (hl : l ∉ [.reg .ctrl, .reg .status, .reg .inten]) (v : Byte) : f.writeLoc l v = f := by
  unfold Fcd.writeLoc
  split
  · simp at hl
  · simp at hl
  · simp at hl
  · exact if_pos h

/-- The three registers stand at their addresses alone (R70). -/
theorem locate_notMem_of_ne {a : HostAddr} (hctrl : a ≠ 0x000) (hstatus : a ≠ 0x001) (hinten : a ≠ 0x00D) :
    locate a.toNat ∉ [.reg .ctrl, .reg .status, .reg .inten] := by
  have hne : ∀ n : HostAddr, a ≠ n → a.toNat ≠ n.toNat := fun n h he => h (BitVec.eq_of_toNat_eq he)
  have h0 : a.toNat ≠ 0x000 := hne 0x000 hctrl
  have h1 : a.toNat ≠ 0x001 := hne 0x001 hstatus
  have hD : a.toNat ≠ 0x00D := hne 0x00D hinten
  obtain hreg | ⟨b, i, hi, ha⟩ | hres := address_cases a.toNat
  · have hregs : ∀ m < 31, locate m ∈ [.reg .ctrl, .reg .status, .reg .inten] → m ∈ [0x000, 0x001, 0x00D] := by decide
    exact fun hloc => by simpa [h0, h1, hD] using hregs _ hreg hloc
  · simp [ha, locate_buf hi]
  · simp [locate_reserved hres]

/-! ### What the engine keeps -/

/-- The latched operation and the parameter registers (R34 to R39, R51). -/
def operands (f : Fcd) : BitVec 4 × List Byte :=
  (f.ctrlOp, [f.cmdCode, f.addr, f.boot, f.payloadLen, f.tidLen, f.dataLen, f.pwLen, f.bank, f.startWord, f.wordCount])

/-- What the engine's own steps keep from `f` to `g`: the operands, the byte counts, and every buffer but the four they
write (R181, R190). -/
structure EngineKeeps (f g : Fcd) : Prop where
  operands : operands g = operands f
  counts : g.txCount = f.txCount ∧ g.rxfCount = f.rxfCount
  bytes : ∀ (b : Buf) (j : Nat), b ∉ [.frame, .resp, .tagOff, .tagWords] → j < bufSize b → g.buf b j = f.buf b j

namespace EngineKeeps

theorem refl (f : Fcd) : EngineKeeps f f := ⟨rfl, ⟨rfl, rfl⟩, fun _ _ _ _ => rfl⟩

theorem trans {f g h : Fcd} (hfg : EngineKeeps f g) (hgh : EngineKeeps g h) : EngineKeeps f h where
  operands := hgh.operands.trans hfg.operands
  counts := ⟨hgh.counts.1.trans hfg.counts.1, hgh.counts.2.trans hfg.counts.2⟩
  bytes b j hb hj := (hgh.bytes b j hb hj).trans (hfg.bytes b j hb hj)

theorem endOp {f g : Fcd} (h : EngineKeeps f g) (x : ResultCode) : EngineKeeps f (g.endOp x) :=
  ⟨h.operands, h.counts, h.bytes⟩

theorem setBufs {b : Buf} (hb : b ∈ [.frame, .resp, .tagOff, .tagWords]) (f : Fcd) (i : Nat) (l : List Byte) :
    EngineKeeps f (f.setBufs b i l) where
  operands := by rw [setBufs_eq]; rfl
  counts := by simp
  bytes c j hc hj := buf_setBufs_outside f b i l hj (.inl fun he => hc (he ▸ hb))

theorem writeTags (f : Fcd) (recs : List (Nat × Nat)) : EngineKeeps f (f.writeTags 0 recs) where
  operands := by rw [writeTags_eq]; rfl
  counts := by rw [writeTags_eq]; exact ⟨rfl, rfl⟩
  bytes c j hc hj := writeTags_outside f 0 recs hj (.inl (by simp at hc; tauto))

theorem writeFields (f : Fcd) (d : Fields) : EngineKeeps f (f.writeFields d) :=
  have h : EngineKeeps f (f.setBufs .resp 0 d.payload) := setBufs (by decide) f 0 d.payload
  ⟨h.operands, h.counts, h.bytes⟩

end EngineKeeps

theorem checkWire_keeps (f : Fcd) (linkUp : Bool) (cmd : Byte) : EngineKeeps f (f.checkWire linkUp cmd) := by
  have hframe : ∀ frame, EngineKeeps f (f.setBufs .frame 0 frame) := .setBufs (by decide) f 0
  obtain ⟨x, -, h⟩ | ⟨frame, -, -, ⟨-, h⟩ | ⟨-, -, h⟩ | ⟨-, -, h⟩⟩ := checkWire_cases f linkUp cmd <;> rw [h]
  · exact (EngineKeeps.refl f).endOp x
  all_goals
    obtain ⟨hops, hcounts, hbytes⟩ := hframe frame
    exact ⟨hops, hcounts, hbytes⟩

theorem checkLocal_keeps (f : Fcd) : EngineKeeps f f.checkLocal := by
  unfold Fcd.checkLocal
  split
  · obtain ⟨x, -, h⟩ | ⟨r, c, h⟩ | ⟨d, -, h⟩ := checkDecode_cases f <;> rw [h]
    · exact (EngineKeeps.refl f).endOp x
    · exact ⟨rfl, ⟨rfl, rfl⟩, fun _ _ _ _ => rfl⟩
    · exact (EngineKeeps.writeFields f d).endOp .ok
  · exact (EngineKeeps.refl f).endOp .illegalOp

theorem finishInventory_keeps (f : Fcd) : EngineKeeps f f.finishInventory := by
  obtain ⟨-, h⟩ | ⟨recs, -, h⟩ := finishInventory_cases f <;> rw [h]
  · exact (EngineKeeps.refl f).endOp .malformedInventory
  · have htags := EngineKeeps.writeTags f recs
    exact ⟨htags.operands, htags.counts, htags.bytes⟩

theorem finishSuccess_keeps {f g : Fcd} (h : f.finishSuccess = some g) : EngineKeeps f g := by
  obtain ⟨-, he⟩ | ⟨-, he⟩ | ⟨-, he⟩ | ⟨-, he⟩ | ⟨-, he⟩ := finishSuccess_cases f <;> rw [he] at h <;> cases h
  · exact (EngineKeeps.refl f).endOp .ok
  · exact finishInventory_keeps f
  · exact ⟨rfl, ⟨rfl, rfl⟩, fun _ _ _ _ => rfl⟩
  · exact ⟨rfl, ⟨rfl, rfl⟩, fun _ _ _ _ => rfl⟩

theorem classifyFailure_keeps (f : Fcd) (d : Fields) : EngineKeeps f (f.classifyFailure d) := by
  obtain ⟨-, h⟩ | ⟨code, rest, -, ⟨-, -, h⟩ | ⟨-, h⟩⟩ := classifyFailure_cases f d <;> rw [h] <;>
    exact ⟨rfl, ⟨rfl, rfl⟩, fun _ _ _ _ => rfl⟩

theorem commitStep_keeps {f g : Fcd} (h : f.commitStep = some g) : EngineKeeps f g := by
  obtain ⟨x, -, he⟩ | ⟨r, c, he⟩ | ⟨d, -, ⟨-, he⟩ | ⟨-, he⟩⟩ := commitStep_cases f <;> rw [he] at h
  · cases h; exact (EngineKeeps.refl f).endOp x
  · cases h; exact ⟨rfl, ⟨rfl, rfl⟩, fun _ _ _ _ => rfl⟩
  · cases h; exact (EngineKeeps.writeFields f d).trans (classifyFailure_keeps _ d)
  · exact (EngineKeeps.writeFields f d).trans (finishSuccess_keeps h)

theorem engineTurn_keeps {s t : State} (h : engineTurn s = .next t) : EngineKeeps s.fcd t.fcd := by
  obtain ⟨c, -, -, he⟩ | ⟨-, -, he⟩ | ⟨-, ⟨g, hg, he⟩ | ⟨-, he⟩⟩ | ⟨-, he⟩ := engineTurn_cases s <;>
    rw [he] at h <;> cases h
  · exact checkWire_keeps s.fcd s.linkUp c
  · exact checkLocal_keeps s.fcd
  · exact commitStep_keeps hg
  · exact .refl s.fcd

/-! ### What every step keeps of an operation in progress -/

/-- From `f` to `g` the operands and every input buffer are kept (R75). -/
structure InputsKept (f g : Fcd) : Prop where
  operands : operands g = operands f
  bytes : ∀ (b : Buf) (j : Nat), b ∈ [.payload, .tid, .data, .pw] → j < bufSize b → g.buf b j = f.buf b j

namespace InputsKept

theorem refl (f : Fcd) : InputsKept f f := ⟨rfl, fun _ _ _ _ => rfl⟩

theorem of_engineKeeps {f g : Fcd} (h : EngineKeeps f g) : InputsKept f g where
  operands := h.operands
  bytes b j hb := h.bytes b j (by revert hb; cases b <;> decide)

theorem of_writeLoc_busy {f : Fcd} (h : f.busy = true) (l : Loc) (v : Byte) : InputsKept f (f.writeLoc l v) := by
  rw [(writeLoc_busy f l v h).1]
  exact ⟨rfl, fun _ _ _ _ => rfl⟩

theorem of_startOp_busy {f : Fcd} (h : f.busy = true) (op : BitVec 4) : InputsKept f (f.startOp op) := by
  rw [Fcd.startOp, if_pos h]
  exact ⟨rfl, fun _ _ _ _ => rfl⟩

theorem of_setBuf_rxf (f : Fcd) (i : Nat) (v : Byte) (n : Count) (p : Phase) :
    InputsKept f { f.setBuf .rxf i v with rxfCount := n, phase := p } where
  operands := by rw [setBuf_eq]; rfl
  bytes b j hb hj := buf_setBuf_other f v hj (by rintro ⟨rfl, -⟩; simp at hb)

theorem of_fcdMove {s : State} {g : Fcd} (hbusy : s.fcd.busy = true) (h : FcdMove s g) : InputsKept s.fcd g := by
  cases h with
  | same => exact .refl s.fcd
  | write l v => exact of_writeLoc_busy hbusy l v
  | start op => exact of_startOp_busy hbusy op
  | carry c => exact of_engineKeeps (checkWire_keeps s.fcd s.linkUp c)

theorem of_deliverByte {s t : State} (h : deliverByte s = .next t) : InputsKept s.fcd t.fcd := by
  obtain rfl | ⟨b, rest, p, -, rfl⟩ := cases_of_deliverByte h
  · exact .refl t.fcd
  · exact of_setBuf_rxf s.fcd _ b _ p

theorem of_transportStep {s t : State} {sig : Signals} (h : transportStep sig s = .next t) :
    InputsKept s.fcd t.fcd := by
  obtain he | ⟨-, -, he⟩ | ⟨-, -, he⟩ | ⟨-, -, he⟩ | ⟨-, -, he⟩ := transportStep_cases sig s <;> rw [he] at h
  · cases h; exact .refl s.fcd
  · cases h; exact ⟨rfl, fun _ _ _ _ => rfl⟩
  · obtain ⟨u, hu, rfl⟩ := keepShort_next h
    rw [eq_of_acceptByte hu]
    exact ⟨rfl, fun _ _ _ _ => rfl⟩
  · obtain ⟨u, hu, rfl⟩ := keepShort_next h
    exact of_deliverByte (t := u) hu
  · cases h; exact ⟨rfl, fun _ _ _ _ => rfl⟩

theorem of_step {s t : State} (hbusy : s.fcd.busy = true) (hturn : nextTurn s ≠ .reset) (h : step s = .next t) :
    InputsKept s.fcd t.fcd := by
  obtain ⟨-, hm⟩ | ⟨-, hm⟩ | ⟨sig, -, hm⟩ | ⟨_, -, rfl⟩ | ⟨-, rfl⟩ | ⟨_, -, rfl⟩ | ⟨hr, -⟩ := step_cases h
  · exact of_fcdMove (s := s.popTurn) hbusy (hostStep_next hm).1
  · exact of_engineKeeps (engineTurn_keeps (s := s.popTurn) hm)
  · exact of_transportStep (s := s.popTurn) hm
  · exact .refl s.fcd
  · exact .refl s.fcd
  · exact .refl s.fcd
  · exact absurd hr hturn

end InputsKept

/-- Settles O13: a write reaches three registers only, and every agent's move keeps the operands and the input
buffers. -/
theorem busyWritesAreIgnored : Obligations.BusyWritesAreIgnored := by
  refine ⟨fun s a d hbusy => ?writes, fun s t hbusy hturn h => ?inputs⟩
  case writes =>
    rw [exec_wr]
    by_cases hctrl : a = 0x000
    · subst hctrl
      change Host.Outcome.next { s with program := s.program.tail, fcd := s.fcd.writeCtrl d } = _
      rw [writeCtrl_busy hbusy, if_pos rfl]
    by_cases hstatus : a = 0x001
    · subst hstatus; rfl
    by_cases hinten : a = 0x00D
    · subst hinten; rfl
    rw [if_neg hctrl, if_neg hstatus, if_neg hinten,
      writeLoc_busy_ignored hbusy (locate_notMem_of_ne hctrl hstatus hinten)]
  case inputs =>
    obtain ⟨hops, hbytes⟩ := InputsKept.of_step hbusy hturn h
    simp only [operands, Prod.mk.injEq, List.cons.injEq, and_true] at hops
    obtain ⟨hop, hcmd, haddr, hboot, hplen, htid, hdata, hpw, hbank, hstart, hcount⟩ := hops
    exact ⟨hop, hcmd, haddr, hboot, hplen, htid, hdata, hpw, hbank, hstart, hcount,
      fun b j hb hj => hbytes b j (by simpa using hb) hj⟩

end Sys2Proof.Proofs

/-! PROOF. The statement of 20_memory.md about a whole exchange: the request goes out in order, the response comes in
in order, and the COMMIT step ends the operation (R88, R185, R186, R197, R315). -/

namespace Sys2Proof.Proofs

open Sys2Proof.Machine Sys2Proof.Laws

/-! ### Runs -/

theorem coreRun_succ {M : Host.Core} {s t : M.State} (h : M.step s = .next t) (n : Nat) :
    M.run (n + 1) s = M.run n t := by
  rw [Host.Core.run, h]

/-- A run that answers goes on from the state it has reached. -/
theorem coreRun_add {M : Host.Core} {n : Nat} {s t : M.State} (h : M.run n s = .next t) (m : Nat) :
    M.run (n + m) s = M.run m t := by
  induction n generalizing s with
  | zero =>
    cases h
    rw [Nat.zero_add]
  | succ n ih =>
    rw [Host.Core.run] at h
    cases hstep : M.step s with
    | next u =>
      rw [hstep] at h
      rw [Nat.add_right_comm, coreRun_succ hstep, ih h]
    | fault x => simp [hstep] at h
    | refused x => simp [hstep] at h

/-! ### Sending the request -/

/-- A clock in which the transport accepts a byte. -/
def acceptTurn : Turn := .transport ⟨false, true, false, false⟩

/-- A clock in which the transport delivers a byte. -/
def deliverTurn : Turn := .transport ⟨false, false, true, false⟩

theorem nextTurn_cons {s : State} {t : Turn} {rest : List Turn} (h : s.turns = t :: rest) : nextTurn s = t := by
  simp [nextTurn, h]

theorem step_acceptTurn {s : State} {rest : List Turn} (hturns : s.turns = acceptTurn :: rest)
    (hp : s.fcd.phase = .tx) (hlt : s.fcd.txCount.toNat < 257) :
    step s = .next { s with
      turns := rest
      sent := s.sent ++ [s.fcd.txData]
      fcd := { s.fcd with
        txCount := s.fcd.txCount + 1
        phase := if s.fcd.txCount + 1 = s.fcd.frameLen then .rx else .tx } } := by
  rw [step_transport (nextTurn_cons hturns), transportStep_tx (s := s.popTurn) hp, acceptByte_next (s := s.popTurn) hlt]
  simp [keepShort, State.popTurn, hturns, hp]

theorem sliceOf_succ (F : Nat → Byte) (i n : Nat) : sliceOf F i (n + 1) = F i :: sliceOf F (i + 1) n := by
  simp [sliceOf, List.range_succ_eq_map, Nat.add_comm, Nat.add_left_comm]

theorem slice_eq_sliceOf (f : Fcd) (b : Buf) (n : Nat) : f.slice b n = sliceOf (f.buf b) 0 n := by
  simp [Fcd.slice, sliceOf]

/-- The transport accepts the last `n + 1` bytes of the frame, in order, and phase RX begins (R184, R185). -/
theorem run_accepts {n : Nat} {s : State} {rest : List Turn} (hp : s.fcd.phase = .tx)
    (hlen : s.fcd.txCount.toNat + (n + 1) = s.fcd.frameLen.toNat) (hle : s.fcd.frameLen.toNat ≤ 257)
    (hturns : s.turns = List.replicate (n + 1) acceptTurn ++ rest) :
    Host.Core.run core (n + 1) s = .next { s with
      turns := rest
      sent := s.sent ++ sliceOf (s.fcd.buf .frame) s.fcd.txCount.toNat (n + 1)
      fcd := { s.fcd with txCount := s.fcd.frameLen, phase := .rx } } := by
  induction n generalizing s with
  | zero =>
    have hsucc : (s.fcd.txCount + 1).toNat = s.fcd.txCount.toNat + 1 := toNat_succ_count (by omega)
    have hlast : s.fcd.txCount + 1 = s.fcd.frameLen := BitVec.eq_of_toNat_eq (by omega)
    have hstep := step_acceptTurn hturns hp (by omega)
    rw [if_pos hlast, hlast] at hstep
    exact coreRun_succ (M := core) hstep 0
  | succ n ih =>
    have hsucc : (s.fcd.txCount + 1).toNat = s.fcd.txCount.toNat + 1 := toNat_succ_count (by omega)
    have hmore : s.fcd.txCount + 1 ≠ s.fcd.frameLen := fun he => by rw [he] at hsucc; omega
    have hstep := step_acceptTurn hturns hp (by omega)
    rw [if_neg hmore] at hstep
    refine ((coreRun_succ (M := core) hstep (n + 1)).trans (ih rfl (by simp only [hsucc]; omega) hle rfl)).trans ?_
    rw [sliceOf_succ _ _ (n + 1), hsucc, List.append_assoc]
    rfl

/-- From the start of phase TX of a safe state the transport accepts the whole frame (R185). -/
theorem run_request {s : State} {rest : List Turn} (hsafe : Safe s) (hp : s.fcd.phase = .tx)
    (hstart : s.fcd.txCount = 0) (hturns : s.turns = List.replicate s.fcd.frameLen.toNat acceptTurn ++ rest) :
    Host.Core.run core s.fcd.frameLen.toNat s = .next { s with
      turns := rest
      sent := s.sent ++ s.fcd.slice .frame s.fcd.frameLen.toNat
      fcd := { s.fcd with txCount := s.fcd.frameLen, phase := .rx } } := by
  obtain ⟨hmore, hle, -⟩ := hsafe.tx_bounds hp
  have hzero : s.fcd.txCount.toNat = 0 := by rw [hstart]; rfl
  obtain ⟨n, hn⟩ := Nat.exists_eq_add_one.2 (Nat.zero_lt_of_lt hmore)
  have hrun := run_accepts (n := n) hp (by omega) hle (hn ▸ hturns)
  rwa [hzero, ← hn, ← slice_eq_sliceOf] at hrun

/-! ### Receiving the response -/

/-- The FCD after it has taken bytes into RXF_BUF from index RXF_COUNT on. -/
def takeBytes (f : Fcd) (bytes : List Byte) : Fcd :=
  { f.setBufs .rxf f.rxfCount.toNat bytes with rxfCount := f.rxfCount + BitVec.ofNat 9 bytes.length }

/-- The buffer memory does not depend on RXF_COUNT. -/
theorem setBufs_of_rxfCount (f : Fcd) (n : Count) (b : Buf) (i : Nat) (l : List Byte) :
    ({ f with rxfCount := n } : Fcd).setBufs b i l = { f.setBufs b i l with rxfCount := n } := by
  induction l generalizing f i with
  | nil => rfl
  | cons v rest ih =>
    have hset : ({ f with rxfCount := n } : Fcd).setBuf b i v = { f.setBuf b i v with rxfCount := n } := by
      unfold Fcd.setBuf
      split <;> rfl
    rw [Fcd.setBufs, hset, ih, Fcd.setBufs]

theorem takeBytes_cons {f : Fcd} (h : f.rxfCount.toNat < 257) (b : Byte) (rest : List Byte) :
    takeBytes f (b :: rest) = takeBytes (takeBytes f [b]) rest := by
  have hsucc : (f.rxfCount + BitVec.ofNat 9 [b].length).toNat = f.rxfCount.toNat + 1 := toNat_succ_count h
  have hcount : f.rxfCount + BitVec.ofNat 9 (b :: rest).length =
      f.rxfCount + BitVec.ofNat 9 [b].length + BitVec.ofNat 9 rest.length := by
    rw [BitVec.add_assoc, ← BitVec.ofNat_add]
    simp [Nat.add_comm]
  unfold takeBytes
  simp only [hsucc, hcount, setBufs_of_rxfCount]
  rfl

theorem takeBytes_buf (f : Fcd) (bytes : List Byte) (b : Buf) (j : Nat) :
    (takeBytes f bytes).buf b j = (f.setBufs .rxf f.rxfCount.toNat bytes).buf b j := rfl

theorem takeBytes_rxfCount {f : Fcd} {bytes : List Byte} (h : f.rxfCount.toNat + bytes.length ≤ 257) :
    (takeBytes f bytes).rxfCount.toNat = f.rxfCount.toNat + bytes.length := by
  simp [takeBytes, BitVec.toNat_add]
  omega

theorem frameComplete_iff (f : Fcd) :
    f.frameComplete = true ↔ 2 ≤ f.rxfCount.toNat ∧ f.rxfCount.toNat = 2 + (f.buf .rxf 1).toNat := by
  simp [Fcd.frameComplete]

/-- The bytes complete the response in RXF_BUF: with the last of them its length is the one its length byte gives
(R186). -/
structure Completes (f : Fcd) (bytes : List Byte) : Prop where
  two_le : 2 ≤ f.rxfCount.toNat + bytes.length
  length : f.rxfCount.toNat + bytes.length = 2 + ((takeBytes f bytes).buf .rxf 1).toNat

namespace Completes

theorem le {f : Fcd} {bytes : List Byte} (h : Completes f bytes) : f.rxfCount.toNat + bytes.length ≤ 257 := by
  have hbyte := ((takeBytes f bytes).buf .rxf 1).isLt
  have hlen := h.length
  omega

theorem lt {f : Fcd} {b : Byte} {bytes : List Byte} (h : Completes f (b :: bytes)) : f.rxfCount.toNat < 257 := by
  have hle := h.le
  rw [List.length_cons] at hle
  omega

theorem count {f : Fcd} {b : Byte} {bytes : List Byte} (h : Completes f (b :: bytes)) :
    (takeBytes f [b]).rxfCount.toNat = f.rxfCount.toNat + 1 :=
  takeBytes_rxfCount (bytes := [b]) h.lt

theorem tail {f : Fcd} {b : Byte} {bytes : List Byte} (h : Completes f (b :: bytes)) :
    Completes (takeBytes f [b]) bytes := by
  have htake := takeBytes_cons h.lt b bytes
  have hcount := h.count
  obtain ⟨htwo, hlen⟩ := h
  rw [List.length_cons] at htwo hlen
  rw [htake] at hlen
  exact ⟨by omega, by omega⟩

/-- Only the last byte completes the frame: before it the length byte, once it is there, asks for more. -/
theorem frameComplete_iff_nil {f : Fcd} {b : Byte} {bytes : List Byte} (h : Completes f (b :: bytes)) :
    (takeBytes f [b]).frameComplete = true ↔ bytes = [] := by
  have hcount := h.count
  obtain ⟨htwo, hlen⟩ := h.tail
  rw [frameComplete_iff]
  constructor
  · rintro ⟨htwo', hdone⟩
    have hsame : (takeBytes (takeBytes f [b]) bytes).buf .rxf 1 = (takeBytes f [b]).buf .rxf 1 :=
      buf_setBufs_outside _ _ _ _ (by decide) (.inr (.inl htwo'))
    rw [hsame] at hlen
    exact List.length_eq_zero_iff.1 (by omega)
  · rintro rfl
    exact ⟨htwo, hlen⟩

end Completes

theorem step_deliverTurn {s : State} {b : Byte} {held : List Byte} {rest : List Turn}
    (hturns : s.turns = deliverTurn :: rest) (hp : s.fcd.phase = .rx) (hheld : s.held = b :: held)
    (hlt : s.fcd.rxfCount.toNat < 257) :
    step s = .next { s with
      turns := rest
      held := held
      fcd :=
        if (takeBytes s.fcd [b]).frameComplete then { takeBytes s.fcd [b] with phase := .commit }
        else takeBytes s.fcd [b] } := by
  have hdeliver : deliverByte s.popTurn = .next { s.popTurn with
      held := held
      fcd := { takeBytes s.fcd [b] with
        phase := if (takeBytes s.fcd [b]).frameComplete then .commit else (takeBytes s.fcd [b]).phase } } := by
    simp only [deliverByte, popTurn_held, popTurn_fcd, hheld]
    exact if_pos hlt
  rw [step_transport (nextTurn_cons hturns), transportStep_rx (s := s.popTurn) hp, hdeliver]
  cases (takeBytes s.fcd [b]).frameComplete <;> simp [keepShort, State.popTurn, hturns]

/-- The transport delivers a response's bytes, in order, and its last byte completes it (R186). -/
theorem run_delivers {b : Byte} {bytes extra : List Byte} {s : State} {rest : List Turn} (hp : s.fcd.phase = .rx)
    (hheld : s.held = b :: bytes ++ extra) (hresp : Completes s.fcd (b :: bytes))
    (hturns : s.turns = List.replicate (b :: bytes).length deliverTurn ++ rest) :
    Host.Core.run core (b :: bytes).length s = .next { s with
      turns := rest
      held := extra
      fcd := { takeBytes s.fcd (b :: bytes) with phase := .commit } } := by
  induction bytes generalizing b s with
  | nil =>
    have hstep := step_deliverTurn hturns hp hheld hresp.lt
    rw [if_pos (hresp.frameComplete_iff_nil.2 rfl)] at hstep
    exact coreRun_succ (M := core) hstep 0
  | cons b' bytes ih =>
    have hstep := step_deliverTurn hturns hp hheld hresp.lt
    rw [if_neg (by simp [hresp.frameComplete_iff_nil])] at hstep
    have hphase : (takeBytes s.fcd [b]).phase = .rx := by simpa [takeBytes] using hp
    rw [takeBytes_cons hresp.lt]
    exact (coreRun_succ (M := core) hstep _).trans (ih hphase rfl hresp.tail rfl)

/-! ### The COMMIT step -/

/-- An operation that has ended left a result (R260, R262). -/
structure Ended (f : Fcd) : Prop where
  phase : f.phase = .idle
  done : f.done = true
  busy : f.busy = false
  result : f.result ≠ .none

theorem endOp_ended (f : Fcd) {x : ResultCode} (hx : x ≠ .none) : Ended (f.endOp x) := ⟨rfl, rfl, rfl, hx⟩

theorem finishInventory_ended (f : Fcd) : Ended f.finishInventory := by
  obtain ⟨-, h⟩ | ⟨recs, -, h⟩ := finishInventory_cases f <;> rw [h] <;> exact endOp_ended _ (by decide)

theorem finishSuccess_ended {f g : Fcd} (h : f.finishSuccess = some g) : Ended g := by
  obtain ⟨-, he⟩ | ⟨-, he⟩ | ⟨-, he⟩ | ⟨-, he⟩ | ⟨-, he⟩ := finishSuccess_cases f <;> rw [he] at h <;> cases h
  · exact endOp_ended f (by decide)
  · exact finishInventory_ended f
  · exact endOp_ended _ (by decide)
  · exact endOp_ended _ (by decide)

theorem classifyFailure_ended (f : Fcd) (d : Fields) : Ended (f.classifyFailure d) := by
  obtain ⟨-, h⟩ | ⟨code, rest, -, ⟨-, -, h⟩ | ⟨-, h⟩⟩ := classifyFailure_cases f d <;> rw [h] <;>
    exact endOp_ended _ (by decide)

theorem commitStep_ended {f g : Fcd} (h : f.commitStep = some g) : Ended g := by
  obtain ⟨x, hx, he⟩ | ⟨r, c, he⟩ | ⟨d, -, ⟨-, he⟩ | ⟨-, he⟩⟩ := commitStep_cases f <;> rw [he] at h
  · cases h; exact endOp_ended f (by rcases hx with rfl | rfl <;> decide)
  · cases h; exact endOp_ended _ (by decide)
  · cases h; exact classifyFailure_ended _ d
  · exact finishSuccess_ended h

theorem run_commit {s : State} {g : Fcd} {rest : List Turn} (hturns : s.turns = .engine :: rest)
    (hp : s.fcd.phase = .commit) (hg : s.fcd.commitStep = some g) :
    Host.Core.run core 1 s = .next { s with turns := rest, fcd := g } := by
  have hstep : step s = .next { s with turns := rest, fcd := g } := by
    simp [step, nextTurn_cons hturns, engineTurn, fetchEngine, Fcd.wireCode, engineStep, State.popTurn, hp, hg, hturns]
  exact coreRun_succ (M := core) hstep 0

/-! ### The whole exchange -/

/-- Bytes taken from RXF_COUNT = 0 on stand at the start of RXF_BUF. -/
theorem takeBytes_holds {f : Fcd} (h : f.rxfCount = 0) {bytes : List Byte} (hlen : bytes.length ≤ 257) :
    holdsBytes (takeBytes f bytes) .rxf bytes := by
  intro j hj
  have hinside := buf_setBufs_inside f .rxf 0 bytes (by simpa [bufSize] using hlen) j hj
  rw [Nat.zero_add] at hinside
  rwa [takeBytes_buf, h]

/-- A response whose length byte gives its length completes RXF_BUF from its start. -/
theorem completes_response {f : Fcd} (h : f.rxfCount = 0) {resp : List Byte} (hmin : 2 ≤ resp.length)
    (hlen : resp.length = 2 + (resp.getD 1 0).toNat) : Completes f resp := by
  have hzero : f.rxfCount.toNat = 0 := by rw [h]; rfl
  have hbyte := (resp.getD 1 0).isLt
  have hholds := takeBytes_holds h (bytes := resp) (by omega) 1 (by omega)
  rw [List.getD_eq_getElem resp 0 (by omega), ← hholds] at hlen
  exact ⟨by omega, by omega⟩

/-- From the start of phase RX a complete response comes in, in order, and the COMMIT step ends the operation; it keeps
the byte counts and RXF_BUF (R186, R190). -/
theorem run_response {b : Byte} {bytes extra : List Byte} {s : State} {rest : List Turn} (hp : s.fcd.phase = .rx)
    (hop : isDispatchOp s.fcd.ctrlOp = true) (hzero : s.fcd.rxfCount = 0) (hheld : s.held = b :: bytes ++ extra)
    (hresp : Completes s.fcd (b :: bytes))
    (hturns : s.turns = List.replicate (b :: bytes).length deliverTurn ++ .engine :: rest) :
    ∃ g, Host.Core.run core ((b :: bytes).length + 1) s = .next { s with turns := rest, held := extra, fcd := g } ∧
      Ended g ∧ holdsBytes g .rxf (b :: bytes) ∧ g.txCount = s.fcd.txCount ∧
      g.rxfCount.toNat = (b :: bytes).length := by
  have hle : (b :: bytes).length ≤ 257 := le_trans (Nat.le_add_left _ _) hresp.le
  have hreceive := run_delivers hp hheld hresp hturns
  have hop' : isDispatchOp (takeBytes s.fcd (b :: bytes)).ctrlOp = true := by simpa [takeBytes] using hop
  obtain ⟨g, hg⟩ := commitStep_of_dispatch (f := { takeBytes s.fcd (b :: bytes) with phase := .commit }) hop'
  obtain ⟨-, ⟨htx, hrxf⟩, hbytes⟩ := commitStep_keeps hg
  have hrun := (coreRun_add (M := core) hreceive 1).trans (run_commit rfl rfl hg)
  refine ⟨g, hrun, commitStep_ended hg, fun j hj => ?_, ?_, ?_⟩
  · exact (hbytes .rxf j (by decide) (hj.trans_le hle)).trans (takeBytes_holds hzero hle j hj)
  · simp [htx, takeBytes]
  · rw [hrxf]
    exact (takeBytes_rxfCount hresp.le).trans (by simp [hzero])

/-- Settles O59: FRAME_LEN Accept steps, one Deliver step for each byte of the response, and the COMMIT step. -/
theorem wholeExchange : Obligations.WholeExchange := by
  intro s resp extra rest hsafe hp hstart hmin hlen hheld hturns
  obtain ⟨-, -, hrx⟩ := hsafe.tx_bounds hp
  obtain ⟨b, bytes, rfl⟩ := List.exists_cons_of_length_pos (Nat.zero_lt_of_lt hmin)
  have hop := hsafe.exchanging_op (by simp [hp, Phase.exchanging])
  rw [List.append_assoc] at hturns
  have hsend := run_request hsafe hp hstart hturns
  obtain ⟨g, hreceive, hended, hholds, htx, hrxf⟩ := run_response (s := { s with
    turns := List.replicate (b :: bytes).length deliverTurn ++ .engine :: rest
    sent := s.sent ++ s.fcd.slice .frame s.fcd.frameLen.toNat
    fcd := { s.fcd with txCount := s.fcd.frameLen, phase := .rx } })
    rfl hop hrx hheld (completes_response (by exact hrx) hmin hlen) rfl
  have hrun := (coreRun_add (M := core) hsend _).trans hreceive
  rw [← Nat.add_assoc] at hrun
  exact ⟨_, hrun, rfl, rfl, hholds, htx, hrxf, hended.phase, hended.done, hended.busy, hended.result, rfl⟩

end Sys2Proof.Proofs

/-! PROOF. The statements of 30_encoding.md about the encodings: the decoder and the encoder agree (R100, R104, R106,
R114), and the table's words run as the instructions they decode to (R100, R181). -/

namespace Sys2Proof.Proofs

open Sys2Proof.Machine Sys2Proof.Laws

/-! ### CTRL bytes and wire command codes -/

@[simp] theorem decode_ctrl8 (b : Byte) : decode ⟨.ctrl8, [b]⟩ = .ok (decodeCtrl b) := rfl

@[simp] theorem decode_wireFrame (c : Byte) : decode ⟨.wireFrame, [c]⟩ = .ok (decodeWire c) := rfl

theorem decodeCtrl_ctrlByte (op : BitVec 4) : decodeCtrl (ctrlByte op) = decodeOp op := by
  rw [decodeCtrl, ctrlStart_ctrlByte, ctrlOpField_ctrlByte, if_pos rfl]

theorem decodeOp_of_ge {op : BitVec 4} (h : 8 ≤ op.toNat) : decodeOp op = .illegalOpHigh op := by
  revert op; decide

theorem decodeWire_unnamed {c : Byte} (h : c ∉ namedWireCodes) : decodeWire c = .wireOther c := by
  simp only [namedWireCodes, List.mem_cons, List.not_mem_nil, or_false, not_or] at h
  obtain ⟨hEE, hEC, hEB⟩ := h
  simp only [decodeWire, hEE, hEC, hEB, if_false]

/-! ### Transaction words -/

theorem wordOfBytes_bytesOfWord (w : BitVec 24) :
    wordOfBytes (w.extractLsb' 0 8) (w.extractLsb' 8 8) (w.extractLsb' 16 8) = w := by
  have hw := w.isLt
  have hlow : (w.extractLsb' 8 8 ++ w.extractLsb' 0 8).toNat = _ := toNat_append_eq _ _
  have hall := toNat_append_eq (w.extractLsb' 16 8) (w.extractLsb' 8 8 ++ w.extractLsb' 0 8)
  apply BitVec.eq_of_toNat_eq
  rw [wordOfBytes, hall, hlow]
  simp only [BitVec.extractLsb'_toNat, Nat.shiftRight_eq_div_pow]
  omega

@[simp] theorem decode_htw21 (w : BitVec 24) : decode ⟨.htw21, bytesOfWord w⟩ = decodeHtw w := by
  change decodeHtw (wordOfBytes _ _ _) = _
  rw [wordOfBytes_bytesOfWord]

@[simp] theorem decode_pseudo (w : BitVec 24) : decode ⟨.pseudo, bytesOfWord w⟩ = decodePseudo w := by
  change decodePseudo (wordOfBytes _ _ _) = _
  rw [wordOfBytes_bytesOfWord]

/-- A word of 21 bits has the fields W, A and D as numbers (R104). -/
theorem decodeHtw_eq {w : BitVec 24} (h : w.toNat < 2 ^ 21) :
    decodeHtw w =
      if w.toNat / 2 ^ 20 = 1 then
        .ok (.wr (BitVec.ofNat 12 (w.toNat / 2 ^ 8 % 2 ^ 12)) (BitVec.ofNat 8 (w.toNat % 2 ^ 8)))
      else .ok (.rd (BitVec.ofNat 12 (w.toNat / 2 ^ 8 % 2 ^ 12))) := by
  have hfits : w.extractLsb' 21 3 = 0 := by
    refine eq_ofNat_of_toNat ?_
    simp only [BitVec.extractLsb'_toNat, Nat.shiftRight_eq_div_pow]
    omega
  have hW : w.getLsbD 20 = decide (w.toNat / 2 ^ 20 = 1) := by
    rw [BitVec.getLsbD, Nat.testBit_eq_decide_div_mod_eq, Nat.mod_eq_of_lt (by omega)]
  have hA : w.extractLsb' 8 12 = BitVec.ofNat 12 (w.toNat / 2 ^ 8 % 2 ^ 12) :=
    eq_ofNat_of_toNat (by simp only [BitVec.extractLsb'_toNat, Nat.shiftRight_eq_div_pow])
  have hD : w.extractLsb' 0 8 = BitVec.ofNat 8 (w.toNat % 2 ^ 8) :=
    eq_ofNat_of_toNat (by simp only [BitVec.extractLsb'_toNat, Nat.shiftRight_zero])
  simp only [decodeHtw, hfits, hW, hA, hD, ne_eq, not_true_eq_false, if_false, decide_eq_true_eq]

theorem toNat_htwWord (w : Bool) (a : HostAddr) (d : Byte) :
    (htwWord w a d).toNat = w.toNat * 2 ^ 20 + a.toNat * 2 ^ 8 + d.toNat := by
  have hhigh : (0#3 ++ BitVec.ofBool w).toNat = _ := toNat_append_eq _ _
  have hlow : (a ++ d).toNat = _ := toNat_append_eq _ _
  have hall := toNat_append_eq (0#3 ++ BitVec.ofBool w) (a ++ d)
  rw [htwWord, hall, hhigh, hlow, BitVec.toNat_ofBool, BitVec.toNat_ofNat]
  omega

/-- A transaction word decodes to the transaction of its fields (R104). -/
theorem decodeHtw_htwWord (w : Bool) (a : HostAddr) (d : Byte) :
    decodeHtw (htwWord w a d) = .ok (if w then .wr a d else .rd a) := by
  have ha := a.isLt
  have hd := d.isLt
  have hw := w.toNat_lt
  have hword := toNat_htwWord w a d
  have hA : (htwWord w a d).toNat / 2 ^ 8 % 2 ^ 12 = a.toNat := by omega
  have hD : (htwWord w a d).toNat % 2 ^ 8 = d.toNat := by omega
  have hW : (htwWord w a d).toNat / 2 ^ 20 = w.toNat := by omega
  rw [decodeHtw_eq (by omega), hA, hD, hW, BitVec.ofNat_toNat, BitVec.ofNat_toNat]
  cases w <;> simp

/-- Settles O4: the fields are the numbers of `decodeHtw_eq`, and the two examples evaluate. -/
theorem transactionWordFields : Obligations.TransactionWordFields :=
  ⟨fun w h => (decode_htw21 w).trans (decodeHtw_eq h), by decide, by decide⟩

/-! ### The encoder and the decoder -/

theorem decodePseudo_go (op : BitVec 4) :
    decodePseudo (htwWord true 0x000 (ctrlByte op)) = .ok (.go op) := by
  revert op; decide

/-- Settles O1: an instruction is encoded in the format of its row, and the decoder of that format reads each operand
back from its field. -/
theorem decodeEncodeRoundTrip : Obligations.DecodeEncodeRoundTrip := by
  have hctrl : ∀ op, decode ⟨.ctrl8, [ctrlByte op]⟩ = .ok (decodeOp op) := fun op =>
    (decode_ctrl8 _).trans (congrArg Except.ok (decodeCtrl_ctrlByte op))
  have hhtw : ∀ w a d, decode ⟨.htw21, bytesOfWord (htwWord w a d)⟩ = .ok (if w then .wr a d else .rd a) :=
    fun w a d => (decode_htw21 _).trans (decodeHtw_htwWord w a d)
  intro i hwf
  cases i with
  | send => exact hctrl 0x1
  | inventory => exact hctrl 0x2
  | read => exact hctrl 0x3
  | write => exact hctrl 0x4
  | encode => exact hctrl 0x5
  | decode => exact hctrl 0x6
  | illegalOp0 => exact hctrl 0x0
  | illegalOp7 => exact hctrl 0x7
  | illegalOpHigh op => exact (hctrl op).trans (congrArg Except.ok (decodeOp_of_ge (of_decide_eq_true hwf)))
  | ctrlNostart => rfl
  | rd a => exact hhtw false a 0x00
  | wr a d => exact hhtw true a d
  | go op => exact (decode_pseudo _).trans (decodePseudo_go op)
  | wait => rfl
  | clr => rfl
  | wireInventory => rfl
  | wireRead => rfl
  | wireWrite => rfl
  | wireOther cmd =>
    exact (decode_wireFrame cmd).trans (congrArg Except.ok (decodeWire_unnamed (of_decide_eq_true hwf)))

theorem wf_decodeOp (op : BitVec 4) : (decodeOp op).wf = true := by revert op; decide

theorem wf_decodeCtrl (v : Byte) : (decodeCtrl v).wf = true := by
  unfold decodeCtrl
  split
  · exact wf_decodeOp _
  · rfl

theorem wf_decodeWire (c : Byte) : (decodeWire c).wf = true := by
  by_cases h : c ∈ namedWireCodes
  · simp only [namedWireCodes, List.mem_cons, List.not_mem_nil, or_false] at h
    obtain rfl | rfl | rfl := h <;> rfl
  · rw [decodeWire_unnamed h]
    exact decide_eq_true h

theorem wf_of_decodeHtw {w : BitVec 24} {i : Instr} (h : decodeHtw w = .ok i) : i.wf = true := by
  unfold decodeHtw at h
  repeat' split at h
  all_goals cases h
  all_goals rfl

theorem wf_of_decodePseudo {w : BitVec 24} {i : Instr} (h : decodePseudo w = .ok i) : i.wf = true := by
  unfold decodePseudo at h
  repeat' split at h
  all_goals cases h
  all_goals rfl

/-- Settles O2: by the decoder of each format. -/
theorem decodedInstrIsWellFormed : Obligations.DecodedInstrIsWellFormed := by
  intro sl i h
  unfold decode at h
  split at h
  · cases h; exact wf_decodeCtrl _
  · cases h; exact wf_decodeWire _
  · exact wf_of_decodeHtw h
  · exact wf_of_decodePseudo h
  · cases h

/-- Settles O5: each word is read by the format that its bits name, and that format's decoder evaluates. -/
theorem sampleWordsDecode : Obligations.SampleWordsDecode :=
  ⟨rfl, rfl, rfl, rfl, rfl, rfl, rfl, rfl, rfl⟩

/-! ### The step that runs a word -/

theorem step_engine {s : State} (h : nextTurn s = .engine) : step s = engineTurn s.popTurn := by
  simp [step, h]

/-- Settles O7: in CHECK the engine fetches the code's instruction, which elsewhere carries nothing. -/
theorem stepRunsWireCode : Obligations.StepRunsWireCode := by
  refine ⟨fun s c i hturn hp hc hdec => ?runs, fun s c i hdec hno => ?elsewhere⟩ <;>
    (rw [decode_wireFrame] at hdec; cases hdec)
  case runs =>
    have hfetch : fetchEngine s.popTurn = some (decodeWire c) := by simp [fetchEngine, Fcd.wireCode, hp, hc]
    rw [step_engine hturn, engineTurn, hfetch]
    rfl
  case elsewhere =>
    have hcode : s.fcd.wireCode ≠ some c := fun h => hno (wireCode_some h)
    rw [exec_decodeWire, State.carry, if_neg hcode]

/-- A bare word of the table is read as a named wire command code or as a host word (assumptions/4). -/
theorem tableSlot_cases (nbits w : Nat) :
    (∃ c ∈ namedWireCodes, tableSlot nbits w = ⟨.wireFrame, [c]⟩) ∨ (tableSlot nbits w).fmt ≠ .wireFrame := by
  unfold tableSlot
  split
  · by_cases h : BitVec.ofNat 8 w ∈ namedWireCodes
    · exact .inl ⟨_, h, if_pos h⟩
    · exact .inr (by simp [h])
  · exact .inr (by dsimp only; split <;> simp)

theorem placeSlot_host {sl : Slot} (h : sl.fmt ≠ .wireFrame) (s : State) :
    s.placeSlot sl = { s with program := .word sl :: s.program, turns := .host :: s.turns } := by
  unfold State.placeSlot
  split
  · exact absurd ‹_› h
  · rfl

theorem placeSlot_wire {c : Byte} (h : c ∈ namedWireCodes) (s : State) :
    s.placeSlot ⟨.wireFrame, [c]⟩ =
      { s with fcd := s.fcd.accept (opOfWireCode c), turns := .engine :: s.turns } := by
  simp [State.placeSlot, h]

/-- The operation whose request carries a named code, once accepted, carries that code (R100). -/
theorem opWireCode_accept {c : Byte} (h : c ∈ namedWireCodes) (f : Fcd) :
    (f.accept (opOfWireCode c)).opWireCode = some c := by
  simp only [namedWireCodes, List.mem_cons, List.not_mem_nil, or_false] at h
  obtain rfl | rfl | rfl := h <;> rfl

theorem decode_of_decodeTableWord {nbits w : Nat} {i : Instr} (h : decodeTableWord nbits w = some i) :
    decode (tableSlot nbits w) = .ok i := by
  unfold decodeTableWord at h
  split at h
  · cases h; assumption
  · cases h

/-- Settles O8: a placed host word is the line the host fetches next, and a placed command code that of the operation
in CHECK. -/
theorem placedWordRuns : Obligations.PlacedWordRuns := by
  intro s nbits w i h
  have hdec := decode_of_decodeTableWord h
  rw [State.withFetchWord]
  obtain ⟨c, hc, hslot⟩ | hhost := tableSlot_cases nbits w
  · rw [hslot] at hdec
    rw [hslot, placeSlot_wire hc]
    exact stepRunsWireCode.1 _ c i rfl rfl (opWireCode_accept hc s.fcd) hdec
  · rw [placeSlot_host hhost]
    exact stepRunsHostInstr _ _ s.program i rfl rfl hhost hdec

end Sys2Proof.Proofs

/-! PROOF. The statements of 30_encoding.md about what lines and command codes do: FILL and SETLEN (R106), the request
payloads of READ and WRITE (R118, R119), and the CHECK step that starts a request (R110, R142, R181, R183). -/

namespace Sys2Proof.Proofs

open Sys2Proof.Machine Sys2Proof.Laws

/-! ### FILL and SETLEN -/

/-- A WR to byte `i` of a host-writable buffer while BUSY = 0 stores it (R74). -/
theorem exec_wr_buf {s : State} (hidle : s.fcd.busy = false) {b : Buf} (hw : bufHostWritable b = true) {i : Nat}
    (hi : i < bufSize b) (d : Byte) :
    exec (.wr (BitVec.ofNat 12 (bufBase b + i)) d) s =
      .next { s with program := s.program.tail, fcd := s.fcd.setBuf b i d } := by
  rw [exec_wr, locate_bufAddr hi]
  simp [Fcd.writeLoc, Fcd.writeIdle, hidle, hw]

theorem execAll_cons {i : Instr} {s t : State} (h : exec i s = .next t) (rest : List Instr) :
    execAll (i :: rest) s = execAll rest t := by
  rw [execAll, h]

/-- One WR for each byte, from index `i` of the buffer on. -/
def fillFrom (b : Buf) (i : Nat) (bytes : List Byte) : List Instr :=
  (bytes.zipIdx i).map fun p => .wr (BitVec.ofNat 12 (bufBase b + p.2)) p.1

/-- A run of WR to successive bytes of a buffer while BUSY = 0 stores them in order. -/
theorem execAll_fillFrom {b : Buf} (hw : bufHostWritable b = true) {bytes : List Byte} {i : Nat} {s : State}
    (hidle : s.fcd.busy = false) (hfits : i + bytes.length ≤ bufSize b) :
    execAll (fillFrom b i bytes) s =
      .next { s with program := s.program.drop bytes.length, fcd := s.fcd.setBufs b i bytes } := by
  induction bytes generalizing i s with
  | nil => rfl
  | cons v rest ih =>
    rw [List.length_cons] at hfits
    have hidle' : (s.fcd.setBuf b i v).busy = false := by rw [setBuf_busy, hidle]
    calc execAll (fillFrom b i (v :: rest)) s
        = execAll (fillFrom b (i + 1) rest) { s with program := s.program.tail, fcd := s.fcd.setBuf b i v } :=
          execAll_cons (exec_wr_buf hidle hw (by omega) v) _
      _ = _ := ih hidle' (by omega)
      _ = _ := by rw [List.drop_tail]; rfl

/-- FILL is the run from the buffer's byte 0 on (R106). -/
theorem execAll_fillLines {b : Buf} (hw : bufHostWritable b = true) {bytes : List Byte} {s : State}
    (hidle : s.fcd.busy = false) (hfits : bytes.length ≤ bufSize b) :
    execAll (fillLines b bytes) s =
      .next { s with program := s.program.drop bytes.length, fcd := s.fcd.setBufs b 0 bytes } := by
  have hlines : fillLines b bytes = fillFrom b 0 bytes := rfl
  rw [hlines]
  exact execAll_fillFrom hw hidle (by omega)

theorem fillLines_getElem? (b : Buf) (bytes : List Byte) {i : Nat} (h : i < bytes.length) :
    (fillLines b bytes)[i]? = some (.wr (BitVec.ofNat 12 (bufBase b + i)) bytes[i]) := by
  simp [fillLines, h]

/-- Bytes written to a buffer from its start on stand there, and every other buffer byte is kept. -/
theorem setBufs_zero_bytes (f : Fcd) {b : Buf} {bytes : List Byte} (h : bytes.length ≤ bufSize b) :
    holdsBytes (f.setBufs b 0 bytes) b bytes ∧ sameBytesBut f (f.setBufs b 0 bytes) b bytes.length := by
  refine ⟨fun j hj => ?_, fun c j hj hout => ?_⟩
  · simpa using buf_setBufs_inside f b 0 bytes (by omega) j hj
  · exact buf_setBufs_outside f b 0 bytes hj (hout.imp_right fun hle => .inr (by omega))

/-- Settles O17: FILL by the run of WR from byte 0 on, SETLEN by the two halves of FRAME_LEN. -/
theorem fillAndSetLenExpand : Obligations.FillAndSetLenExpand := by
  refine ⟨fun b base size hrow s bytes hidle hfits => ?fill, fun s n hidle hn => ?setLen⟩
  case fill =>
    change (b, base, size) ∈ [Buf.payload, .tid, .data, .pw, .frame].map fun c => (c, bufBase c, bufSize c) at hrow
    obtain ⟨c, hc, ⟨⟩⟩ := List.mem_map.1 hrow
    have hwritable : ∀ c ∈ [Buf.payload, .tid, .data, .pw, .frame], bufHostWritable c = true := by decide
    obtain ⟨hholds, hsame⟩ := setBufs_zero_bytes s.fcd hfits
    exact ⟨fun i hi => fillLines_getElem? b bytes hi, by simp [fillLines], _,
      execAll_fillLines (hwritable b hc) hidle hfits, hholds, hsame, setBufs_eq s.fcd b 0 bytes⟩
  case setLen =>
    obtain ⟨t, hrun, hlen⟩ := countersSplitLittleEndian.2 s (BitVec.ofNat 8 (n % 256)) (BitVec.ofNat 8 (n / 256)) hidle
    have hnum : (BitVec.ofNat 8 (n % 256)).toNat + 256 * ((BitVec.ofNat 8 (n / 256)).toNat % 2) = n := by
      rw [BitVec.toNat_ofNat, BitVec.toNat_ofNat]
      omega
    rw [hnum] at hlen
    exact ⟨t, hrun, hlen⟩

/-! ### The request payloads of READ and WRITE -/

/-- The request payload of READ and WRITE: the identifier with its word count, the block's place and word count, and
what follows them (R118, R119). -/
def wordBlock (f : Fcd) (count : Byte) (rest : List Byte) : List Byte :=
  BitVec.ofNat 8 (f.tidLen.toNat / 2) :: f.slice .tid f.tidLen.toNat ++ [f.bank, f.startWord, count] ++ rest

/-- READ builds its payload exactly when its checks pass (R236). -/
theorem buildReadPayload_ok_iff {f : Fcd} {P : List Byte} :
    f.buildReadPayload = .ok P ↔
      f.pwLen = 4 ∧ f.tidLen.toNat % 2 = 0 ∧ P = wordBlock f f.wordCount (f.slice .pw 4) := by
  by_cases hpw : f.pwLen = 4#8
  · by_cases htid : f.tidLen.toNat % 2 = 1
    · simp [Fcd.buildReadPayload, hpw, htid]
    · have heven : f.tidLen.toNat % 2 = 0 := by omega
      simp [Fcd.buildReadPayload, hpw, heven, wordBlock, eq_comm]
  · simp [Fcd.buildReadPayload, hpw]

/-- WRITE builds its payload exactly when its checks pass (R236). -/
theorem buildWritePayload_ok_iff {f : Fcd} {P : List Byte} :
    f.buildWritePayload = .ok P ↔
      f.pwLen = 4 ∧ f.tidLen.toNat % 2 = 0 ∧ f.dataLen.toNat % 2 = 0 ∧
        P = wordBlock f (BitVec.ofNat 8 (f.dataLen.toNat / 2)) (f.slice .data f.dataLen.toNat ++ f.slice .pw 4) := by
  by_cases hpw : f.pwLen = 4#8
  · by_cases htid : f.tidLen.toNat % 2 = 1
    · simp [Fcd.buildWritePayload, hpw, htid]
    · have heven : f.tidLen.toNat % 2 = 0 := by omega
      by_cases hdata : f.dataLen.toNat % 2 = 1
      · simp [Fcd.buildWritePayload, hpw, heven, hdata]
      · have heven' : f.dataLen.toNat % 2 = 0 := by omega
        simp [Fcd.buildWritePayload, hpw, heven, heven', wordBlock, eq_comm]
  · simp [Fcd.buildWritePayload, hpw]

theorem slice_getElem? (f : Fcd) (b : Buf) {n i : Nat} (h : i < n) : (f.slice b n)[i]? = some (f.buf b i) := by
  simp [Fcd.slice, h]

@[simp] theorem length_wordBlock (f : Fcd) (count : Byte) (rest : List Byte) :
    (wordBlock f count rest).length = 4 + f.tidLen.toNat + rest.length := by
  simp [wordBlock]
  omega

/-- The identifier's bytes stand from offset 1 on. -/
theorem wordBlock_tid (f : Fcd) (count : Byte) (rest : List Byte) {i : Nat} (h : i < f.tidLen.toNat) :
    (wordBlock f count rest)[1 + i]? = some (f.buf .tid i) := by
  rw [wordBlock, List.append_assoc, List.cons_append, Nat.add_comm, List.getElem?_cons_succ,
    List.getElem?_append_left (by simpa using h), slice_getElem? f .tid h]

/-- The bytes after the identifier, from offset `1 + T` on. -/
theorem wordBlock_after_tid (f : Fcd) (count : Byte) (rest : List Byte) (k : Nat) :
    (wordBlock f count rest)[1 + f.tidLen.toNat + k]? = (f.bank :: f.startWord :: count :: rest)[k]? := by
  rw [wordBlock, List.append_assoc, List.getElem?_append_right (by simp; omega)]
  congr 1
  simp
  omega

/-- What follows the word count stands from offset `4 + T` on. -/
theorem wordBlock_rest (f : Fcd) (count : Byte) (rest : List Byte) (k : Nat) :
    (wordBlock f count rest)[4 + f.tidLen.toNat + k]? = rest[k]? := by
  have h := wordBlock_after_tid f count rest (k + 3)
  rwa [show 1 + f.tidLen.toNat + (k + 3) = 4 + f.tidLen.toNat + k by omega] at h

/-- Settles O24: both payloads are a word block, followed by the password or by the data and the password. -/
theorem wordBlockPayloadLayout : Obligations.WordBlockPayloadLayout := by
  intro f P T D startsAlike
  have hat : ∀ count rest k, (wordBlock f count rest)[k + 1 + T]? = (f.bank :: f.startWord :: count :: rest)[k]? := by
    intro count rest k
    rw [← wordBlock_after_tid f count rest k]
    congr 1
    omega
  have hstarts : ∀ count rest, P = wordBlock f count rest → startsAlike := by
    rintro count rest rfl
    exact ⟨rfl, fun i hi => wordBlock_tid f count rest hi, hat count rest 0, hat count rest 1⟩
  refine ⟨fun h => ?read, fun h => ?write⟩
  case read =>
    obtain ⟨-, -, hP⟩ := buildReadPayload_ok_iff.1 h
    refine ⟨by simp [hP]; omega, hstarts _ _ hP, by rw [hP]; exact hat _ _ 2, fun i hi => ?_⟩
    rw [hP, wordBlock_rest, slice_getElem? f .pw hi]
  case write =>
    obtain ⟨-, -, -, hP⟩ := buildWritePayload_ok_iff.1 h
    refine ⟨by simp [hP]; omega, hstarts _ _ hP, by rw [hP]; exact hat _ _ 2, fun i hi => ?_, fun i hi => ?_⟩
    · rw [hP, wordBlock_rest, List.getElem?_append_left (by simpa using hi), slice_getElem? f .data hi]
    · rw [hP, Nat.add_assoc, wordBlock_rest, List.getElem?_append_right (by simp [D])]
      simpa [D] using slice_getElem? f .pw hi

/-! ### The CHECK step that starts a request -/

/-- The FCD with a request frame in FRAME_BUF and its length in FRAME_LEN (R181). -/
def putFrame (f : Fcd) (frame : List Byte) : Fcd :=
  { f.setBufs .frame 0 frame with frameLen := BitVec.ofNat 9 frame.length }

theorem putFrame_eq (f : Fcd) (frame : List Byte) :
    putFrame f frame = { f with frameLen := BitVec.ofNat 9 frame.length, mem := (putFrame f frame).mem } := by
  rw [putFrame, setBufs_eq]

/-- The limit of the shape the registers ask for (R35, R143). -/
theorem payloadLimit_wantsAddressed (f : Fcd) :
    payloadLimit f.params f.wantsAddressed =
      if f.addr = 0 then f.params.maxPayloadUnaddr.val else f.params.maxPayloadAddr.val := by
  by_cases h : f.addr = 0 <;> simp [payloadLimit, Fcd.wantsAddressed, h]

/-- A payload within the limit is put in a frame, which an open transport starts to send (R142, R181, R183). -/
theorem dispatchStart_of_fits {f : Fcd} {P : List Byte} (h : P.length ≤ payloadLimit f.params f.wantsAddressed)
    (linkUp : Bool) (cmd : Byte) :
    ∃ frame, encodeFrame f.params reqBoot cmd f.wantsAddressed f.addr P = some frame ∧
      f.dispatchStart linkUp cmd P =
        if linkUp then { putFrame f frame with phase := .tx } else (putFrame f frame).endOp .transportError := by
  obtain ⟨hgt, -⟩ | ⟨-, henc⟩ := encodeFrame_cases f.params reqBoot cmd f.addr f.wantsAddressed P
  · omega
  · refine ⟨_, henc, ?_⟩
    simp only [Fcd.dispatchStart, henc, putFrame]

/-- A frame the encoder has built fits FRAME_BUF. -/
theorem putFrame_bytes {f : Fcd} {boot cmd addr : Byte} {a : Bool} {P frame : List Byte}
    (h : encodeFrame f.params boot cmd a addr P = some frame) :
    holdsBytes (putFrame f frame) .frame frame ∧ sameBytesBut f (putFrame f frame) .frame frame.length :=
  setBufs_zero_bytes f (b := .frame) (encodeFrame_length h).2

theorem carry_of_dispatch {s : State} {c : Byte} {P : List Byte} (hp : s.fcd.phase = .check)
    (hcode : s.fcd.opWireCode = some c) (hop : s.fcd.ctrlOp ≠ opEncode) (hpay : s.fcd.opPayload = .ok P) :
    s.carry c = { s with fcd := s.fcd.dispatchStart s.linkUp c P } := by
  have hwire : s.fcd.wireCode = some c := by rw [Fcd.wireCode, if_pos hp, hcode]
  simp only [State.carry, hwire, if_pos, Fcd.checkWire, hop, if_false, hpay]

/-- Settles O26: each command code carries its operation's payload into the CHECK step of a dispatch operation, which
within the limit and on an open transport puts the frame and goes to TX. -/
theorem wireCodeStartsItsRequest : Obligations.WireCodeStartsItsRequest := by
  intro s hp hlink f limit bytes T D prefixOf starts raw
  have hstart : ∀ (i : Instr) (c : Byte) (P : List Byte), exec i s = .next (s.carry c) → f.opWireCode = some c →
      f.ctrlOp ≠ opEncode → f.opPayload = .ok P → starts i c P := by
    intro i c P hexec hcode hop hpay hfits
    obtain ⟨frame, henc, hdisp⟩ := dispatchStart_of_fits (f := f)
      (by rw [payloadLimit_wantsAddressed]; exact hfits) s.linkUp c
    obtain ⟨hholds, hsame⟩ := putFrame_bytes henc
    rw [carry_of_dispatch hp hcode hop hpay, hdisp, if_pos hlink] at hexec
    exact ⟨_, frame, henc, hexec, hholds, hsame, by rw [putFrame_eq]⟩
  have hsend : ∀ (i : Instr) (c : Byte), exec i s = .next (s.carry c) → f.ctrlOp = 1 → f.cmdCode = c →
      starts i c raw := by
    intro i c hexec hop hcmd
    exact hstart i c raw hexec (by rw [Fcd.opWireCode, hop, hcmd]; rfl) (by rw [hop]; decide)
      (by rw [Fcd.opPayload, hop]; rfl)
  refine ⟨fun hop => ?inventory, fun hop hpw hT => ?read, fun hop hpw hT hD => ?write,
    fun hop c => hsend (.wireOther c) c rfl hop, hsend .wireInventory 0xEE rfl, hsend .wireRead 0xEC rfl,
    hsend .wireWrite 0xEB rfl⟩
  case inventory =>
    exact hstart .wireInventory 0xEE _ rfl (by rw [Fcd.opWireCode, hop]; rfl) (by rw [hop]; decide)
      (by rw [Fcd.opPayload, hop]; rfl)
  case read =>
    have hpay : f.opPayload = f.buildReadPayload := by rw [Fcd.opPayload, hop]; rfl
    exact hstart .wireRead 0xEC _ rfl (by rw [Fcd.opWireCode, hop]; rfl) (by rw [hop]; decide)
      (hpay.trans (buildReadPayload_ok_iff.2 ⟨hpw, hT, rfl⟩))
  case write =>
    have hpay : f.opPayload = f.buildWritePayload := by rw [Fcd.opPayload, hop]; rfl
    exact hstart .wireWrite 0xEB _ rfl (by rw [Fcd.opWireCode, hop]; rfl) (by rw [hop]; decide)
      (hpay.trans (buildWritePayload_ok_iff.2 ⟨hpw, hT, hD, List.append_assoc _ _ _⟩))

end Sys2Proof.Proofs

/-! PROOF. The statements of 40_frame_codec.md about the codec itself: the checksum (R140, R141), the encoder (R110,
R142 to R144), the decoder (R145 to R151), and the two together (R152, R153). -/

namespace Sys2Proof.Proofs

open Sys2Proof.Machine Sys2Proof.Laws

/-! ### The checksum -/

theorem eq_csum8_iff (s : List Byte) (c : Byte) : c = csum8 s ↔ sum8 s + c = 0 := by
  rw [csum8_eq, add_comm, eq_neg_iff_add_eq_zero]

theorem sum8_eq_zero_iff (s : List Byte) : sum8 s = 0 ↔ (s.map BitVec.toNat).sum % 256 = 0 := by
  rw [sum8, ← BitVec.toNat_inj, BitVec.toNat_ofNat]
  rfl

theorem foldl_add_toNat (s : List Byte) (n : Nat) :
    s.foldl (fun n b => n + b.toNat) n = n + (s.map BitVec.toNat).sum := by
  induction s generalizing n with
  | nil => rfl
  | cons b s ih => rw [List.foldl_cons, ih, List.map_cons, List.sum_cons, Nat.add_assoc]

/-- Settles O31: the fold is the sum of the sequence with the byte, which is 0 modulo 256 for the negated sum alone. -/
theorem checksumMakesSumZero : Obligations.ChecksumMakesSumZero := by
  intro s c
  have hfold : s.foldl (fun n b => n + b.toNat) c.toNat = ((c :: s).map BitVec.toNat).sum := foldl_add_toNat s c.toNat
  rw [hfold, ← sum8_eq_zero_iff, sum8_cons, add_comm, eq_csum8_iff]

/-! ### The encoder -/

theorem encodeFrame_eq_none_iff {p : Params} {boot cmd addr : Byte} {a : Bool} {P : List Byte} :
    encodeFrame p boot cmd a addr P = none ↔ payloadLimit p a < P.length := by
  obtain ⟨hgt, he⟩ | ⟨hle, he⟩ := encodeFrame_cases p boot cmd addr a P
  · exact iff_of_true he hgt
  · exact iff_of_false (by simp [he]) (by omega)

theorem encodeFrame_eq_some {p : Params} {boot cmd addr : Byte} {a : Bool} {P F : List Byte}
    (h : encodeFrame p boot cmd a addr P = some F) :
    P.length ≤ payloadLimit p a ∧ F = frameBody boot cmd a addr P ++ [csum8 (frameBody boot cmd a addr P)] := by
  obtain ⟨-, he⟩ | ⟨hle, he⟩ := encodeFrame_cases p boot cmd addr a P <;> rw [h] at he
  · cases he
  · exact ⟨hle, Option.some.inj he⟩

/-- The bytes of an encoded frame in order, its length field counting what follows it (R110, R111). -/
theorem encodeFrame_bytes {p : Params} {boot cmd addr : Byte} {a : Bool} {P F : List Byte}
    (h : encodeFrame p boot cmd a addr P = some F) :
    F = boot :: BitVec.ofNat 8 (F.length - 2) :: cmd ::
      ((if a then [addr] else []) ++ P ++ [csum8 (frameBody boot cmd a addr P)]) := by
  have hlen : F.length - 2 = headerBytes a + 1 + P.length := by
    have := (encodeFrame_length h).1
    omega
  rw [hlen]
  exact (encodeFrame_eq_some h).2

/-- The length field of an encoded frame (R144). -/
theorem encodeFrame_lfield {p : Params} {boot cmd addr : Byte} {a : Bool} {P F : List Byte}
    (h : encodeFrame p boot cmd a addr P = some F) : (F.getD 1 0).toNat = F.length - 2 := by
  have hle := (encodeFrame_length h).2
  have hbyte : F.getD 1 0 = BitVec.ofNat 8 (F.length - 2) := congrArg (fun l => l.getD 1 0) (encodeFrame_bytes h)
  rw [hbyte, BitVec.toNat_ofNat, Nat.mod_eq_of_lt (by omega)]

/-- The payload of an encoded frame stands after its header (R110). -/
theorem encodeFrame_payload {p : Params} {boot cmd addr : Byte} {a : Bool} {P F : List Byte}
    (h : encodeFrame p boot cmd a addr P = some F) {i : Nat} (hi : i < P.length) :
    F[2 + headerBytes a + i]? = P[i]? := by
  rw [encodeFrame_bytes h]
  cases a
  · rw [show 2 + headerBytes false + i = i + 3 by simp [headerBytes]; omega]
    simp [List.getElem?_append_left, hi]
  · rw [show 2 + headerBytes true + i = i + 4 by simp [headerBytes]; omega]
    simp [List.getElem?_append_left, hi]

/-- An encoded frame sums to 0 (R144). -/
theorem sum8_encodeFrame {p : Params} {boot cmd addr : Byte} {a : Bool} {P F : List Byte}
    (h : encodeFrame p boot cmd a addr P = some F) : sum8 F = 0 := by
  rw [(encodeFrame_eq_some h).2, sum8_append, sum8_cons, sum8_nil, add_zero]
  exact (eq_csum8_iff _ _).1 rfl

/-- Settles O32: the frame is its body and the checksum of the body. -/
theorem encodedFrameShape : Obligations.EncodedFrameShape := by
  intro p boot cmd addr a P F h hdr
  obtain ⟨-, hF⟩ := encodeFrame_eq_some h
  have hbytes := encodeFrame_bytes h
  have hlen : F.length = P.length + hdr + 3 := (encodeFrame_length h).1
  have hlfield := encodeFrame_lfield h
  refine ⟨hlen, hlfield, ?count, ?boot, ?cmd, ?addr, fun i hi => encodeFrame_payload h hi, sum8_encodeFrame h, ?csum⟩
  case count =>
    rw [hlfield, hlen]
    cases a <;> simp [hdr] <;> omega
  case boot => rw [hbytes]; rfl
  case cmd => rw [hbytes]; rfl
  case addr =>
    rintro rfl
    rw [hbytes]
    rfl
  case csum => rw [hF]; simp

/-- Settles O33: the encoder's one check is the limit of the shape, and the default limits are 252 and 251. -/
theorem payloadLimitDecides : Obligations.PayloadLimitDecides := by
  refine ⟨fun p boot cmd addr a P => encodeFrame_eq_none_iff, rfl, rfl, fun boot cmd addr a P F h => ?_⟩
  have hlimit : headerBytes a + payloadLimit defaultParams a = 253 := by cases a <;> rfl
  have hle := (encodeFrame_eq_some h).1
  have hlen := (encodeFrame_length h).1
  omega

/-! ### The decoder -/

theorem decodeFrame_truncated_iff {F : Nat → Byte} {n : Nat} {a : Bool} :
    decodeFrame F n a = .truncated ↔ n < 2 + (F 1).toNat := by
  obtain ⟨hn, he⟩ | ⟨hn, -, he⟩ | ⟨hn, -, -, he⟩ | ⟨hn, -, -, he⟩ := decodeFrame_cases F n a
  · exact iff_of_true he (by omega)
  all_goals exact iff_of_false (by simp [he]) (by omega)

theorem decodeFrame_malformed_iff {F : Nat → Byte} {n : Nat} {a : Bool} :
    decodeFrame F n a = .malformed ↔ 2 + (F 1).toNat ≤ n ∧ (F 1).toNat < headerBytes a + 1 := by
  obtain ⟨hn, he⟩ | ⟨hn, hL, he⟩ | ⟨-, hL, -, he⟩ | ⟨-, hL, -, he⟩ := decodeFrame_cases F n a
  · exact iff_of_false (by simp [he]) (by omega)
  · exact iff_of_true he ⟨hn, hL⟩
  all_goals exact iff_of_false (by simp [he]) (by omega)

/-- A complete frame whose length field covers its header and checksum decodes by its two checksums (R148, R149). -/
theorem decodeFrame_of_complete {F : Nat → Byte} {n : Nat} {a : Bool} (hn : 2 + (F 1).toNat ≤ n)
    (hL : headerBytes a + 1 ≤ (F 1).toNat) :
    decodeFrame F n a =
      if (splitFrame F a).calcSum = (splitFrame F a).recvSum then .ok (splitFrame F a)
      else .mismatch (splitFrame F a).recvSum (splitFrame F a).calcSum := by
  obtain ⟨hn', -⟩ | ⟨-, hL', -⟩ | ⟨-, -, hne, he⟩ | ⟨-, -, heq, he⟩ := decodeFrame_cases F n a
  · omega
  · omega
  · rw [he, if_neg hne]
  · rw [he, if_pos heq]

/-- The sequence that the decoder's checksum is of (R148). -/
theorem splitFrame_calcSum (F : Nat → Byte) (a : Bool) :
    (splitFrame F a).calcSum = csum8 ((List.range ((F 1).toNat + 1)).map F) := by
  simp [splitFrame, sliceOf]

theorem decodeFrame_mismatch_iff {F : Nat → Byte} {n : Nat} {a : Bool} {r c : Byte} :
    decodeFrame F n a = .mismatch r c ↔
      2 + (F 1).toNat ≤ n ∧ headerBytes a + 1 ≤ (F 1).toNat ∧
        r = F ((F 1).toNat + 1) ∧ c = csum8 ((List.range ((F 1).toNat + 1)).map F) ∧ c ≠ r := by
  by_cases hcomplete : 2 + (F 1).toNat ≤ n ∧ headerBytes a + 1 ≤ (F 1).toNat
  · obtain ⟨hn, hL⟩ := hcomplete
    have hrecv : (splitFrame F a).recvSum = F ((F 1).toNat + 1) := rfl
    rw [decodeFrame_of_complete hn hL, splitFrame_calcSum, hrecv]
    split
    next heq => exact iff_of_false (by simp) fun ⟨_, _, hr, hc, hne⟩ => hne (by rw [hr, hc]; exact heq)
    next hne =>
      rw [Decoded.mismatch.injEq]
      constructor
      · rintro ⟨rfl, rfl⟩
        exact ⟨hn, hL, rfl, rfl, hne⟩
      · rintro ⟨-, -, rfl, rfl, -⟩
        exact ⟨rfl, rfl⟩
  · refine iff_of_false (fun h => hcomplete ?_) (fun ⟨hn, hL, _⟩ => hcomplete ⟨hn, hL⟩)
    obtain ⟨-, he⟩ | ⟨-, -, he⟩ | ⟨hn, hL, -⟩ | ⟨hn, hL, -⟩ := decodeFrame_cases F n a
    · rw [h] at he; cases he
    · rw [h] at he; cases he
    · exact ⟨hn, hL⟩
    · exact ⟨hn, hL⟩

/-- Settles O34: each failure has its own condition, since the checks of R145 run in order. -/
theorem decodeFailureConditions : Obligations.DecodeFailureConditions := by
  intro F n a L h calc8
  have hh : headerBytes a = h := rfl
  refine ⟨?truncated, ?malformed, fun r c => ?mismatch⟩
  case truncated => rw [decodeFrame_truncated_iff]; omega
  case malformed => rw [decodeFrame_malformed_iff]; omega
  case mismatch =>
    rw [decodeFrame_mismatch_iff, ← and_assoc, ← and_assoc (a := ¬_)]
    exact and_congr_left' (by omega)

/-- Settles O35: a complete frame with a right checksum decodes to its split, which the one-byte length field bounds. -/
theorem decodedFieldsSplit : Obligations.DecodedFieldsSplit := by
  intro F n a L h hn hL hsum
  have hsums : (splitFrame F a).calcSum = (splitFrame F a).recvSum := (splitFrame_calcSum F a).trans hsum.symm
  have hbyte : L < 256 := (F 1).isLt
  refine ⟨splitFrame F a, by rw [decodeFrame_of_complete hn hL, if_pos hsums], rfl, rfl, rfl, rfl, rfl, ?bound,
    length_sliceOf _ _ _, fun i hi => getElem?_sliceOf _ _ _ i hi, rfl, hsums⟩
  change L - h - 1 ≤ _
  cases a <;> simp [h] <;> omega

/-! ### Decoding a byte sequence -/

/-- The bytes of a sequence by index, as the decoder reads them. -/
def byteAt (G : List Byte) (i : Nat) : Byte := G.getD i 0

theorem map_byteAt_range {G : List Byte} {n : Nat} (h : n ≤ G.length) : (List.range n).map (byteAt G) = G.take n := by
  apply List.ext_getElem
  · simp [h]
  · intro i hi hi'
    simp only [List.length_map, List.length_range] at hi
    simp [byteAt, show i < G.length by omega]

/-- A complete sequence has the right checksum exactly when it sums to 0 up to its checksum (R141, R148). -/
theorem splitFrame_sums_iff {G : List Byte} (h : 2 + (byteAt G 1).toNat ≤ G.length) (a : Bool) :
    (splitFrame (byteAt G) a).calcSum = (splitFrame (byteAt G) a).recvSum ↔
      sum8 (G.take ((byteAt G 1).toNat + 2)) = 0 := by
  have hrecv : (splitFrame (byteAt G) a).recvSum = byteAt G ((byteAt G 1).toNat + 1) := rfl
  rw [splitFrame_calcSum, hrecv, eq_comm, eq_csum8_iff, ← map_byteAt_range (by omega), List.range_succ (n := _ + 1),
    List.map_append, sum8_append]
  simp

/-- A complete sequence whose length field covers its header and checksum decodes by its sum (R148, R149). -/
theorem decodeFrame_byteAt {G : List Byte} {a : Bool} (hn : 2 + (byteAt G 1).toNat ≤ G.length)
    (hL : headerBytes a + 1 ≤ (byteAt G 1).toNat) :
    decodeFrame (byteAt G) G.length a =
      if sum8 (G.take ((byteAt G 1).toNat + 2)) = 0 then .ok (splitFrame (byteAt G) a)
      else .mismatch (splitFrame (byteAt G) a).recvSum (splitFrame (byteAt G) a).calcSum := by
  rw [decodeFrame_of_complete hn hL]
  exact if_congr (splitFrame_sums_iff hn a) rfl rfl

section EncodedFrame

variable {p : Params} {boot cmd addr : Byte} {a : Bool} {P F : List Byte}
  (h : encodeFrame p boot cmd a addr P = some F)
include h

/-- The length field of an encoded frame is that of the whole frame, and covers its header and checksum (R144). -/
theorem encodeFrame_complete : 2 + (byteAt F 1).toNat = F.length ∧ headerBytes a + 1 ≤ (byteAt F 1).toNat := by
  have hlen := (encodeFrame_length h).1
  have hlfield : (byteAt F 1).toNat = F.length - 2 := encodeFrame_lfield h
  omega

/-- The payload that the decoder splits off an encoded frame is the encoder's (R152). -/
theorem sliceOf_encodeFrame : sliceOf (byteAt F) (2 + headerBytes a) P.length = P := by
  apply List.ext_getElem?
  intro i
  by_cases hi : i < P.length
  · rw [getElem?_sliceOf _ _ _ _ hi, byteAt, List.getD_eq_getElem?_getD, encodeFrame_payload h hi,
      List.getElem?_eq_getElem hi]
    rfl
  · rw [List.getElem?_eq_none (by simpa using hi), List.getElem?_eq_none (by omega)]

theorem decodeFrame_encodeFrame :
    decodeFrame (byteAt F) F.length a =
      .ok { boot := boot, lfield := BitVec.ofNat 8 (F.length - 2), cmd := cmd, addr := if a then addr else 0,
            plen := P.length, payload := P, recvSum := byteAt F (F.length - 1),
            calcSum := byteAt F (F.length - 1) } := by
  obtain ⟨hlen, hL⟩ := encodeFrame_complete h
  have hplen : (byteAt F 1).toNat - headerBytes a - 1 = P.length := by
    have := (encodeFrame_length h).1
    omega
  have hlast : (byteAt F 1).toNat + 1 = F.length - 1 := by omega
  have hsum : sum8 (F.take ((byteAt F 1).toNat + 2)) = 0 := by
    rw [List.take_of_length_le (by omega), sum8_encodeFrame h]
  have hcalc := (splitFrame_sums_iff hlen.le a).2 hsum
  have haddr : (if a then byteAt F 3 else 0) = if a then addr else 0 := by
    cases a
    · rfl
    · exact congrArg (fun G => byteAt G 3) (encodeFrame_bytes h)
  rw [decodeFrame_byteAt hlen.le hL, if_pos hsum, Decoded.ok.injEq, splitFrame, Fields.mk.injEq, hplen, hlast]
  refine ⟨congrArg (fun G => byteAt G 0) (encodeFrame_bytes h), congrArg (fun G => byteAt G 1) (encodeFrame_bytes h),
    congrArg (fun G => byteAt G 2) (encodeFrame_bytes h), haddr, rfl, sliceOf_encodeFrame h, rfl, ?_⟩
  rw [← hlast]
  exact hcalc

end EncodedFrame

/-- Settles O36: an encoded frame is complete and sums to 0, and the split finds each field where the encoder put it. -/
theorem codecRoundTrip : Obligations.CodecRoundTrip := by
  intro p boot cmd addr a P F h
  exact decodeFrame_encodeFrame h

/-! ### One flipped bit -/

/-- A byte with one bit flipped (R153). -/
def flipBit (x : Byte) (k : Nat) : Byte := x ^^^ BitVec.twoPow 8 k

theorem flipBit_ne (x : Byte) {k : Nat} (hk : k < 8) : flipBit x k ≠ x := by
  intro h
  have hbit := congrArg (fun y => y.getLsbD k) h
  simp [flipBit, hk] at hbit

theorem byteAt_set_ne {F : List Byte} {i j : Nat} (h : j ≠ i) (v : Byte) : byteAt (F.set j v) i = byteAt F i := by
  simp [byteAt, List.getElem?_set_ne h]

theorem byteAt_set_eq {F : List Byte} {j : Nat} (h : j < F.length) (v : Byte) : byteAt (F.set j v) j = v := by
  simp [byteAt, h]

/-- A sequence that sums to 0 does not with one byte changed. -/
theorem sum8_set_ne_zero {F : List Byte} (hsum : sum8 F = 0) {j : Nat} (hj : j < F.length) {v : Byte}
    (hv : v ≠ byteAt F j) : sum8 (F.set j v) ≠ 0 := by
  have hbyte : F[j] = byteAt F j := by simp [byteAt, hj]
  rw [sum8_set F j hj, hsum, hbyte, zero_sub, neg_add_eq_sub]
  exact sub_ne_zero.2 hv

/-- Settles O37: the frame sums to 0, so a changed byte other than the length field leaves it complete with a wrong sum;
a changed length field makes it longer than it is, too short for its header, or a shorter frame judged by its sum. -/
theorem singleBitFlip : Obligations.SingleBitFlip := by
  intro p boot cmd addr a P F j k h hj hk G o L L'
  have hdecode : o = decodeFrame (byteAt G) G.length a := rfl
  have hlen : G.length = F.length := List.length_set
  have hL' : (byteAt G 1).toNat = L' := rfl
  have hmin : (if a then 3 else 2) = headerBytes a + 1 := by cases a <;> rfl
  obtain ⟨hcomplete, hL⟩ : 2 + L = F.length ∧ headerBytes a + 1 ≤ L := encodeFrame_complete h
  rw [hdecode, hmin]
  refine ⟨fun hne => ?other, ?length⟩
  case other =>
    have hsame : (byteAt G 1).toNat = L := congrArg BitVec.toNat (byteAt_set_ne hne _)
    have hsum : sum8 (G.take ((byteAt G 1).toNat + 2)) ≠ 0 := by
      rw [List.take_of_length_le (by omega)]
      exact sum8_set_ne_zero (sum8_encodeFrame h) hj (flipBit_ne _ hk)
    rw [decodeFrame_byteAt (by omega) (by omega), if_neg hsum]
    exact ⟨_, _, rfl⟩
  case length =>
    rintro rfl
    have hflip : L' ≠ L := by
      have hbyte : byteAt G 1 = flipBit (byteAt F 1) k := byteAt_set_eq hj _
      exact fun he => flipBit_ne (byteAt F 1) hk (hbyte.symm.trans (BitVec.eq_of_toNat_eq he))
    refine ⟨fun hlt => ?_, fun hlt => ?_, fun hge hle => ?_⟩
    · exact decodeFrame_truncated_iff.2 (by omega)
    · exact decodeFrame_malformed_iff.2 (by omega)
    · rw [decodeFrame_byteAt (by omega) (by omega), hL']
      refine ⟨fun hsum => ⟨_, _, if_neg hsum⟩, fun hsum => ⟨_, if_pos hsum, ?_⟩⟩
      have hplen := (encodeFrame_length h).1
      change L' - headerBytes a - 1 < P.length
      omega

end Sys2Proof.Proofs

/-! PROOF. The statements of 40_frame_codec.md about the engine's use of the codec: the CHECK step of ENCODE (R143,
R155), of SEND and INVENTORY turned away (R182, R265), of DECODE (R156, R157), the COMMIT step on a frame that does not
decode (R190), and ENCODE followed by DECODE (R152). -/

namespace Sys2Proof.Proofs

open Sys2Proof.Machine Sys2Proof.Laws

/-! ### The CHECK step of a raw payload -/

theorem length_rawPayload (f : Fcd) : f.rawPayload.length = f.payloadLen.toNat := length_slice _ _ _

/-- A raw payload within the limit of the shape that ADDR asks for has a frame (R143). -/
theorem rawPayload_encodes {f : Fcd} (boot cmd : Byte)
    (h : f.payloadLen.toNat ≤ if f.addr = 0 then f.params.maxPayloadUnaddr.val else f.params.maxPayloadAddr.val) :
    ∃ frame, encodeFrame f.params boot cmd f.wantsAddressed f.addr f.rawPayload = some frame := by
  rw [← payloadLimit_wantsAddressed, ← length_rawPayload] at h
  exact ⟨_, if_neg (by omega)⟩

/-- Above the limit a dispatch operation ends before anything is written (R182). -/
theorem dispatchStart_of_tooLong {f : Fcd} {P : List Byte} (h : payloadLimit f.params f.wantsAddressed < P.length)
    (linkUp : Bool) (cmd : Byte) : f.dispatchStart linkUp cmd P = f.endOp .invalidPayloadSize := by
  rw [Fcd.dispatchStart, encodeFrame_eq_none_iff.2 h]

/-- What FRAME_BUF and FRAME_LEN hold when an operation ends on a frame that has been put. -/
theorem putFrame_endOp (f : Fcd) (frame : List Byte) (x : ResultCode) :
    (putFrame f frame).endOp x = { f with
      frameLen := BitVec.ofNat 9 frame.length, result := x, busy := false, done := true, phase := .idle,
      mem := ((putFrame f frame).endOp x).mem } := by
  rw [putFrame_eq]
  rfl

/-- Settles O27: the payload of SEND and INVENTORY is the raw one; above the limit there is no frame, and a closed
transport ends the operation once the frame is put. -/
theorem rawDispatchTurnedAway : Obligations.RawDispatchTurnedAway := by
  intro s i c hp hop hcode hdec limit
  have hlimit : payloadLimit s.fcd.params s.fcd.wantsAddressed = limit := payloadLimit_wantsAddressed s.fcd
  have hlen := length_rawPayload s.fcd
  have hraw : s.fcd.ctrlOp ≠ opEncode ∧ s.fcd.opPayload = .ok s.fcd.rawPayload := by
    unfold Fcd.opPayload
    obtain hop | hop := hop <;> exact ⟨by rw [hop]; decide, by rw [hop]; rfl⟩
  have hexec : exec i s = .next { s with fcd := s.fcd.dispatchStart s.linkUp c s.fcd.rawPayload } := by
    rw [decode_wireFrame] at hdec
    cases hdec
    rw [exec_decodeWire, carry_of_dispatch hp hcode hraw.1 hraw.2]
  refine ⟨fun hgt => ?tooLong, fun hfits hlink => ?closed⟩
  case tooLong =>
    rw [hexec, dispatchStart_of_tooLong (by omega)]
    rfl
  case closed =>
    obtain ⟨frame, henc, hdisp⟩ := dispatchStart_of_fits (f := s.fcd) (P := s.fcd.rawPayload) (by omega) s.linkUp c
    obtain ⟨hholds, hsame⟩ := putFrame_bytes henc
    rw [hdisp, if_neg (by simp [hlink])] at hexec
    exact ⟨_, frame, henc, hexec, hholds, hsame, congrArg (fun g => { s with fcd := g }) (putFrame_endOp _ _ _)⟩

theorem exec_encodeCode {s : State} (hp : s.fcd.phase = .check) (hop : s.fcd.ctrlOp = opEncode) :
    exec (decodeWire s.fcd.cmdCode) s = .next { s with fcd := s.fcd.checkEncode s.fcd.cmdCode } := by
  have hwire : s.fcd.wireCode = some s.fcd.cmdCode := by rw [Fcd.wireCode, if_pos hp, Fcd.opWireCode, hop]; rfl
  rw [exec_decodeWire, State.carry, if_pos hwire, Fcd.checkWire, if_pos hop]

theorem checkEncode_of_some {f : Fcd} {cmd : Byte} {frame : List Byte}
    (h : encodeFrame f.params f.boot cmd f.wantsAddressed f.addr f.rawPayload = some frame) :
    f.checkEncode cmd = (putFrame f frame).endOp .ok := by
  rw [Fcd.checkEncode, h]
  rfl

/-- Settles O28: the CHECK step of ENCODE is the encoder on the raw payload, whatever the transport. -/
theorem encodeBuildsFrame : Obligations.EncodeBuildsFrame := by
  intro s i hp hop hdec limit
  have hlimit : payloadLimit s.fcd.params s.fcd.wantsAddressed = limit := payloadLimit_wantsAddressed s.fcd
  have hlen := length_rawPayload s.fcd
  have hexec : exec i s = .next { s with fcd := s.fcd.checkEncode s.fcd.cmdCode } := by
    rw [decode_wireFrame] at hdec
    cases hdec
    exact exec_encodeCode hp hop
  refine ⟨fun hgt => ?tooLong, fun hfits => ?fits⟩
  case tooLong =>
    rw [hexec, Fcd.checkEncode, encodeFrame_eq_none_iff.2 (by omega)]
    rfl
  case fits =>
    obtain ⟨frame, henc⟩ := rawPayload_encodes s.fcd.boot s.fcd.cmdCode hfits
    obtain ⟨hholds, hsame⟩ := putFrame_bytes henc
    rw [checkEncode_of_some henc] at hexec
    exact ⟨_, frame, henc, hexec, hholds, hsame, congrArg (fun g => { s with fcd := g }) (putFrame_endOp _ _ _)⟩

/-! ### The write-back of a decode -/

/-- A good decode puts its payload in RESP_BUF (R157). -/
theorem writeFields_bytes (f : Fcd) {F : Nat → Byte} {n : Nat} {a : Bool} {d : Fields}
    (h : decodeFrame F n a = .ok d) :
    holdsBytes (f.writeFields d) .resp d.payload ∧ sameBytesBut f (f.writeFields d) .resp d.payload.length := by
  obtain ⟨-, -, hlen, hle⟩ := decodeFrame_ok h
  have hfits : d.payload.length ≤ bufSize .resp := by
    rw [hlen]
    exact hle.trans (by decide)
  exact setBufs_zero_bytes f hfits

/-- The CHECK step of an operation without a wire command code is the engine's own (R156, R264). -/
theorem step_checkLocal {s : State} (hturn : nextTurn s = .engine) (hp : s.fcd.phase = .check)
    (hcode : s.fcd.opWireCode = none) :
    step s = .next { s with turns := s.turns.tail, fcd := s.fcd.checkLocal } := by
  rw [step_engine hturn]
  simp [engineTurn, fetchEngine, Fcd.wireCode, engineStep, State.popTurn, hp, hcode]

theorem step_checkDecode {s : State} (hturn : nextTurn s = .engine) (hp : s.fcd.phase = .check)
    (hop : s.fcd.ctrlOp = opDecode) :
    step s = .next { s with turns := s.turns.tail, fcd := s.fcd.checkDecode } := by
  have hcode : s.fcd.opWireCode = none := by rw [Fcd.opWireCode, hop]; rfl
  rw [step_checkLocal hturn hp hcode, Fcd.checkLocal, if_pos hop]

theorem checkDecode_of_ok {f : Fcd} {d : Fields}
    (h : decodeFrame (f.buf .frame) f.frameLen.toNat f.wantsAddressed = .ok d) :
    f.checkDecode = (f.writeFields d).endOp .ok := by
  rw [Fcd.checkDecode, h]
  rfl

theorem step_commitStep {s : State} {g : Fcd} (hturn : nextTurn s = .engine) (hp : s.fcd.phase = .commit)
    (hg : s.fcd.commitStep = some g) : step s = .next { s with turns := s.turns.tail, fcd := g } := by
  rw [step_engine hturn]
  simp [engineTurn, fetchEngine, Fcd.wireCode, engineStep, State.popTurn, hp, hg]

/-- Settles O30: the CHECK step of DECODE is the write-back of its decode, and every outcome ends the operation. -/
theorem decodeWritesOutcome : Obligations.DecodeWritesOutcome := by
  intro s hturn hp hop f o ends
  have hstep : step s = .next { s with turns := s.turns.tail, fcd := f.checkDecode } := step_checkDecode hturn hp hop
  have ho : decodeFrame (f.buf .frame) f.frameLen.toNat f.wantsAddressed = o := rfl
  have hfails : ∀ g, f.commitDecode o = .error g → step s = .next { s with turns := s.turns.tail, fcd := g } := by
    intro g hg
    rw [hstep, Fcd.checkDecode, ho, hg]
  refine ⟨fun h => hfails _ (by rw [h]; rfl), fun h => hfails _ (by rw [h]; rfl),
    fun r c h => hfails _ (by rw [h]; rfl), fun d h => ?_⟩
  obtain ⟨hholds, hsame⟩ := writeFields_bytes f (ho.trans h)
  rw [checkDecode_of_ok (ho.trans h)] at hstep
  exact ⟨_, hstep, hholds, hsame, by rw [writeFields_eq]; rfl⟩

/-- Settles O44: the COMMIT step is the write-back of its decode, and a failure is the operation's end. -/
theorem commitOfBadFrame : Obligations.CommitOfBadFrame := by
  intro s hturn hp f o ends
  have ho : decodeFrame (f.buf .rxf) f.rxfCount.toNat f.addressed = o := rfl
  have hfails : ∀ g, f.commitDecode o = .error g → step s = .next { s with turns := s.turns.tail, fcd := g } := by
    intro g hg
    exact step_commitStep hturn hp (by rw [Fcd.commitStep, ho, hg])
  exact ⟨fun h => hfails _ (by rw [h]; rfl), fun h => hfails _ (by rw [h]; rfl),
    fun r c h => hfails _ (by rw [h]; rfl)⟩

/-! ### ENCODE followed by DECODE -/

/-- With BUSY = 0 the host's CTRL byte starts its operation (R81, R180). -/
theorem step_startLine {s : State} {i : Instr} {op : BitVec 4} {rest : List HostItem} {later : List Turn}
    (hidle : s.fcd.busy = false) (hdec : decode (encode i) = .ok i) (hfmt : (encode i).fmt ≠ .wireFrame)
    (hexec : ∀ u, exec i u = .next (u.start op).retire) (hprog : s.program = .word (encode i) :: rest)
    (hturns : s.turns = .host :: later) :
    step s = .next { s with fcd := s.fcd.accept op, program := rest, turns := later } := by
  rw [stepRunsHostInstr s _ rest i (nextTurn_cons hturns) hprog hfmt hdec, hexec, State.retire, State.start]
  simp only [startOp_idle hidle, hprog, hturns, List.tail_cons]

theorem step_checkEncode {s : State} (hturn : nextTurn s = .engine) (hp : s.fcd.phase = .check)
    (hop : s.fcd.ctrlOp = opEncode) :
    step s = .next { s with turns := s.turns.tail, fcd := s.fcd.checkEncode s.fcd.cmdCode } := by
  have hcode : s.fcd.opWireCode = some s.fcd.cmdCode := by rw [Fcd.opWireCode, hop]; rfl
  rw [stepRunsWireCode.1 s _ _ hturn hp hcode rfl]
  exact exec_encodeCode (s := { s with turns := s.turns.tail }) hp hop

theorem run_two {s t u : State} (hst : step s = .next t) (htu : step t = .next u) :
    Host.Core.run core 2 s = .next u :=
  (coreRun_succ (M := core) hst 1).trans (coreRun_succ (M := core) htu 0)

/-- ENCODE on a free FCD: the frame of the raw payload stands in FRAME_BUF after two steps (R155). -/
theorem run_encode {s : State} {rest : List HostItem} {later : List Turn} {frame : List Byte}
    (hidle : s.fcd.busy = false) (hprog : s.program = .word (encode .encode) :: rest)
    (hturns : s.turns = .host :: .engine :: later)
    (henc : encodeFrame s.fcd.params s.fcd.boot s.fcd.cmdCode s.fcd.wantsAddressed s.fcd.addr s.fcd.rawPayload =
      some frame) :
    Host.Core.run core 2 s = .next { s with
      fcd := (putFrame (s.fcd.accept opEncode) frame).endOp .ok, program := rest, turns := later } := by
  have hstart := step_startLine (op := opEncode) hidle rfl (by decide) (fun _ => rfl) hprog hturns
  have hcheck : (s.fcd.accept opEncode).checkEncode s.fcd.cmdCode = _ := checkEncode_of_some henc
  refine run_two hstart ?_
  rw [← hcheck]
  exact step_checkEncode (nextTurn_cons rfl) rfl rfl

/-- DECODE on a free FCD with a good frame in FRAME_BUF: its fields are written back after two steps (R156). -/
theorem run_decode {s : State} {rest : List HostItem} {later : List Turn} {d : Fields}
    (hidle : s.fcd.busy = false) (hprog : s.program = .word (encode .decode) :: rest)
    (hturns : s.turns = .host :: .engine :: later)
    (hdec : decodeFrame (s.fcd.buf .frame) s.fcd.frameLen.toNat s.fcd.wantsAddressed = .ok d) :
    Host.Core.run core 2 s = .next { s with
      fcd := ((s.fcd.accept opDecode).writeFields d).endOp .ok, program := rest, turns := later } := by
  have hstart := step_startLine (op := opDecode) hidle rfl (by decide) (fun _ => rfl) hprog hturns
  have hcheck : (s.fcd.accept opDecode).checkDecode = _ := checkDecode_of_ok hdec
  refine run_two hstart ?_
  rw [← hcheck]
  exact step_checkDecode (nextTurn_cons rfl) rfl rfl

/-- A frame that has been put decodes to the fields it was built from (R152). -/
theorem decodeFrame_putFrame {f : Fcd} {boot cmd : Byte} {P frame : List Byte}
    (h : encodeFrame f.params boot cmd f.wantsAddressed f.addr P = some frame) :
    ∃ d, decodeFrame ((putFrame f frame).buf .frame) (putFrame f frame).frameLen.toNat
        (putFrame f frame).wantsAddressed = .ok d ∧
      d.boot = boot ∧ d.cmd = cmd ∧ d.addr = f.addr ∧ d.plen = P.length ∧ d.payload = P := by
  have hmax := (encodeFrame_length h).2
  obtain ⟨hcomplete, -⟩ := encodeFrame_complete h
  have hlen : (putFrame f frame).frameLen.toNat = frame.length :=
    (BitVec.toNat_ofNat _ _).trans (Nat.mod_eq_of_lt (by omega))
  have hsame : ∀ i < frame.length, (putFrame f frame).buf .frame i = byteAt frame i := by
    intro i hi
    rw [(putFrame_bytes h).1 i hi]
    simp [byteAt, hi]
  have hone := hsame 1 (by omega)
  have hshape : (putFrame f frame).wantsAddressed = f.wantsAddressed := by rw [putFrame_eq]; rfl
  have haddr : (if f.wantsAddressed then f.addr else 0) = f.addr := by
    by_cases hzero : f.addr = 0
    · rw [hzero, ite_self]
    · exact if_pos (decide_eq_true hzero)
  have hreads := decodeFrame_congr (a := f.wantsAddressed) hone (n := (putFrame f frame).frameLen.toNat)
    (m := frame.length) (by rw [hone]; omega) (by rw [hone]; omega) fun i hi => hsame i (by rw [hone] at hi; omega)
  rw [hshape, hreads]
  exact ⟨_, decodeFrame_encodeFrame h, rfl, rfl, haddr, rfl, rfl⟩

/-- Settles O60: ENCODE puts the frame of the fields, which the codec's round trip gives back to DECODE. -/
theorem encodeThenDecodeRecovers : Obligations.EncodeThenDecodeRecovers := by
  intro s rest later hidle hprog hturns hfits
  obtain ⟨frame, henc⟩ := rawPayload_encodes s.fcd.boot s.fcd.cmdCode hfits
  obtain ⟨d, hdec, hboot, hcmd, haddr, hplen, hpayload⟩ := decodeFrame_putFrame (f := s.fcd.accept opEncode) henc
  have hencode := run_encode hidle hprog hturns henc
  have hdecode := run_decode (s := { s with
      fcd := (putFrame (s.fcd.accept opEncode) frame).endOp .ok
      program := .word (encode .decode) :: rest
      turns := .host :: .engine :: later })
    rfl rfl rfl hdec
  obtain ⟨-, hsums, -⟩ := decodeFrame_ok hdec
  obtain ⟨hholds, -⟩ := writeFields_bytes (((putFrame (s.fcd.accept opEncode) frame).endOp .ok).accept opDecode) hdec
  refine ⟨_, (coreRun_add hencode 2).trans hdecode, rfl, rfl, rfl, hboot, hcmd, haddr, ?plen, fun i hi => ?payload, rfl,
    hsums.symm⟩
  case plen =>
    change BitVec.ofNat 8 d.plen = s.fcd.payloadLen
    rw [hplen, length_rawPayload, BitVec.ofNat_toNat, BitVec.setWidth_eq]
  case payload =>
    rw [hpayload] at hholds
    exact (hholds i (by rwa [length_rawPayload])).trans (by simp [Fcd.rawPayload, Fcd.slice])

end Sys2Proof.Proofs

/-! PROOF. The statement of 41_error_catalog.md: the bytes of the categories (R172), the default catalog (R171) and the
laws of every catalog (R176). -/

namespace Sys2Proof.Proofs

open Sys2Proof.Machine

/-! ### The lookup in a list of pairs -/

/-- A category found for a code stands beside it in the list. -/
theorem mem_of_catalogFind {l : List (Byte × Category)} {code : Byte} {c : Category}
    (h : catalogFind l code = some c) : (code, c) ∈ l := by
  induction l with
  | nil => cases h
  | cons e rest ih =>
    rw [catalogFind] at h
    split at h
    case isTrue hcode =>
      obtain rfl := Option.some.inj h
      exact hcode ▸ List.mem_cons_self
    case isFalse => exact List.mem_cons_of_mem _ (ih h)

/-- The lookup fails only for the codes that the list does not name. -/
theorem catalogFind_eq_none_iff {l : List (Byte × Category)} {code : Byte} :
    catalogFind l code = none ↔ code ∉ l.map Prod.fst := by
  induction l with
  | nil => simp [catalogFind]
  | cons e rest ih =>
    rw [catalogFind]
    split
    case isTrue hcode => simp [hcode]
    case isFalse hcode => simp [ih, Ne.symm hcode]

/-! ### The default catalog (R171) -/

/-- The default catalog names the codes by position. -/
theorem mem_defaultCatalog_codes {code : Byte} : code ∈ defaultCatalog.map Prod.fst ↔ code.toNat ≤ 0x11 := by
  have hcodes : defaultCatalog.map Prod.fst = (List.range 0x12).map (BitVec.ofNat 8) := by decide
  rw [hcodes, List.mem_map]
  constructor
  · rintro ⟨n, hn, rfl⟩
    have := List.mem_range.mp hn
    rw [BitVec.toNat_ofNat]
    omega
  · intro hle
    exact ⟨code.toNat, List.mem_range.mpr (by omega), (BitVec.ofNat_toNat 8 code).trans (BitVec.setWidth_eq code)⟩

/-- Each code of the default catalog is its category's own byte. -/
theorem categoryByte_of_mem_defaultCatalog {code : Byte} {c : Category} (h : (code, c) ∈ defaultCatalog) :
    categoryByte c = code := by
  obtain ⟨c', -, heq⟩ := List.mem_map.mp h
  obtain ⟨rfl, rfl⟩ := Prod.mk.inj heq
  rfl

/-- The default catalog gives codes 0x02 and 0x09 their fixed categories itself, so it alone decides the lookup. -/
theorem errCatalog_defaultParams (code : Byte) :
    errCatalog defaultParams code = (catalogFind defaultCatalog code).getD .unrecognizedError := by
  rw [errCatalog]
  split
  case isTrue htwo => exact htwo ▸ rfl
  case isFalse =>
    split
    case isTrue hnine => exact hnine ▸ rfl
    case isFalse => rfl

theorem categoryByte_errCatalog_defaultParams (code : Byte) :
    categoryByte (errCatalog defaultParams code) = if code.toNat ≤ 0x11 then code else 0xFF := by
  rw [errCatalog_defaultParams]
  cases hfind : catalogFind defaultCatalog code with
  | none =>
    have hlarge := mt mem_defaultCatalog_codes.mpr (catalogFind_eq_none_iff.mp hfind)
    rw [if_neg hlarge]
    rfl
  | some c =>
    have hmem := mem_of_catalogFind hfind
    have hsmall := mem_defaultCatalog_codes.mp (List.mem_map_of_mem hmem)
    rw [if_pos hsmall]
    exact categoryByte_of_mem_defaultCatalog hmem

/-! ### Every catalog (R172, R176) -/

/-- The nineteen bytes of R172. -/
theorem categoryByte_range (c : Category) : (categoryByte c).toNat ≤ 0x11 ∨ categoryByte c = 0xFF := by
  cases c <;> decide

/-- Settles O51: the lookup fixes two codes before it reads the list, a category has one of the nineteen bytes, and the
default list names each code up to 0x11 with the category of that byte. -/
theorem catalogLaws : Obligations.CatalogLaws :=
  ⟨fun _ => ⟨rfl, rfl⟩, fun _ _ => categoryByte_range _, categoryByte_errCatalog_defaultParams⟩

end Sys2Proof.Proofs

/-! PROOF. The statements of 42_dispatcher.md: the start request (R180, R304), the transport's steps (R184 to R188), and
the COMMIT step on a good frame of SEND, READ and WRITE and on every device failure (R173, R190 to R193, R196). -/

namespace Sys2Proof.Proofs

open Sys2Proof.Machine Sys2Proof.Laws

/-! ### The start request -/

theorem startOp_busy {f : Fcd} (h : f.busy = true) (op : BitVec 4) : f.startOp op = { f with collide := true } := by
  simp [Fcd.startOp, h]

theorem exec_go (op : BitVec 4) (s : State) : exec (.go op) s = .next (s.start op).retire := by
  change Host.Outcome.next { s with program := s.program.tail, fcd := s.fcd.writeCtrl (ctrlByte op) } = _
  rw [writeCtrl_ctrlByte]
  rfl

/-- Settles O19: every start instruction is a start request, which BUSY = 1 refuses. -/
theorem startRefusedWhenBusy : Obligations.StartRefusedWhenBusy := by
  intro s hbusy collides
  have hstart : ∀ (i : Instr) (op : BitVec 4), exec i s = .next (s.start op).retire → collides i := by
    intro i op hi
    have hrefused : (s.start op).retire =
        { s with program := s.program.tail, fcd := { s.fcd with collide := true } } := by
      rw [← startOp_busy hbusy op]
      rfl
    exact hi.trans (congrArg _ hrefused)
  exact ⟨hstart _ _ rfl, hstart _ _ rfl, hstart _ _ rfl, hstart _ _ rfl, hstart _ _ rfl, hstart _ _ rfl,
    hstart _ _ rfl, hstart _ _ rfl, fun op _ => hstart _ op rfl, fun op => hstart _ op (exec_go op s)⟩

/-- A write of a byte with START = 1 to CTRL is a start request with the byte's OP (R31). -/
theorem writeCtrl_start {v : Byte} (h : v.getLsbD 7 = true) (f : Fcd) : f.writeCtrl v = f.startOp (v.setWidth 4) := by
  rw [Fcd.writeCtrl, ctrlStart, if_pos h, ctrlOpField_eq]

/-- Settles O20: a write to address 0 is a write to CTRL, and the start request it makes is accepted exactly while
BUSY = 0. -/
theorem ctrlWriteIsStartRequest : Obligations.CtrlWriteIsStartRequest := by
  intro s v hstart
  have hctrl : s.fcd.writeLoc (locate (0x000 : HostAddr).toNat) v = s.fcd.startOp (v.setWidth 4) :=
    writeCtrl_start hstart s.fcd
  refine ⟨_, exec_wr 0x000 v s, fun hbusy => hctrl.trans (startOp_busy hbusy _), fun hidle => ?accepted⟩
  case accepted =>
    have haccept := hctrl.trans (startOp_idle hidle _)
    exact ⟨haccept, fun c j _ => congrArg (·.buf c j) haccept⟩

/-! ### The transport's steps -/

/-- A transport clock is never the turn that the engine chooses by itself: the state lists it. -/
theorem turns_of_nextTurn_transport {s : State} {sig : Signals} (h : nextTurn s = .transport sig) :
    s.turns = .transport sig :: s.turns.tail := by
  cases hturns : s.turns with
  | nil =>
    simp only [nextTurn, hturns] at h
    split at h <;> cases h
  | cons turn rest =>
    rw [nextTurn_cons hturns] at h
    rw [h, List.tail_cons]

/-- Settles O38: the Accept step of the clock that is next. -/
theorem acceptStepSendsOneByte : Obligations.AcceptStepSendsOneByte := fun _ hturn hp hlt =>
  step_acceptTurn (turns_of_nextTurn_transport hturn) hp hlt

/-- The bytes taken change RXF_COUNT and the memory. -/
theorem takeBytes_eq (f : Fcd) (bytes : List Byte) :
    takeBytes f bytes = { f with rxfCount := (takeBytes f bytes).rxfCount, mem := (takeBytes f bytes).mem } := by
  unfold takeBytes
  rw [setBufs_eq]

/-- A clock of phase RX with a byte and no error delivers the byte, whether or not `tx_ready` is asserted (R186). -/
theorem step_deliver {s : State} {sig : Signals} {b : Byte} {rest : List Byte} (hturn : nextTurn s = .transport sig)
    (he : sig.err = false) (hv : sig.valid = true) (hs : sig.short = false) (hp : s.fcd.phase = .rx)
    (hheld : s.held = b :: rest) (hlt : s.fcd.rxfCount.toNat < 257) :
    step s = .next { s with
      turns := s.turns.tail
      held := rest
      fcd := { takeBytes s.fcd [b] with
        phase := if (takeBytes s.fcd [b]).frameComplete then .commit else .rx } } := by
  have hsig : { sig with ready := false } = (⟨false, false, true, false⟩ : Signals) := by rw [he, hv, hs]
  have hclock : step s = step { s with turns := deliverTurn :: s.turns.tail } := by
    rw [step_transport hturn, transportStep_rx_ignores_ready (s := s.popTurn) hp, hsig]
    rfl
  have hphase : (takeBytes s.fcd [b]).phase = .rx := by rw [takeBytes_eq, hp]
  rw [hclock, step_deliverTurn (s := { s with turns := deliverTurn :: s.turns.tail }) rfl hp hheld hlt, ← hphase]
  cases (takeBytes s.fcd [b]).frameComplete <;> rfl

/-- Settles O39: the Deliver step takes one byte into RXF_BUF at RXF_COUNT, which the invariant bounds. -/
theorem deliverStepTakesOneByte : Obligations.DeliverStepTakesOneByte := by
  intro s sig b rest hsafe hturn he hv hs hp hheld
  have hlt := rxfCount_lt_of_inv hsafe hp
  refine ⟨hlt, _, step_deliver hturn he hv hs hp hheld hlt, buf_setBuf_same s.fcd .rxf _ b hlt,
    fun c j hj hother => buf_setBuf_other s.fcd b hj hother, toNat_succ_count hlt,
    if_congr (frameComplete_iff _) rfl rfl, ?frame⟩
  case frame => rw [takeBytes_eq]

/-- Fewer bytes than the engine waits for decode to Truncated (R52, R145). -/
theorem decodeFrame_of_lt_need {f : Fcd} (h : f.rxfCount.toNat < f.need) (a : Bool) :
    decodeFrame (f.buf .rxf) f.rxfCount.toNat a = .truncated := by
  by_cases htwo : f.rxfCount.toNat < 2
  · rw [decodeFrame, if_pos htwo]
  · rw [Fcd.need, if_neg htwo] at h
    rw [decodeFrame, if_neg htwo, if_pos h]

/-- Settles O40: the short read leaves RX with the response incomplete, which the COMMIT step decodes to Truncated. -/
theorem shortReadEndsTruncated : Obligations.ShortReadEndsTruncated := by
  intro s sig rest hsafe hturns he hv hs hp
  obtain ⟨-, -, -, -, -, -, hshort, -⟩ := signalsCountInTheirPhase s sig (nextTurn_cons hturns)
  obtain ⟨hincomplete, -⟩ := hsafe.rx_bounds hp
  refine ⟨by simpa [hturns] using hshort hp he hv hs, ?commit⟩
  case commit =>
    obtain ⟨htruncated, -⟩ := commitOfBadFrame
      { s with turns := .engine :: rest, fcd := { s.fcd with phase := .commit } } (nextTurn_cons rfl) rfl
    exact htruncated (decodeFrame_of_lt_need hincomplete _)

/-- Settles O41: in TX and RX the error comes before every other signal, and it is the operation's end. -/
theorem transportErrorEndsOperation : Obligations.TransportErrorEndsOperation := by
  intro s sig hturn he hp
  rw [step_transport hturn, transportStep_err (s := s.popTurn) he hp]
  rfl

/-! ### The COMMIT step on a device failure -/

theorem commitStep_of_failure {f : Fcd} {d : Fields}
    (hd : decodeFrame (f.buf .rxf) f.rxfCount.toNat f.addressed = .ok d) (hboot : d.boot = failBoot) :
    f.commitStep = some ((f.writeFields d).classifyFailure d) := by
  rw [Fcd.commitStep, hd]
  exact if_pos hboot

/-- What a failure response writes beside its frame: ERR_CODE and ERR_CAT, and the end of the operation. -/
theorem classifyFailure_eq (f : Fcd) (d : Fields) :
    let g := f.classifyFailure d
    g = { f with
      errCode := g.errCode, errCat := g.errCat, result := g.result, busy := false, done := true, phase := .idle } := by
  obtain ⟨-, h⟩ | ⟨code, rest, -, ⟨-, -, h⟩ | ⟨-, h⟩⟩ := classifyFailure_cases f d <;> rw [h] <;> rfl

@[simp] theorem classifyFailure_mem (f : Fcd) (d : Fields) : (f.classifyFailure d).mem = f.mem := by
  rw [classifyFailure_eq]

@[simp] theorem classifyFailure_buf (f : Fcd) (d : Fields) : (f.classifyFailure d).buf = f.buf := by
  rw [classifyFailure_eq]
  rfl

theorem classifyFailure_of_nil {d : Fields} (h : d.payload = []) (f : Fcd) :
    f.classifyFailure d = f.endOp .malformedFrame := by
  rw [Fcd.classifyFailure, h]

theorem isConsumer_iff (f : Fcd) : f.isConsumer = true ↔ f.ctrlOp = 2 ∨ f.ctrlOp = 3 ∨ f.ctrlOp = 4 := by
  simp only [Fcd.isConsumer, Bool.or_eq_true, decide_eq_true_eq, or_assoc]
  rfl

/-- A failure response with a payload: its byte 0 is the error code (R192, R193). -/
theorem classifyFailure_of_code {d : Fields} {code : Byte} (h : d.payload[0]? = some code) (f : Fcd) :
    f.classifyFailure d = ({ f with errCode := code, errCat := errCatalog f.params code } : Fcd).endOp
      (if code = 0x02 ∧ (f.ctrlOp = 2 ∨ f.ctrlOp = 3 ∨ f.ctrlOp = 4) then .empty else .deviceError) := by
  obtain ⟨hnil, -⟩ | ⟨c, rest, hcons, hends⟩ := classifyFailure_cases f d
  · simp [hnil] at h
  · obtain rfl : c = code := by simpa [hcons] using h
    simp only [isConsumer_iff, noTagCode] at hends
    obtain ⟨hcode, hop, he⟩ | ⟨hne, he⟩ := hends
    · rw [he, if_pos ⟨hcode, hop⟩]
    · rw [he, if_neg hne]

/-- Settles O45: the write-back of the decode, then the classification by the payload's first byte; the invariant has
every output that neither writes as the accept cleared it. -/
theorem failureResponseClassified : Obligations.FailureResponseClassified := by
  intro s d hturn hp hd hboot
  have hstep := step_commitStep hturn hp (commitStep_of_failure hd hboot)
  have hbusy : Safe s → s.fcd.busy = true := fun hsafe => hsafe.busy_iff.2 (by simp [hp])
  obtain ⟨hholds, hsame⟩ := writeFields_bytes s.fcd hd
  obtain ⟨-, hsum, hlen, -⟩ := decodeFrame_ok hd
  refine ⟨_, hstep, by simpa only [holdsBytes, classifyFailure_buf] using hholds,
    by simpa only [sameBytesBut, classifyFailure_buf] using hsame, fun hsafe => ?cleared,
    fun hplen => ?empty, fun code hcode => ?code⟩
  case cleared =>
    have hpend := (pending_of_inv hsafe (hbusy hsafe)).writeFields hsum
    rw [classifyFailure_eq]
    exact ⟨hpend.tagCount, hpend.readPresent, hpend.writeOk⟩
  case empty =>
    have hnil : d.payload = [] := List.eq_nil_of_length_eq_zero (hlen.trans hplen)
    refine ⟨?_, fun hsafe => ?_⟩
    · simp only [classifyFailure_mem]
      rw [classifyFailure_of_nil hnil, writeFields_eq]
      rfl
    · obtain ⟨hcode, hcat, -⟩ := hsafe.busy_cleared (hbusy hsafe)
      rw [classifyFailure_of_nil hnil, writeFields_eq]
      exact ⟨hcode, congrArg categoryByte hcat⟩
  case code =>
    simp only [classifyFailure_mem]
    rw [classifyFailure_of_code hcode, writeFields_eq]
    rfl

/-! ### The COMMIT step on a success -/

theorem commitStep_of_success {f : Fcd} {d : Fields}
    (hd : decodeFrame (f.buf .rxf) f.rxfCount.toNat f.addressed = .ok d) (hboot : d.boot ≠ failBoot) :
    f.commitStep = (f.writeFields d).finishSuccess := by
  rw [Fcd.commitStep, hd]
  exact if_neg hboot

/-- The success handlers of SEND, READ and WRITE end OK; READ and WRITE each set their flag (R196, R242, R247). -/
theorem finishSuccess_of_send_read_write {f : Fcd} (hop : f.ctrlOp = 1 ∨ f.ctrlOp = 3 ∨ f.ctrlOp = 4) :
    f.finishSuccess = some (({ f with
      readPresent := if f.ctrlOp = 3 then true else f.readPresent
      writeOk := if f.ctrlOp = 4 then true else f.writeOk } : Fcd).endOp .ok) := by
  obtain hop | hop | hop := hop
  · simp [Fcd.finishSuccess, Fcd.endOp, hop, opSend]
  · simp [Fcd.finishSuccess, Fcd.finishRead, hop, opSend, opInventory, opRead]
  · simp [Fcd.finishSuccess, Fcd.finishWrite, hop, opSend, opInventory, opRead, opWrite]

/-- Settles O46: the write-back of the decode, then the success handler of the latched operation. -/
theorem successResponseHandled : Obligations.SuccessResponseHandled := by
  intro s d hturn hp hop hd hboot
  have hkept : (s.fcd.writeFields d).ctrlOp = s.fcd.ctrlOp := by rw [writeFields_eq]
  have hstep := step_commitStep hturn hp
    ((commitStep_of_success hd hboot).trans (finishSuccess_of_send_read_write (hkept.symm ▸ hop)))
  obtain ⟨hholds, hsame⟩ := writeFields_bytes s.fcd hd
  refine ⟨_, hstep, hholds, hsame, ?frame⟩
  case frame =>
    rw [writeFields_eq]
    rfl

end Sys2Proof.Proofs

/-! PROOF. The statements of 43_inventory.md: which records the parser answers and when it is Bad (R212, R214, R218),
what it reads (R215, R216), the bounds of its records (R219), and the COMMIT step of INVENTORY on a success (R213,
R214). -/

namespace Sys2Proof.Proofs

open Sys2Proof.Machine Sys2Proof.Laws

/-! ### Records in order -/

/-- The records from cursor `c` on, without the parser's recursion: the first identifier after the wordCount byte at
`c`, each next one after its predecessor and one separator, each with its own wordCount byte and inside the payload
(R212). -/
def InOrder (P : Nat → Byte) (p c : Nat) (recs : List (Nat × Nat)) : Prop :=
  (∀ r : Nat × Nat, recs[0]? = some r → r.1 = c + 1) ∧
  (∀ (i : Nat) (r q : Nat × Nat), recs[i]? = some r → recs[i + 1]? = some q → q.1 = r.1 + 2 * r.2 + 2) ∧
  (∀ (i : Nat) (r : Nat × Nat), recs[i]? = some r → r.2 = (P (r.1 - 1)).toNat ∧ r.1 + 2 * r.2 ≤ p)

theorem InOrder.nil (P : Nat → Byte) (p c : Nat) : InOrder P p c [] := by simp [InOrder]

/-- One round of the record loop: the first record is the one at the cursor, the others are in order from the next
cursor on. -/
theorem inOrder_cons {P : Nat → Byte} {p c : Nat} {r : Nat × Nat} {rest : List (Nat × Nat)} :
    InOrder P p c (r :: rest) ↔
      r = (c + 1, (P c).toNat) ∧ c + 1 + 2 * (P c).toNat ≤ p ∧ InOrder P p (c + 2 + 2 * (P c).toNat) rest := by
  constructor
  · rintro ⟨hfirst, hnext, heach⟩
    obtain ⟨off, words⟩ := r
    obtain rfl : off = c + 1 := hfirst _ rfl
    obtain ⟨rfl, hfits⟩ : words = (P c).toNat ∧ c + 1 + 2 * words ≤ p := heach 0 _ rfl
    refine ⟨rfl, hfits, fun q hq => ?_, fun i => hnext (i + 1), fun i => heach (i + 1)⟩
    have hq1 : q.1 = c + 1 + 2 * (P c).toNat + 2 := hnext 0 _ q rfl hq
    omega
  · rintro ⟨rfl, hfits, hfirst, hnext, heach⟩
    refine ⟨fun r hr => ?first, fun i r q hr hq => ?next, fun i r hr => ?each⟩
    case first =>
      cases hr
      rfl
    case next =>
      cases i with
      | zero =>
        cases hr
        have hq1 := hfirst q hq
        omega
      | succ i => exact hnext i r q hr hq
    case each =>
      cases i with
      | zero =>
        cases hr
        exact ⟨rfl, hfits⟩
      | succ i => exact heach i r hr

/-- The order reads the wordCount bytes alone (R215, R216). -/
theorem InOrder.congr {P Q : Nat → Byte} {p c : Nat} {recs : List (Nat × Nat)} (h : InOrder P p c recs)
    (hcounts : ∀ r ∈ recs, Q (r.1 - 1) = P (r.1 - 1)) : InOrder Q p c recs := by
  obtain ⟨hfirst, hnext, heach⟩ := h
  refine ⟨hfirst, hnext, fun i r hr => ?_⟩
  rw [hcounts r (List.mem_of_getElem? hr)]
  exact heach i r hr

/-- Where the parser looks for the next wordCount byte after these records. -/
def nextCursor (c : Nat) (recs : List (Nat × Nat)) : Nat :=
  match recs.getLast? with
  | none => c
  | some r => r.1 + 2 * r.2 + 1

theorem nextCursor_cons (c : Nat) (r : Nat × Nat) (rest : List (Nat × Nat)) :
    nextCursor c (r :: rest) = nextCursor (r.1 + 2 * r.2 + 1) rest := by
  cases rest with
  | nil => rfl
  | cons q rest => rfl

/-! ### The record loop -/

theorem parseRecords_of_fits {P : Nat → Byte} {p c : Nat} (h : c + 1 + 2 * (P c).toNat ≤ p) (n : Nat) :
    parseRecords P p (n + 1) c =
      (parseRecords P p n (c + 2 + 2 * (P c).toNat)).map fun recs => (c + 1, (P c).toNat) :: recs := by
  obtain ⟨hend, -⟩ | ⟨-, hover, -⟩ | ⟨-, hrec⟩ := parseRecords_succ P p n c
  · omega
  · omega
  · exact hrec

/-- A wordCount byte at or beyond the end is a case of an identifier past the end (R214). -/
theorem parseRecords_of_overrun {P : Nat → Byte} {p c : Nat} (h : p < c + 1 + 2 * (P c).toNat) (n : Nat) :
    parseRecords P p (n + 1) c = none := by
  obtain ⟨-, hnone⟩ | ⟨-, -, hnone⟩ | ⟨hfits, -⟩ := parseRecords_succ P p n c
  · exact hnone
  · exact hnone
  · omega

/-- The record loop is Good with exactly the records in order from its cursor on. -/
theorem parseRecords_eq_some_iff {P : Nat → Byte} {p n c : Nat} {recs : List (Nat × Nat)} :
    parseRecords P p n c = some recs ↔ recs.length = n ∧ InOrder P p c recs := by
  induction n generalizing c recs with
  | zero =>
    rw [List.length_eq_zero_iff]
    constructor
    · rintro ⟨⟩
      exact ⟨rfl, .nil P p c⟩
    · rintro ⟨rfl, -⟩
      rfl
  | succ n ih =>
    by_cases hfits : c + 1 + 2 * (P c).toNat ≤ p
    · rw [parseRecords_of_fits hfits, Option.map_eq_some_iff]
      constructor
      · rintro ⟨rest, hrest, rfl⟩
        obtain ⟨hlen, hord⟩ := ih.mp hrest
        exact ⟨congrArg (· + 1) hlen, inOrder_cons.mpr ⟨rfl, hfits, hord⟩⟩
      · rintro ⟨hlen, hord⟩
        obtain ⟨r, rest, rfl⟩ := List.exists_cons_of_length_eq_add_one hlen
        obtain ⟨rfl, -, hrest⟩ := inOrder_cons.mp hord
        exact ⟨rest, ih.mpr ⟨Nat.succ.inj hlen, hrest⟩, rfl⟩
    · rw [parseRecords_of_overrun (by omega)]
      constructor
      · rintro ⟨⟩
      · rintro ⟨hlen, hord⟩
        obtain ⟨r, rest, rfl⟩ := List.exists_cons_of_length_eq_add_one hlen
        obtain ⟨-, hle, -⟩ := inOrder_cons.mp hord
        exact absurd hle hfits

/-- The record loop is Bad exactly when, after fewer records in order than it has to read, the next one overruns the
payload. -/
theorem parseRecords_eq_none_iff {P : Nat → Byte} {p n c : Nat} :
    parseRecords P p n c = none ↔
      ∃ recs, recs.length < n ∧ InOrder P p c recs ∧
        p < nextCursor c recs + 1 + 2 * (P (nextCursor c recs)).toNat := by
  induction n generalizing c with
  | zero =>
    constructor
    · rintro ⟨⟩
    · rintro ⟨recs, hlen, -⟩
      exact absurd hlen (Nat.not_lt_zero _)
  | succ n ih =>
    by_cases hfits : c + 1 + 2 * (P c).toNat ≤ p
    · have hcursor : c + 1 + 2 * (P c).toNat + 1 = c + 2 + 2 * (P c).toNat := by omega
      rw [parseRecords_of_fits hfits, Option.map_eq_none_iff, ih]
      constructor
      · rintro ⟨rest, hlen, hord, hover⟩
        refine ⟨(c + 1, (P c).toNat) :: rest, Nat.succ_lt_succ hlen, inOrder_cons.mpr ⟨rfl, hfits, hord⟩, ?_⟩
        rwa [nextCursor_cons, hcursor]
      · rintro ⟨recs, hlen, hord, hover⟩
        cases recs with
        | nil => exact absurd hfits (Nat.not_le.mpr hover)
        | cons r rest =>
          obtain ⟨rfl, -, hrest⟩ := inOrder_cons.mp hord
          rw [nextCursor_cons, hcursor] at hover
          exact ⟨rest, Nat.lt_of_succ_lt_succ hlen, hrest, hover⟩
    · have hover : p < c + 1 + 2 * (P c).toNat := by omega
      exact iff_of_true (parseRecords_of_overrun hover n) ⟨[], Nat.succ_pos n, .nil P p c, hover⟩

/-! ### The parser -/

theorem parseInventory_eq_some_iff {P : Nat → Byte} {p : Nat} {recs : List (Nat × Nat)} :
    parseInventory P p = some recs ↔ p ≠ 0 ∧ parseRecords P p (P 0).toNat 1 = some recs := by
  by_cases hp : p = 0 <;> simp [parseInventory, hp]

theorem parseInventory_eq_none_iff {P : Nat → Byte} {p : Nat} :
    parseInventory P p = none ↔ p = 0 ∨ parseRecords P p (P 0).toNat 1 = none := by
  by_cases hp : p = 0 <;> simp [parseInventory, hp]

/-- The parser reads only bytes inside the payload. -/
theorem parseInventory_congr {P Q : Nat → Byte} {p : Nat} (h : ∀ i < p, P i = Q i) :
    parseInventory P p = parseInventory Q p := by
  by_cases hp : p = 0
  · simp [parseInventory, hp]
  · simp [parseInventory, hp, h 0 (Nat.pos_of_ne_zero hp), parseRecords_congr h]

/-- Settles O48: the record loop from cursor 1, whose two answers are those of records in order. -/
theorem inventoryRecordsInOrder : Obligations.InventoryRecordsInOrder := by
  intro P p good cursor
  refine ⟨fun recs => parseInventory_eq_some_iff.trans (and_congr_right' parseRecords_eq_some_iff), ?bad⟩
  case bad =>
    have hover : ∀ c : Nat, p < c + 1 + 2 * (P c).toNat ↔ p ≤ c ∨ p < c + 1 + 2 * (P c).toNat := by omega
    rw [parseInventory_eq_none_iff, parseRecords_eq_none_iff]
    exact or_congr_right (exists_congr fun recs => and_congr_right' (and_congr_right' (hover (cursor recs))))

/-- Settles O49: the records in order fix what is read beside them, numTags and the wordCount bytes. -/
theorem parserReadsOnlyCounts : Obligations.ParserReadsOnlyCounts := by
  intro P Q p recs hparse hnum hcounts
  obtain ⟨hp, hrecs⟩ := parseInventory_eq_some_iff.mp hparse
  obtain ⟨hlen, hord⟩ := parseRecords_eq_some_iff.mp hrecs
  rw [parseInventory_eq_some_iff, hnum]
  exact ⟨hp, parseRecords_eq_some_iff.mpr ⟨hlen, hord.congr hcounts⟩⟩

/-- Parsed records: numTags of them, at most 126 in 253 bytes, each from offset 2 on and inside the payload (R219). -/
theorem parseInventory_bounds {P : Nat → Byte} {p : Nat} (hp : p ≤ 253) {recs : List (Nat × Nat)}
    (h : parseInventory P p = some recs) :
    recs.length = (P 0).toNat ∧ recs.length ≤ 126 ∧ ∀ r ∈ recs, 2 ≤ r.1 ∧ r.1 + 2 * r.2 ≤ p := by
  obtain ⟨-, hrecs⟩ := parseInventory_eq_some_iff.mp h
  obtain ⟨hlen, hroom, hmem⟩ := parseRecords_bounds hrecs
  refine ⟨hlen, ?_, hmem⟩
  by_cases hzero : (P 0).toNat = 0
  · omega
  · have := hroom hzero
    omega

/-- Settles O50: a record starts at offset 2 at the least and ends inside the payload, and all but the last take two
bytes or more. -/
theorem inventoryBounds : Obligations.InventoryBounds := by
  intro P p hp
  refine ⟨fun recs h r hr => ?entry, fun recs h => ?count, fun hmany => ?many⟩
  case entry =>
    obtain ⟨-, -, hmem⟩ := parseInventory_bounds hp h
    obtain ⟨hoff, hend⟩ := hmem r hr
    omega
  case count =>
    obtain ⟨-, hle, -⟩ := parseInventory_bounds hp h
    exact hle
  case many =>
    refine Option.eq_none_iff_forall_ne_some.mpr fun recs h => ?_
    obtain ⟨hlen, hle, -⟩ := parseInventory_bounds hp h
    omega

/-! ### The COMMIT step on a success of INVENTORY -/

/-- The success handler of INVENTORY parses the payload of the good frame (R213). -/
theorem parseInventory_writeFields (f : Fcd) {F : Nat → Byte} {n : Nat} {a : Bool} {d : Fields}
    (h : decodeFrame F n a = .ok d) :
    parseInventory ((f.writeFields d).buf .resp) (f.writeFields d).respPlen.toNat =
      parseInventory (fun i => d.payload.getD i 0) d.plen := by
  obtain ⟨-, -, hlen, hle⟩ := decodeFrame_ok h
  obtain ⟨hholds, -⟩ := writeFields_bytes f h
  have hplen : (f.writeFields d).respPlen.toNat = d.plen := by
    rw [writeFields_eq, BitVec.toNat_ofNat]
    omega
  rw [hplen]
  refine parseInventory_congr fun i hi => ?_
  rw [← hlen] at hi
  rw [hholds i hi, List.getD_eq_getElem _ _ hi]

/-- The tag table written from entry 0 on holds the records of a payload of at most 253 bytes, none of their values cut
(R213, R219). -/
theorem writeTags_holds (f : Fcd) {P : Nat → Byte} {p : Nat} (hp : p ≤ 253) {recs : List (Nat × Nat)}
    (h : parseInventory P p = some recs) (i : Nat) (hi : i < recs.length) :
    ((f.writeTags 0 recs).buf .tagOff i).toNat = recs[i].1 ∧
    ((f.writeTags 0 recs).buf .tagWords i).toNat = recs[i].2 := by
  obtain ⟨-, hcount, hmem⟩ := parseInventory_bounds hp h
  obtain ⟨-, hend⟩ := hmem _ (List.getElem_mem hi)
  obtain ⟨hoff, hwords⟩ := writeTags_inside f 0 recs (by omega) i hi
  rw [Nat.zero_add] at hoff hwords
  rw [hoff, hwords, BitVec.toNat_ofNat, BitVec.toNat_ofNat]
  omega

/-- The tag table written from entry 0 on keeps every other buffer byte. -/
theorem writeTags_keeps (f : Fcd) (recs : List (Nat × Nat)) {c : Buf} {j : Nat} (hj : j < bufSize c)
    (hoff : ¬(c = .tagOff ∧ j < recs.length)) (hwords : ¬(c = .tagWords ∧ j < recs.length)) :
    (f.writeTags 0 recs).buf c j = f.buf c j := by
  refine writeTags_outside f 0 recs hj ?_
  by_cases hlt : j < recs.length
  · exact .inl ⟨fun hc => hoff ⟨hc, hlt⟩, fun hc => hwords ⟨hc, hlt⟩⟩
  · exact .inr (.inr (by omega))

/-- The COMMIT step of INVENTORY on a success runs its handler on the write-back of the decode (R190, R213). -/
theorem step_finishInventory {s : State} {d : Fields} (hturn : nextTurn s = .engine) (hp : s.fcd.phase = .commit)
    (hop : s.fcd.ctrlOp = opInventory)
    (hd : decodeFrame (s.fcd.buf .rxf) s.fcd.rxfCount.toNat s.fcd.addressed = .ok d) (hboot : d.boot ≠ failBoot) :
    step s = .next { s with turns := s.turns.tail, fcd := (s.fcd.writeFields d).finishInventory } := by
  have hkept : (s.fcd.writeFields d).ctrlOp = opInventory := by rw [writeFields_eq, hop]
  refine step_commitStep hturn hp ((commitStep_of_success hd hboot).trans ?_)
  rw [Fcd.finishSuccess, hkept]
  rfl

/-- Settles O47: the write-back of the decode, then the parse of its payload: Bad ends the operation at once, and Good
first writes the tag table, whose entries and count the bounds of R219 keep within a byte. -/
theorem inventoryResponseHandled : Obligations.InventoryResponseHandled := by
  intro s d hturn hp hop hd hboot
  obtain ⟨-, -, hlen, hle⟩ := decodeFrame_ok hd
  obtain ⟨hholds, hsame⟩ := writeFields_bytes s.fcd hd
  rw [hlen] at hsame
  have hstep := step_finishInventory hturn hp hop hd hboot
  have hcases := finishInventory_cases (s.fcd.writeFields d)
  rw [parseInventory_writeFields s.fcd hd] at hcases
  obtain ⟨hbad, heq⟩ | ⟨recs, hgood, heq⟩ := hcases
  · rw [heq] at hstep
    refine ⟨_, hstep, hholds, fun _ => ⟨hsame, ?frame⟩, fun recs hrecs => ?_⟩
    case frame =>
      rw [writeFields_eq]
      rfl
    · cases hbad.symm.trans hrecs
  · rw [heq] at hstep
    obtain ⟨-, hcount, -⟩ := parseInventory_bounds hle hgood
    refine ⟨_, hstep, fun j hj => ?resp, fun hnone => ?_, fun recs' hrecs => ?good⟩
    case resp =>
      have hfits : j < bufSize .resp := (hj.trans_le (hlen.le.trans hle)).trans (by decide)
      exact (writeTags_keeps _ recs hfits (by simp) (by simp)).trans (hholds j hj)
    · cases hgood.symm.trans hnone
    case good =>
      obtain rfl : recs = recs' := Option.some.inj (hgood.symm.trans hrecs)
      refine ⟨writeTags_holds _ hle hgood, fun c j hj hresp hoff hwords => ?kept, ?count, ?frame⟩
      case kept =>
        have hother : c ≠ .resp ∨ d.plen ≤ j := (not_and_or.mp hresp).imp_right Nat.not_lt.mp
        exact (writeTags_keeps _ recs hj hoff hwords).trans (hsame c j hj hother)
      case count =>
        rw [endOp_tagCount, BitVec.toNat_ofNat]
        omega
      case frame =>
        rw [writeTags_eq, writeFields_eq]
        rfl

end Sys2Proof.Proofs

/-! PROOF. The statement of 44_word_block.md about the local checks of READ and WRITE (R231 to R233, R236), and the
payload size and the transport after them (R143, R182). -/

namespace Sys2Proof.Proofs

open Sys2Proof.Machine Sys2Proof.Laws

/-! ### The first local check that fails -/

theorem buildReadPayload_of_pwLen {f : Fcd} (hpw : f.pwLen ≠ 4) : f.buildReadPayload = .error .invalidPassword :=
  if_pos hpw

theorem buildReadPayload_of_oddTid {f : Fcd} (hpw : f.pwLen = 4) (hT : f.tidLen.toNat % 2 = 1) :
    f.buildReadPayload = .error .invalidPayloadSize := by
  rw [Fcd.buildReadPayload, if_neg (not_not.2 hpw), if_pos hT]

theorem buildWritePayload_of_pwLen {f : Fcd} (hpw : f.pwLen ≠ 4) : f.buildWritePayload = .error .invalidPassword :=
  if_pos hpw

theorem buildWritePayload_of_oddTid {f : Fcd} (hpw : f.pwLen = 4) (hT : f.tidLen.toNat % 2 = 1) :
    f.buildWritePayload = .error .invalidPayloadSize := by
  rw [Fcd.buildWritePayload, if_neg (not_not.2 hpw), if_pos hT]

theorem buildWritePayload_of_oddData {f : Fcd} (hpw : f.pwLen = 4) (hT : f.tidLen.toNat % 2 = 0)
    (hD : f.dataLen.toNat % 2 = 1) : f.buildWritePayload = .error .invalidPayloadSize := by
  rw [Fcd.buildWritePayload, if_neg (not_not.2 hpw), if_neg (by omega), if_pos hD]

/-! ### The CHECK step of a dispatch operation -/

/-- The latched operation is a dispatch operation with command code `c`, whose payload is built or turned away as `p`
says (R100, R181). -/
structure Dispatches (f : Fcd) (c : Byte) (p : Except ResultCode (List Byte)) : Prop where
  opWireCode : f.opWireCode = some c
  ne_encode : f.ctrlOp ≠ opEncode
  opPayload : f.opPayload = p

theorem dispatches_read {f : Fcd} (hop : f.ctrlOp = opRead) : Dispatches f 0xEC f.buildReadPayload where
  opWireCode := by rw [Fcd.opWireCode, hop]; rfl
  ne_encode := by rw [hop]; decide
  opPayload := by rw [Fcd.opPayload, hop]; rfl

theorem dispatches_write {f : Fcd} (hop : f.ctrlOp = opWrite) : Dispatches f 0xEB f.buildWritePayload where
  opWireCode := by rw [Fcd.opWireCode, hop]; rfl
  ne_encode := by rw [hop]; decide
  opPayload := by rw [Fcd.opPayload, hop]; rfl

/-- The engine's turn in CHECK of an operation with a wire command code (R181). -/
theorem step_checkWire {s : State} {c : Byte} (hturn : nextTurn s = .engine) (hp : s.fcd.phase = .check)
    (hcode : s.fcd.opWireCode = some c) :
    step s = .next { s with turns := s.turns.tail, fcd := s.fcd.checkWire s.linkUp c } := by
  have hwire : s.fcd.wireCode = some c := by rw [Fcd.wireCode, if_pos hp, hcode]
  rw [stepRunsWireCode.1 s c _ hturn hp hcode rfl, exec_decodeWire, State.carry, if_pos hwire]

/-- The payload builder's error ends the operation (R181, R231 to R233). -/
theorem step_of_payloadError {s : State} {c : Byte} {x : ResultCode} (hturn : nextTurn s = .engine)
    (hp : s.fcd.phase = .check) (h : Dispatches s.fcd c (.error x)) :
    step s = .next { s with turns := s.turns.tail, fcd := s.fcd.endOp x } := by
  obtain ⟨hcode, hop, hpay⟩ := h
  rw [step_checkWire hturn hp hcode, Fcd.checkWire, if_neg hop, hpay]

/-- The payload built goes on to the encoder and the transport (R181, R182). -/
theorem step_of_payload {s : State} {c : Byte} {P : List Byte} (hturn : nextTurn s = .engine)
    (hp : s.fcd.phase = .check) (h : Dispatches s.fcd c (.ok P)) :
    step s = .next { s with turns := s.turns.tail, fcd := s.fcd.dispatchStart s.linkUp c P } := by
  obtain ⟨hcode, hop, hpay⟩ := h
  rw [step_checkWire hturn hp hcode, Fcd.checkWire, if_neg hop, hpay]

/-- Settles O25: the payload builder's error ends the operation first, then the encoder's; otherwise the frame is put
before the transport is looked at. -/
theorem wordBlockChecksInOrder : Obligations.WordBlockChecksInOrder := by
  intro s hturn hp f limit bytes T D prefixOf ends builds
  have hlimit : payloadLimit f.params f.wantsAddressed = limit := payloadLimit_wantsAddressed f
  have hfails : ∀ {c x}, Dispatches f c (.error x) → ends x := step_of_payloadError hturn hp
  have htooLong : ∀ {c P}, Dispatches f c (.ok P) → limit < P.length → ends .invalidPayloadSize := by
    intro c P h hgt
    have hstep := step_of_payload hturn hp h
    rwa [dispatchStart_of_tooLong (hlimit ▸ hgt)] at hstep
  have hfits : ∀ {c P}, Dispatches f c (.ok P) → P.length ≤ limit → builds c P := by
    intro c P h hle
    obtain ⟨frame, henc, hdisp⟩ := dispatchStart_of_fits (hlimit ▸ hle) s.linkUp c
    obtain ⟨hholds, hsame⟩ := putFrame_bytes henc
    have hstep := step_of_payload hturn hp h
    rw [hdisp] at hstep
    obtain hopen | hclosed := Bool.eq_false_or_eq_true s.linkUp
    · rw [if_pos hopen] at hstep
      exact ⟨_, frame, henc, hstep, hholds, hsame, by simp [hopen], fun _ => by rw [putFrame_eq]⟩
    · rw [if_neg (by simp [hclosed])] at hstep
      exact ⟨_, frame, henc, hstep, hholds, hsame,
        fun _ => congrArg (fun g => { s with turns := s.turns.tail, fcd := g }) (putFrame_endOp _ _ _),
        by simp [hclosed]⟩
  refine ⟨fun hop => ?read, fun hop => ?write⟩
  case read =>
    have hdisp : Dispatches f 0xEC f.buildReadPayload := dispatches_read hop
    have hpay (hpw : f.pwLen = 4) (hT : T % 2 = 0) := buildReadPayload_ok_iff.2 ⟨hpw, hT, rfl⟩
    have hlen : (prefixOf f.wordCount ++ bytes .pw 4).length = 8 + T := by
      simp [prefixOf, bytes]
      omega
    refine ⟨fun hpw => ?_, fun hpw hT => ?_, fun hpw hT hgt => ?_, fun hpw hT hle => ?_⟩
    · exact hfails (buildReadPayload_of_pwLen hpw ▸ hdisp)
    · exact hfails (buildReadPayload_of_oddTid hpw hT ▸ hdisp)
    · exact htooLong (hpay hpw hT ▸ hdisp) (hlen ▸ hgt)
    · exact hfits (hpay hpw hT ▸ hdisp) (hlen ▸ hle)
  case write =>
    have hdisp : Dispatches f 0xEB f.buildWritePayload := dispatches_write hop
    have hpay (hpw : f.pwLen = 4) (hT : T % 2 = 0) (hD : D % 2 = 0) :=
      buildWritePayload_ok_iff.2 ⟨hpw, hT, hD, List.append_assoc _ (bytes .data D) (bytes .pw 4)⟩
    have hlen : (prefixOf (BitVec.ofNat 8 (D / 2)) ++ bytes .data D ++ bytes .pw 4).length = 8 + T + D := by
      simp [prefixOf, bytes]
      omega
    refine ⟨fun hpw => ?_, fun hpw hT => ?_, fun hpw hT hD => ?_, fun hpw hT hD hgt => ?_, fun hpw hT hD hle => ?_⟩
    · exact hfails (buildWritePayload_of_pwLen hpw ▸ hdisp)
    · exact hfails (buildWritePayload_of_oddTid hpw hT ▸ hdisp)
    · exact hfails (buildWritePayload_of_oddData hpw hT hD ▸ hdisp)
    · exact htooLong (hpay hpw hT hD ▸ hdisp) (hlen ▸ hgt)
    · exact hfits (hpay hpw hT hD ▸ hdisp) (hlen ▸ hle)

end Sys2Proof.Proofs

/-! PROOF. The statements of 60_exceptions.md: the CHECK step of a reserved OP (R264), and what every end of an
operation leaves (R260, R262, R270). -/

namespace Sys2Proof.Proofs

open Sys2Proof.Machine Sys2Proof.Laws

/-! ### A reserved OP -/

/-- A reserved OP is none of the six operations of R100. -/
theorem reservedOp_notMem :
    ∀ op : BitVec 4, op = 0 ∨ 7 ≤ op.toNat → op ∉ [opSend, opInventory, opRead, opWrite, opEncode, opDecode] := by
  decide

theorem opWireCode_of_notMem {f : Fcd} (h : f.ctrlOp ∉ [opSend, opInventory, opRead, opWrite, opEncode]) :
    f.opWireCode = none := by
  simp only [List.mem_cons, List.not_mem_nil, or_false, not_or] at h
  obtain ⟨hsend, hinv, hread, hwrite, henc⟩ := h
  simp [Fcd.opWireCode, hsend, hinv, hread, hwrite, henc]

theorem checkLocal_of_ne {f : Fcd} (h : f.ctrlOp ≠ opDecode) : f.checkLocal = f.endOp .illegalOp := if_neg h

/-- Settles O29: a reserved OP has no wire command code and is not DECODE, so its CHECK step is the end with
ILLEGAL_OP. -/
theorem reservedOpEndsIllegal : Obligations.ReservedOpEndsIllegal := by
  intro s hturn hp hop
  have hmem := reservedOp_notMem s.fcd.ctrlOp hop
  have hcode : s.fcd.opWireCode = none := opWireCode_of_notMem fun h => hmem (List.mem_append_left [opDecode] h)
  have hne : s.fcd.ctrlOp ≠ opDecode := fun h => hmem (by simp [h])
  rw [step_checkLocal hturn hp hcode, checkLocal_of_ne hne]
  rfl

/-! ### The engine leaves COLLIDE alone -/

theorem writeFields_collide (f : Fcd) (d : Fields) : (f.writeFields d).collide = f.collide := by rw [writeFields_eq]

theorem finishInventory_collide (f : Fcd) : f.finishInventory.collide = f.collide := by
  obtain ⟨-, h⟩ | ⟨recs, -, h⟩ := finishInventory_cases f <;> rw [h]
  · rfl
  · rw [writeTags_eq]
    rfl

theorem finishSuccess_collide {f g : Fcd} (h : f.finishSuccess = some g) : g.collide = f.collide := by
  obtain ⟨-, he⟩ | ⟨-, he⟩ | ⟨-, he⟩ | ⟨-, he⟩ | ⟨-, he⟩ := finishSuccess_cases f <;> rw [he] at h <;> cases h
  · rfl
  · exact finishInventory_collide f
  · rfl
  · rfl

theorem classifyFailure_collide (f : Fcd) (d : Fields) : (f.classifyFailure d).collide = f.collide := by
  rw [classifyFailure_eq]

theorem commitStep_collide {f g : Fcd} (h : f.commitStep = some g) : g.collide = f.collide := by
  obtain ⟨x, -, he⟩ | ⟨r, c, he⟩ | ⟨d, -, ⟨-, he⟩ | ⟨-, he⟩⟩ := commitStep_cases f <;> rw [he] at h
  · cases h; rfl
  · cases h; rfl
  · cases h; exact (classifyFailure_collide _ d).trans (writeFields_collide f d)
  · exact (finishSuccess_collide h).trans (writeFields_collide f d)

/-! ### An operation that is over has ended -/

/-- From `f` to `g` an operation in progress goes on, or ends with a result and COLLIDE as it was (R262, R270). -/
def GoesOnOrEnds (f g : Fcd) : Prop :=
  f.busy = true → g.busy = true ∨ Ended g ∧ g.collide = f.collide

theorem GoesOnOrEnds.of_busy {f g : Fcd} (h : g.busy = f.busy) : GoesOnOrEnds f g := fun hf => .inl (h.trans hf)

theorem GoesOnOrEnds.of_ended {f g : Fcd} (h : Ended g) (hc : g.collide = f.collide) : GoesOnOrEnds f g :=
  fun _ => .inr ⟨h, hc⟩

theorem checkWire_goesOnOrEnds (f : Fcd) (linkUp : Bool) (cmd : Byte) : GoesOnOrEnds f (f.checkWire linkUp cmd) := by
  obtain ⟨x, hx, h⟩ | ⟨frame, -, -, ⟨-, h⟩ | ⟨-, -, h⟩ | ⟨-, -, h⟩⟩ := checkWire_cases f linkUp cmd <;> rw [h]
  · exact .of_ended (endOp_ended f (by rcases hx with rfl | rfl <;> decide)) rfl
  · exact .of_ended (endOp_ended _ (by decide)) (setBufs_collide ..)
  · exact .of_ended (endOp_ended _ (by decide)) (setBufs_collide ..)
  · exact .of_busy (setBufs_busy ..)

theorem checkLocal_goesOnOrEnds (f : Fcd) : GoesOnOrEnds f f.checkLocal := by
  unfold Fcd.checkLocal
  split
  · obtain ⟨x, hx, h⟩ | ⟨r, c, h⟩ | ⟨d, -, h⟩ := checkDecode_cases f <;> rw [h]
    · exact .of_ended (endOp_ended f (by rcases hx with rfl | rfl <;> decide)) rfl
    · exact .of_ended (endOp_ended _ (by decide)) rfl
    · exact .of_ended (endOp_ended _ (by decide)) (writeFields_collide f d)
  · exact .of_ended (endOp_ended f (by decide)) rfl

theorem writeLoc_keeps_busy {f : Fcd} (h : f.busy = true) (l : Loc) (v : Byte) : (f.writeLoc l v).busy = true := by
  rw [(writeLoc_busy f l v h).1]
  exact h

theorem fcdMove_goesOnOrEnds {s : State} {g : Fcd} (h : FcdMove s g) : GoesOnOrEnds s.fcd g := by
  cases h with
  | same => exact .of_busy rfl
  | write l v => exact fun hf => .inl (writeLoc_keeps_busy hf l v)
  | start op => exact fun hf => .inl (by rw [startOp_busy hf]; exact hf)
  | carry c => exact checkWire_goesOnOrEnds s.fcd s.linkUp c

theorem engineTurn_goesOnOrEnds {s t : State} (h : engineTurn s = .next t) : GoesOnOrEnds s.fcd t.fcd := by
  obtain ⟨c, -, -, he⟩ | ⟨-, -, he⟩ | ⟨-, ⟨g, hg, he⟩ | ⟨-, he⟩⟩ | ⟨-, he⟩ := engineTurn_cases s <;>
    rw [he] at h <;> cases h
  · exact checkWire_goesOnOrEnds s.fcd s.linkUp c
  · exact checkLocal_goesOnOrEnds s.fcd
  · exact .of_ended (commitStep_ended hg) (commitStep_collide hg)
  · exact .of_busy rfl

theorem deliverByte_busy {s t : State} (h : deliverByte s = .next t) : t.fcd.busy = s.fcd.busy := by
  obtain rfl | ⟨b, rest, p, -, rfl⟩ := cases_of_deliverByte h
  · rfl
  · exact setBuf_busy ..

theorem transportStep_goesOnOrEnds {s t : State} {sig : Signals} (h : transportStep sig s = .next t) :
    GoesOnOrEnds s.fcd t.fcd := by
  obtain he | ⟨-, -, he⟩ | ⟨-, -, he⟩ | ⟨-, -, he⟩ | ⟨-, -, he⟩ := transportStep_cases sig s <;> rw [he] at h
  · cases h; exact .of_busy rfl
  · cases h; exact .of_ended (endOp_ended s.fcd (by decide)) rfl
  · obtain ⟨u, hu, rfl⟩ := keepShort_next h
    rw [eq_of_acceptByte hu]
    exact .of_busy rfl
  · obtain ⟨u, hu, rfl⟩ := keepShort_next h
    exact .of_busy (deliverByte_busy (t := u) hu)
  · cases h; exact .of_busy rfl

theorem step_goesOnOrEnds {s t : State} (h : step s = .next t) (hturn : nextTurn s ≠ .reset) :
    GoesOnOrEnds s.fcd t.fcd := by
  obtain ⟨-, hm⟩ | ⟨-, hm⟩ | ⟨sig, -, hm⟩ | ⟨_, -, rfl⟩ | ⟨-, rfl⟩ | ⟨_, -, rfl⟩ | ⟨hr, -⟩ := step_cases h
  · exact fcdMove_goesOnOrEnds (s := s.popTurn) (hostStep_next hm).1
  · exact engineTurn_goesOnOrEnds (s := s.popTurn) hm
  · exact transportStep_goesOnOrEnds (s := s.popTurn) hm
  · exact .of_busy rfl
  · exact .of_busy rfl
  · exact .of_busy rfl
  · exact absurd hr hturn

/-- Settles O57: every agent's move lets an operation in progress go on or ends it, and BUSY = 0 after the step leaves
the end alone. -/
theorem everyEndHasAResult : Obligations.EveryEndHasAResult := by
  intro s t _ h hturn hbusy hover
  obtain ⟨hend, hcollide⟩ := (step_goesOnOrEnds h hturn hbusy).resolve_left (by simp [hover])
  exact ⟨hend.result, hend.done, hend.phase, hcollide⟩

end Sys2Proof.Proofs
